-- ==== Sys2Proof/Word.lean ====
section
/-! DEFINITION. The word types of the block: a byte, a 32-bit register word, a pixel (00_scope.md R10). -/

namespace Sys2Proof

/-- A byte, an unsigned 8-bit value (R10). -/
abbrev Byte := BitVec 8

/-- A host-visible register's 32-bit value (R22). -/
abbrev Word := BitVec 32

/-- A pixel: the 4-tuple of bytes `(r, g, b, a)` (R10). -/
structure Pixel where
  r : Byte
  g : Byte
  b : Byte
  a : Byte
deriving DecidableEq, Repr, Inhabited

end Sys2Proof
end

