-- ==== Sys2Proof/Syntax.lean ====
section
/-! DEFINITION. The instructions: one constructor per row of spec/opcode_table.json (00_scope.md R3). The operands are the
decoded values of 30_encoding.md R103, R113; which values an encoding admits is WellFormed.lean. -/

namespace Sys2Proof

/-- The two instruction formats: a command word written to `CMD` (R91), a chunk of the QOI stream (R94). -/
inductive Format where
  | cmd
  | chunk
deriving DecidableEq, Repr

/-- The instructions of the block (R92, R93, R94). -/
inductive Instr where
  /-- Command 0x0, R133. -/
  | nop
  /-- Command 0x1, R134. -/
  | lzwCompress
  /-- Command 0x2, R135. -/
  | qoiCompress
  /-- Command 0x3, R136. -/
  | qoiDecompress
  /-- Command 0x4, R137. -/
  | bmpEncode24
  /-- Command 0x5, R138. -/
  | bmpEncode32
  /-- Command 0x6, R139. -/
  | ack
  /-- Command 0x7, R140. -/
  | abort
  /-- Any other value written to `CMD`; the operand is the whole written word (R93, R141). -/
  | reservedCmd (value : Word)
  /-- Chunk `0xFE r g b`, R99, R257. -/
  | rgb (r g b : Byte)
  /-- Chunk `0xFF r g b a`, R100, R258. -/
  | rgba (r g b a : Byte)
  /-- Chunk `0b00xxxxxx`, R95, R254. -/
  | index (idx : BitVec 6)
  /-- Chunk `0b01xxxxxx` with three differences, R96, R255. -/
  | diff (dr dg db : Int)
  /-- Chunk `0b10xxxxxx` and a byte, R97, R256. -/
  | luma (dg drDg dbDg : Int)
  /-- Chunk `0b11xxxxxx`, R98, R259. -/
  | run (n : Nat)
deriving DecidableEq, Repr

/-- The format of an instruction (the table's column "format"). -/
def Instr.format : Instr → Format
  | .nop => .cmd
  | .lzwCompress => .cmd
  | .qoiCompress => .cmd
  | .qoiDecompress => .cmd
  | .bmpEncode24 => .cmd
  | .bmpEncode32 => .cmd
  | .ack => .cmd
  | .abort => .cmd
  | .reservedCmd _ => .cmd
  | .rgb _ _ _ => .chunk
  | .rgba _ _ _ _ => .chunk
  | .index _ => .chunk
  | .diff _ _ _ => .chunk
  | .luma _ _ _ => .chunk
  | .run _ => .chunk

end Sys2Proof
end

