-- ==== Sys2Proof/WellFormed.lean ====
section
/-! DEFINITION. Which operands an encoding admits: the ranges of 30_encoding.md R93, R96, R97, R98. -/

namespace Sys2Proof

/-- A value written to `CMD` that is a reserved command: `OPC` in 0x8 to 0xF, or any of bits 31:4 set (R93). -/
abbrev isReservedCmd (v : Word) : Prop := 8 ≤ (v.extractLsb' 0 4).toNat ∨ v.extractLsb' 4 28 ≠ 0#28

/-- A `DIFF` difference: -2 to 1 (R96). -/
abbrev inDiffRange (d : Int) : Prop := -2 ≤ d ∧ d ≤ 1

/-- The green difference of `LUMA`: -32 to 31 (R97). -/
abbrev inLumaGreenRange (d : Int) : Prop := -32 ≤ d ∧ d ≤ 31

/-- The red and blue differences of `LUMA` relative to green: -8 to 7 (R97). -/
abbrev inLumaSideRange (d : Int) : Prop := -8 ≤ d ∧ d ≤ 7

/-- Whether an encoding can hold the instruction's operands. -/
def Instr.wellFormed : Instr → Bool
  | .nop => true
  | .lzwCompress => true
  | .qoiCompress => true
  | .qoiDecompress => true
  | .bmpEncode24 => true
  | .bmpEncode32 => true
  | .ack => true
  | .abort => true
  | .reservedCmd v => decide (isReservedCmd v)
  | .rgb _ _ _ => true
  | .rgba _ _ _ _ => true
  | .index _ => true
  | .diff dr dg db => decide (inDiffRange dr ∧ inDiffRange dg ∧ inDiffRange db)
  | .luma dg drDg dbDg => decide (inLumaGreenRange dg ∧ inLumaSideRange drDg ∧ inLumaSideRange dbDg)
  | .run n => decide (1 ≤ n ∧ n ≤ 62)

/-- The instructions the encodings can hold. -/
abbrev Instr.WellFormed (i : Instr) : Prop := i.wellFormed = true

end Sys2Proof
end

