-- ==== Sys2Proof/Decode.lean ====
section
/-! DEFINITION. The decoder of the two encodings the block decodes, the command word and the QOI chunk stream
(30_encoding.md R90 to R104), total on any bytes and rejecting by name, and after it the encoder. -/

namespace Sys2Proof

/-- The bytes of `v`, least significant first: `n` bytes, higher bits dropped (20_memory.md R67, R68, R70). -/
def leBytes : Nat → Nat → List Byte
  | 0, _ => []
  | n + 1, v => BitVec.ofNat 8 v :: leBytes n (v / 256)

/-- Why the decoder refuses a byte sequence. The 256 tag bytes are all defined (R102), so a sequence is refused only
for being too short. -/
inductive Reject where
  /-- No byte at all. -/
  | empty
  /-- The format, or the tag byte of a chunk, asks for more bytes than there are. -/
  | truncated
deriving DecidableEq, Repr

/-- The command a value written to `CMD` stands for: opcode in bits 3:0, bits 31:4 zero, everything else reserved
(R91, R92, R93). -/
def decodeCmd (v : Word) : Instr :=
  if v.extractLsb' 4 28 = 0#28 then
    match (v.extractLsb' 0 4).toNat with
    | 0 => .nop
    | 1 => .lzwCompress
    | 2 => .qoiCompress
    | 3 => .qoiDecompress
    | 4 => .bmpEncode24
    | 5 => .bmpEncode32
    | 6 => .ack
    | 7 => .abort
    | _ => .reservedCmd v
  else .reservedCmd v

/-- How many bytes follow the tag byte `t`; the tag byte alone fixes the length (R94, R101). -/
def payloadLength (t : Byte) : Nat :=
  if t = 0xFE#8 then 3
  else if t = 0xFF#8 then 4
  else if t.extractLsb' 6 2 = 0b10#2 then 1
  else 0

/-- One chunk from the front of a byte sequence, and the bytes after it. The whole-byte tags are tested first (R101);
the fields and their biases are those of R95 to R100, R103. -/
def decodeChunk : List Byte → Except Reject (Instr × List Byte)
  | [] => .error .empty
  | t :: rest =>
    if t = 0xFE#8 then
      match rest with
      | r :: g :: b :: rest => .ok (.rgb r g b, rest)
      | _ => .error .truncated
    else if t = 0xFF#8 then
      match rest with
      | r :: g :: b :: a :: rest => .ok (.rgba r g b a, rest)
      | _ => .error .truncated
    else if t.extractLsb' 6 2 = 0b00#2 then .ok (.index (t.extractLsb' 0 6), rest)
    else if t.extractLsb' 6 2 = 0b01#2 then
      .ok (.diff ((t.extractLsb' 4 2).toNat - 2) ((t.extractLsb' 2 2).toNat - 2) ((t.extractLsb' 0 2).toNat - 2), rest)
    else if t.extractLsb' 6 2 = 0b10#2 then
      match rest with
      | u :: rest =>
        .ok (.luma ((t.extractLsb' 0 6).toNat - 32) ((u.extractLsb' 4 4).toNat - 8) ((u.extractLsb' 0 4).toNat - 8), rest)
      | [] => .error .truncated
    else .ok (.run ((t.extractLsb' 0 6).toNat + 1), rest)

/-- The decoder: an instruction of the given format from the front of a byte sequence. A command word is four bytes,
bits 7:0 first (R70). -/
def decode : Format → List Byte → Except Reject (Instr × List Byte)
  | .chunk, bs => decodeChunk bs
  | .cmd, b0 :: b1 :: b2 :: b3 :: rest => .ok (decodeCmd (b3 ++ b2 ++ b1 ++ b0), rest)
  | .cmd, [] => .error .empty
  | .cmd, _ => .error .truncated

/-- The command word of a command (R92); a reserved command's word is its operand. Not used for a chunk. -/
def encodeCmd : Instr → Word
  | .nop => 0x0#32
  | .lzwCompress => 0x1#32
  | .qoiCompress => 0x2#32
  | .qoiDecompress => 0x3#32
  | .bmpEncode24 => 0x4#32
  | .bmpEncode32 => 0x5#32
  | .ack => 0x6#32
  | .abort => 0x7#32
  | .reservedCmd v => v
  | .rgb _ _ _ => 0#32
  | .rgba _ _ _ _ => 0#32
  | .index _ => 0#32
  | .diff _ _ _ => 0#32
  | .luma _ _ _ => 0#32
  | .run _ => 0#32

/-- A field of `w` bits holding `x + bias` (R96, R97, R103). -/
def biased (w : Nat) (bias x : Int) : BitVec w := BitVec.ofInt w (x + bias)

/-- The bytes of an instruction: the chunk's bytes (R95 to R100), or the command word's four bytes in register byte
order (R70, R91). -/
def encode : Instr → List Byte
  | .rgb r g b => [0xFE#8, r, g, b]
  | .rgba r g b a => [0xFF#8, r, g, b, a]
  | .index idx => [0b00#2 ++ idx]
  | .diff dr dg db => [0b01#2 ++ biased 2 2 dr ++ biased 2 2 dg ++ biased 2 2 db]
  | .luma dg drDg dbDg => [0b10#2 ++ biased 6 32 dg, biased 4 8 drDg ++ biased 4 8 dbDg]
  | .run n => [0b11#2 ++ BitVec.ofNat 6 (n - 1)]
  | .nop => leBytes 4 (encodeCmd .nop).toNat
  | .lzwCompress => leBytes 4 (encodeCmd .lzwCompress).toNat
  | .qoiCompress => leBytes 4 (encodeCmd .qoiCompress).toNat
  | .qoiDecompress => leBytes 4 (encodeCmd .qoiDecompress).toNat
  | .bmpEncode24 => leBytes 4 (encodeCmd .bmpEncode24).toNat
  | .bmpEncode32 => leBytes 4 (encodeCmd .bmpEncode32).toNat
  | .ack => leBytes 4 (encodeCmd .ack).toNat
  | .abort => leBytes 4 (encodeCmd .abort).toNat
  | .reservedCmd v => leBytes 4 (encodeCmd (.reservedCmd v)).toNat

/-- The format of a row's word in spec/opcode_table.json: 32-bit rows are command words, but for the row RGB, whose low
byte is 0xFE; every other width is a chunk's. DESIGN CHOICE, log entry 9: the table gives RGB and the command rows one
width, and no command row of the table has the low byte 0xFE. -/
def tableWordFormat (nbits w : Nat) : Format :=
  if nbits = 32 ∧ w % 256 ≠ 0xFE then .cmd else .chunk

/-- What the decoder reads from a row's word: its bytes, lowest first, the bits above the row's width zero up to the
longest instruction (five bytes). -/
def decodeTableWord (nbits w : Nat) : Option Instr :=
  match decode (tableWordFormat nbits w) (leBytes 5 (w % 2 ^ nbits)) with
  | .ok (i, _) => some i
  | .error _ => none

end Sys2Proof
end

