-- ==== Sys2Proof/Machine/Units.lean ====
section
/-! DEFINITION. The latched configuration and the working registers of the three units (10_state.md R33 to R40), with the
widths the spec gives them. -/

namespace Sys2Proof.Machine

/-- The latches an accepted start command fills (R33). -/
structure Latches where
  opl : BitVec 4
  w   : BitVec 16
  h   : BitVec 16
  cb  : BitVec 4
  den : Bool
  len : Word
  n   : Word
deriving DecidableEq, Repr, Inhabited

/-- One entry of the LZW code table: the key `(code, sym)` and the code it maps to (R36). -/
structure TabEntry where
  code : BitVec 12
  sym  : Byte
  val  : BitVec 12
deriving DecidableEq, Repr, Inhabited

/-- The LZW working registers, the code table `TAB` (newest entry first) and the staging buffer `BLK` (R35 to R37).
`CLEAR` and `ENDC` are constants of the latch `CB` (R34), the functions `lzwClear` and `lzwEnd`. -/
structure LzwRegs where
  prevv : Bool
  prev  : BitVec 12
  next  : BitVec 13
  csize : BitVec 4
  acc   : BitVec 19
  nbits : BitVec 5
  blkn  : BitVec 8
  tab   : List TabEntry
  blk   : Vector Byte 255
deriving DecidableEq, Repr, Inhabited

/-- The QOI working registers and the 64-slot cache (R38, R39). -/
structure QoiRegs where
  prevpx : Pixel
  run    : BitVec 6
  pixn   : Word
  cache  : Vector Pixel 64
deriving DecidableEq, Repr, Inhabited

/-- The BMP working registers (R40). -/
structure BmpRegs where
  row  : BitVec 16
  col  : BitVec 16
  padn : BitVec 2
deriving DecidableEq, Repr, Inhabited

/-- The working state of the three units (R20 c). -/
structure Work where
  lzw : LzwRegs
  qoi : QoiRegs
  bmp : BmpRegs
deriving DecidableEq, Repr, Inhabited

/-- How an operation ends whose input the host changed while it ran (70_reset_and_hazards.md R316 a): done with some
output, or one of the faults the operation can raise. -/
inductive RaceOutcome where
  /-- The operation completes: output length, input position and `ALLT` it shows. -/
  | completes (outLen inPos : Word) (allt : Bool)
  /-- The operation faults: whether OUT is full, and the recorded address otherwise. -/
  | faults (outFull : Bool) (info : Word)
deriving DecidableEq, Repr, Inhabited

end Sys2Proof.Machine
end

