-- ==== Sys2Proof/Config.lean ====
section
/-! DEFINITION. What an implementation fixes (00_scope.md R7) and the free values: what the spec calls unspecified. A free
value is an opaque constant applied to the counter `freeCnt` of the state, so that nothing can be proved of it. -/

namespace Sys2Proof

/-- The parameters of R7 that the spec leaves OPEN or lets a model override. No step writes them. -/
structure Config where
  /-- `IN_SIZE`, bytes of the IN space; at least 1. -/
  inSize : Nat
  /-- `OUT_CAP`, bytes of the OUT space; 1 to `2^32 - 1`. -/
  outCap : Word
  /-- `LZW_TABLE_LIMIT`: 4095, or 4096 under the other reading (92_eei_decisions.md D13). -/
  lzwLimit : Nat
  /-- `BMP_XPPM`. -/
  bmpXppm : Word
  /-- `BMP_YPPM`. -/
  bmpYppm : Word
  /-- `BMP_CSTYPE`. -/
  bmpCstype : Word
  /-- The reset value of `QOICFG.DELTA_EN` (D26). -/
  deltaEnReset : Bool
  /-- `REG_BASE`, the platform address of the register page (R22, 20_memory.md R74). -/
  regBase : Nat
  /-- `IN_BASE`, the platform address of the window onto IN (R74). -/
  inBase : Nat
  /-- `OUT_BASE`, the platform address of the window onto OUT (R74). -/
  outBase : Nat
deriving DecidableEq, Repr

/-- The size of the register page (10_state.md R22). -/
abbrev Config.regPage : Nat := 4096

/-- Two windows, given by base and size, share no platform address. -/
abbrev Config.windowsApart (base size base' size' : Nat) : Prop := base + size ≤ base' ∨ base' + size' ≤ base

/-- The parameter values R7 admits; for `LZW_TABLE_LIMIT` the two of 42_lzw.md R191. That the three windows do not overlap is
a DESIGN CHOICE, log entry 33. -/
abbrev Config.wf (c : Config) : Prop :=
  1 ≤ c.inSize ∧ 1 ≤ c.outCap.toNat ∧ (c.lzwLimit = 4095 ∨ c.lzwLimit = 4096) ∧
    windowsApart c.regBase regPage c.inBase c.inSize ∧ windowsApart c.regBase regPage c.outBase c.outCap.toNat ∧
    windowsApart c.inBase c.inSize c.outBase c.outCap.toNat

/-- The values of R7. `IN_SIZE` and `OUT_CAP` are OPEN there; 1024 is the size of the spec's own vectors and programs
(95_test_vectors.md sections 7 and 8). DESIGN CHOICE, log entry 1. The three bases are OPEN too: the register page at 0 and
the two windows behind it, DESIGN CHOICE, log entry 33. -/
def Config.standard : Config where
  inSize := 1024
  outCap := 1024#32
  lzwLimit := 4095
  bmpXppm := 0#32
  bmpYppm := 0#32
  bmpCstype := 0#32
  deltaEnReset := true
  regBase := 0
  inBase := 0x1000
  outBase := 0x1400

/-- `LZW_CB_MIN` (R7). -/
abbrev Config.lzwCbMin : Nat := 1

/-- `LZW_CB_MAX` (R7). -/
abbrev Config.lzwCbMax : Nat := 8

/-- `LZW_BLOCK_MAX` (R7). -/
abbrev Config.lzwBlockMax : Nat := 255

/-- `QOI_RUN_MAX` (R7). -/
abbrev Config.qoiRunMax : Nat := 62

/-- The content of IN address `a` since power-on or reset number `gen`, where the host has written nothing (R43). Log
entry 3. -/
opaque Config.powerOnIn (gen a : Nat) : Byte

/-- A byte of OUT the host reads where it is not valid (R31, R43, R144). Log entry 4. -/
opaque Config.freeOutByte (n a : Nat) : Byte

/-- `IN_POS` after a fault (R288), and what the host reads of it while busy (R144). Log entries 5, 14. -/
opaque Config.freeInPos (n : Nat) : Word

/-- What the host reads of `OUT_LEN` while busy (R144). Log entry 14. -/
opaque Config.freeOutLen (n : Nat) : Word

/-- `STATUS.ALLT` after a BMP operation that faulted (R161, R288). Log entry 5. -/
opaque Config.freeAllt (n : Nat) : Bool

/-- The working state of all units after a fault, `ABORT` or hardware reset (R288, R140, R310). Log entries 5, 6, 22. -/
opaque Config.freeWork (n : Nat) : Machine.Work

/-- The latches after a hardware reset (R310). Log entry 22. -/
opaque Config.freeLatches (n : Nat) : Machine.Latches

/-- The end of an operation whose input the host wrote while it ran (R316 a). Log entry 12. -/
opaque Config.raceOutcome (n : Nat) : Machine.RaceOutcome

end Sys2Proof
end

