-- ==== Sys2Proof/Machine/State.lean ====
section
/-! DEFINITION. The state of the block (10_state.md), the host's accesses that reach it, the reasons a step can stop, and the
state after reset. -/

namespace Sys2Proof.Machine

/-- The contents of IN or OUT: `(address, byte)` cells, addresses strictly rising (`Memory.wf`). An unlisted address holds
no byte the model knows; log entries 3, 4. -/
abbrev Memory := List Host.Cell

/-- What the host, or the reset line, does to the block (00_scope.md R14, 20_memory.md R60, R72; 30_encoding.md R113). -/
inductive HostAct where
  /-- A write of `v` to the register page at byte offset `off`, `size` bytes wide. -/
  | regWrite (off size : Nat) (v : Word)
  /-- A read of the register page. -/
  | regRead (off size : Nat)
  /-- A byte written to IN. -/
  | inWrite (a : Nat) (v : Byte)
  /-- A byte read from OUT. -/
  | outRead (a : Nat)
  /-- A byte written to OUT (R316 e). -/
  | outWrite (a : Nat) (v : Byte)
  /-- A write of `v`, `size` bytes wide, at a platform address (20_memory.md R74). -/
  | busWrite (addr size : Nat) (v : Word)
  /-- A read of `size` bytes at a platform address (R74). -/
  | busRead (addr size : Nat)
  /-- The host polls `STATUS` until `BUSY = 0`: the line `WAIT` of R113. -/
  | wait
  /-- The host does nothing for one turn, and the engine takes a step if it is busy. -/
  | pass
  /-- The reset line (70_reset_and_hazards.md R310). -/
  | hwReset
deriving DecidableEq, Repr

/-- The state of the block. -/
structure State where
  /-- The parameters (00_scope.md R7); no step writes them. -/
  cfg : Config
  /-- `STATUS.BUSY` (R25). -/
  busy : Bool
  /-- `STATUS.DONE` (R25). -/
  done : Bool
  /-- `STATUS.ALLT` (R25, R161). -/
  allt : Bool
  /-- `STATUS.ERR` (R25, R280). -/
  err : BitVec 4
  /-- `STATUS.OP` (R25). -/
  op : BitVec 4
  /-- `CTRL.IE` (R26). -/
  ie : Bool
  /-- `DIM` (R27). -/
  dim : Word
  /-- `LZWCFG.COLORBITS` (R28). -/
  colorBits : BitVec 4
  /-- `QOICFG.DELTA_EN` (R29). -/
  deltaEn : Bool
  /-- `IN_LEN` (R30). -/
  inLen : Word
  /-- `IN_POS` (R24). -/
  inPos : Word
  /-- `OUT_LEN` (R31). -/
  outLen : Word
  /-- `FAULT_INFO` (R32). -/
  faultInfo : Word
  /-- The latches (R33). -/
  lat : Latches
  /-- The working registers and register files (R34 to R40). -/
  work : Work
  /-- The IN space (R60). -/
  inMem : Memory
  /-- The OUT space (R60). -/
  outMem : Memory
  /-- The model's own: the counter free values are applied to. -/
  freeCnt : Nat
  /-- The model's own: which reset the unspecified contents of IN date from. -/
  inGen : Nat
  /-- The model's own: IN below `LEN` was written during the running operation (R316 a). -/
  inRaced : Bool
  /-- The model's own: the contents of OUT are unspecified (R43, R140, R288, R316 e). -/
  outFree : Bool
  /-- The model's own: the value the host's last read returned. -/
  rdata : Word
  /-- The model's own: the host's accesses still to come, in the order they reach the block. -/
  host : List HostAct
deriving DecidableEq, Repr

/-- Why a step stops the model. The block's own faults (60_exceptions.md R280) are states of the block and never one of
these. -/
inductive Fault where
  /-- The host writes an IN address at or above `IN_SIZE`, which does not exist (R60). Raised by `hostInWrite`. Safe: the
  model stops where a platform may do anything. -/
  | noSuchInAddress
  /-- The host reads or writes an OUT address at or above `OUT_CAP`, which does not exist (R60). Raised by `hostOutRead`
  and `hostOutWrite`. Safe, as above. -/
  | noSuchOutAddress
deriving DecidableEq, Repr

/-- What the model has no meaning for. -/
inductive Refusal where
  /-- An instruction not modelled yet. Raised by no arm of `exec`. Safe. -/
  | notModelled (mnemonic : String)
  /-- A host access to the register space that is not an aligned 32-bit access inside the 4 KiB page: left to the
  platform's bus (20_memory.md R72, 93_implementation_defined.md U2). Raised by `hostRegWrite` and `hostRegRead`. Safe. -/
  | registerAccess
  /-- A host access by platform address that the spec leaves to the platform: in none of the three windows, wider than a byte
  in IN or OUT, or a read of IN (20_memory.md R60, R73, R74, U2, U27). Raised by `hostBusWrite` and `hostBusRead`. Safe. -/
  | platformAccess
  /-- The fetched bytes are no chunk. Every byte sequence of the tag's length is one (R102), so no fetch raises it
  (`Laws.Fetch`). Safe. -/
  | undecodable
deriving DecidableEq, Repr

/-- The latches after power-on: the spec gives no value (R43). DESIGN CHOICE, log entry 2. -/
def Latches.zero : Latches where
  opl := 0
  w := 0
  h := 0
  cb := 0
  den := false
  len := 0
  n := 0

/-- The pixel `(0, 0, 0, 0)`. -/
def zeroPixel : Pixel := ⟨0, 0, 0, 0⟩

/-- The working state after power-on: the spec gives no value (R43). DESIGN CHOICE, log entry 2. -/
def Work.zero : Work where
  lzw := ⟨false, 0, 0, 0, 0, 0, 0, [], Vector.replicate 255 0⟩
  qoi := ⟨zeroPixel, 0, 0, Vector.replicate 64 zeroPixel⟩
  bmp := ⟨0, 0, 0⟩

/-- The block right after hardware reset, on a platform with parameters `c` (R22, R43, R310). -/
def State.resetWith (c : Config) : State where
  cfg := c
  busy := false
  done := false
  allt := false
  err := 0
  op := 0
  ie := false
  dim := 0
  colorBits := 0
  deltaEn := c.deltaEnReset
  inLen := 0
  inPos := 0
  outLen := 0
  faultInfo := 0
  lat := Latches.zero
  work := Work.zero
  inMem := []
  outMem := []
  freeCnt := 0
  inGen := 0
  inRaced := false
  outFree := true
  rdata := 0
  host := []

/-- The machine right after reset (R310), with the parameters of `Config.standard`. -/
def State.reset : State := State.resetWith Config.standard

end Sys2Proof.Machine
end

