-- ==== Sys2Proof/Machine/Flags.lean ====
section
/-! DEFINITION. The status register, the interrupt line and what a host read of a register returns (10_state.md R22 to R32,
60_exceptions.md R291). -/

namespace Sys2Proof.Machine

/-- The value of `STATUS`: `OP` in 11:8, `ERR` in 7:4, `ALLT`, `DONE`, `BUSY` in bits 2, 1, 0, every other bit 0 (R25). -/
def State.statusWord (s : State) : Word :=
  0#20 ++ s.op ++ s.err ++ 0#1 ++ BitVec.ofBool s.allt ++ BitVec.ofBool s.done ++ BitVec.ofBool s.busy

/-- The level interrupt line `irq = CTRL.IE and (DONE = 1 or ERR != 0)` (R291). -/
def State.irq (s : State) : Bool := s.ie && (s.done || s.err != 0#4)

/-- Done or faulted: the states `ACK` leaves (40_commands.md R130, R139). -/
def State.ended (s : State) : Bool := s.done || s.err != 0#4

/-- The last start command accepted was a BMP command (R25, `OP`). -/
def State.opIsBmp (s : State) : Bool := s.op == 4#4 || s.op == 5#4

/-- `ALLT` for the operation that just lost its meaning: unspecified after a BMP operation, and otherwise not written
(R25, R161, R288). Log entry 5. -/
def State.freeAllt (s : State) : Bool := if s.opIsBmp then Config.freeAllt s.freeCnt else s.allt

/-- Completion: `BUSY <- 0`, `DONE <- 1` (40_commands.md R143). -/
def State.complete (s : State) : State := { s with busy := false, done := true }

/-- The byte offsets of the registers in the register page (R22). -/
abbrev offCmd : Nat := 0x00
abbrev offStatus : Nat := 0x04
abbrev offCtrl : Nat := 0x08
abbrev offDim : Nat := 0x0C
abbrev offLzwCfg : Nat := 0x10
abbrev offQoiCfg : Nat := 0x14
abbrev offInLen : Nat := 0x18
abbrev offInPos : Nat := 0x1C
abbrev offOutLen : Nat := 0x20
abbrev offFaultInfo : Nat := 0x24

/-- The value a host read of the register at `off` returns. `CMD` reads as 0 (R23); `IN_POS` and `OUT_LEN` are
unspecified while busy (R24, R31, R144); reserved bits and offsets read as 0 (R22). -/
def State.regValue (s : State) (off : Nat) : Word :=
  if off = offStatus then s.statusWord
  else if off = offCtrl then 0#31 ++ BitVec.ofBool s.ie
  else if off = offDim then s.dim
  else if off = offLzwCfg then 0#28 ++ s.colorBits
  else if off = offQoiCfg then 0#31 ++ BitVec.ofBool s.deltaEn
  else if off = offInLen then s.inLen
  else if off = offInPos then (if s.busy then Config.freeInPos s.freeCnt else s.inPos)
  else if off = offOutLen then (if s.busy then Config.freeOutLen s.freeCnt else s.outLen)
  else if off = offFaultInfo then s.faultInfo
  else 0#32

/-- A host write to a register other than `CMD`: the named bits are stored, reserved bits, reserved offsets and read-only
registers keep their values (R22, R26 to R30; for the read-only registers log entry 10). -/
def State.storeReg (s : State) (off : Nat) (v : Word) : State :=
  if off = offCtrl then { s with ie := v.getLsbD 0 }
  else if off = offDim then { s with dim := v }
  else if off = offLzwCfg then { s with colorBits := v.extractLsb' 0 4 }
  else if off = offQoiCfg then { s with deltaEn := v.getLsbD 0 }
  else if off = offInLen then { s with inLen := v }
  else s

end Sys2Proof.Machine
end

