-- ==== Sys2Proof/Machine/Ops.lean ====
section
/-! DEFINITION. The named operations shared by the meanings: memory, the byte writers `emit` and `emitAll` (20_memory.md
R66 to R69), taking a fault and leaving the faulted state (60_exceptions.md R288, R292), starting an operation
(40_commands.md R131), `ABORT` (R140) and hardware reset (70_reset_and_hazards.md R310). -/

namespace Sys2Proof.Machine

/-! ## Memory -/

/-- The byte listed at address `a`, if any. -/
def Memory.read : Memory → Nat → Option Byte
  | [], _ => none
  | c :: m, a => if c.1 = a then some c.2 else Memory.read m a

/-- The memory with byte `v` at address `a`; addresses stay strictly rising. -/
def Memory.write : Memory → Nat → Byte → Memory
  | [], a, v => [(a, v)]
  | c :: m, a, v =>
    if a < c.1 then (a, v) :: c :: m
    else if a = c.1 then (a, v) :: m
    else c :: Memory.write m a v

/-- The canonical form: addresses strictly rising. An unlisted address holds no known byte, so no entry can equal what an
unlisted address reads as. -/
abbrev Memory.wf (m : Memory) : Prop := m.Pairwise (fun c d => c.1 < d.1)

/-- The bytes `vs` written at `a`, `a + 1`, … -/
def Memory.writeAll : Memory → Nat → List Byte → Memory
  | m, _, [] => m
  | m, a, v :: vs => Memory.writeAll (Memory.write m a v) (a + 1) vs

/-! ## Faults of the block -/

/-- The five faults (R280). -/
inductive FaultKind where
  | cmdError
  | cfgError
  | symbolError
  | decodeError
  | outFull
deriving DecidableEq, Repr

/-- The code in `STATUS.ERR` (R280). -/
def FaultKind.code : FaultKind → BitVec 4
  | .cmdError => 1#4
  | .cfgError => 2#4
  | .symbolError => 3#4
  | .decodeError => 4#4
  | .outFull => 5#4

/-- A fault met inside a step: `raise F(info)` of the pseudocode. -/
structure Raised where
  kind : FaultKind
  info : Word
deriving DecidableEq, Repr

/-- What a step, or a part of one, comes to: a state, or the first fault it meets (R289). -/
abbrev Res := Except Raised

/-- Fault entry (R288): `BUSY` and `DONE` cleared, the code and the recorded value latched, `OUT_LEN` 0. `IN_POS`, `ALLT`
(after a BMP operation), the contents of OUT and the working state become unspecified: free values, log entry 5. -/
def raise (f : Raised) (s : State) : State :=
  { s with
    busy := false
    done := false
    err := f.kind.code
    faultInfo := f.info
    outLen := 0#32
    inPos := Config.freeInPos s.freeCnt
    allt := s.freeAllt
    work := Config.freeWork s.freeCnt
    outMem := []
    outFree := true
    inRaced := false
    freeCnt := s.freeCnt + 1 }

/-- The state a step leaves: its result, or the fault taken. What the step did before the fault is unspecified after it
(R288), so the fault is taken from the state the step began in. -/
def settle (s : State) : Res State → State
  | .ok t => t
  | .error f => raise f s

/-- Leaving the done or faulted state by `ACK`: `DONE`, `ERR`, `FAULT_INFO` cleared, nothing else (R139, R292). -/
def clearOutcome (s : State) : State := { s with done := false, err := 0#4, faultInfo := 0#32 }

/-- Leaving any state by `ABORT` (R140): `STATUS` 0 but for `OP`, `FAULT_INFO`, `IN_POS`, `OUT_LEN` 0; OUT and the working
state unspecified (log entry 6). -/
def abandon (s : State) : State :=
  { s with
    busy := false
    done := false
    allt := false
    err := 0#4
    faultInfo := 0#32
    inPos := 0#32
    outLen := 0#32
    work := Config.freeWork s.freeCnt
    outMem := []
    outFree := true
    inRaced := false
    freeCnt := s.freeCnt + 1 }

/-- Hardware reset while the platform runs (R310): the register values of R22, everything else unspecified. The platform's
parameters and the host's accesses still to come are not the block's; log entry 22. -/
def hardwareReset (s : State) : State :=
  { State.resetWith s.cfg with
    lat := Config.freeLatches s.freeCnt
    work := Config.freeWork s.freeCnt
    freeCnt := s.freeCnt + 1
    inGen := s.freeCnt + 1
    rdata := s.rdata
    host := s.host }

/-! ## Writing OUT -/

/-- `emit(v)`: one byte appended to OUT, `OutFull` when OUT is full (R66). -/
def emit (v : Byte) (s : State) : Res State :=
  if s.cfg.outCap.toNat ≤ s.outLen.toNat then .error ⟨.outFull, s.outLen⟩
  else .ok { s with outMem := s.outMem.write s.outLen.toNat v, outLen := s.outLen + 1#32 }

/-- The bytes of a list emitted in order. -/
def emitAll : List Byte → State → Res State
  | [], s => .ok s
  | v :: vs, s => (emit v s).bind (emitAll vs)

/-- The state with the bytes `bs` appended to OUT: what `emitAll bs` leaves when they fit. -/
def State.appended (s : State) (bs : List Byte) : State :=
  { s with outMem := s.outMem.writeAll s.outLen.toNat bs, outLen := s.outLen + BitVec.ofNat 32 bs.length }

/-- `emit16(v)` writes these bytes: little-endian, truncated to 16 bits (R67). -/
def le16 (v : Nat) : List Byte := leBytes 2 v

/-- `emit32(v)` writes these bytes: little-endian, truncated to 32 bits (R68). -/
def le32 (v : Nat) : List Byte := leBytes 4 v

/-- `emitString(s)` writes these bytes: one a character (R69). -/
def asciiBytes (cs : List Char) : List Byte := cs.map (fun c => BitVec.ofNat 8 c.toNat)

/-! ## Updates of the working registers -/

/-- The state with other LZW registers. -/
def State.setLzw (s : State) (r : LzwRegs) : State := { s with work := { s.work with lzw := r } }

/-- The state with other QOI registers. -/
def State.setQoi (s : State) (r : QoiRegs) : State := { s with work := { s.work with qoi := r } }

/-- The state with other BMP registers. -/
def State.setBmp (s : State) (r : BmpRegs) : State := { s with work := { s.work with bmp := r } }

/-! ## Starting an operation -/

/-- The first part of an accepted start command: flags cleared, `OP` and the latches filled, the cursors 0 (R131). The
previous output is lost with `OUT_LEN` (R315). -/
def latchStart (opc : BitVec 4) (s : State) : State :=
  { s with
    done := false
    err := 0#4
    allt := false
    faultInfo := 0#32
    op := opc
    lat :=
      { opl := opc
        w := s.dim.extractLsb' 0 16
        h := s.dim.extractLsb' 16 16
        cb := s.colorBits
        den := s.deltaEn
        len := s.inLen
        n := BitVec.ofNat 32 ((s.dim.extractLsb' 0 16).toNat * (s.dim.extractLsb' 16 16).toNat) }
    inPos := 0#32
    outLen := 0#32
    outMem := []
    outFree := false
    inRaced := false }

/-- `4 * W * H` of the latches, without truncation (R132). -/
def pixelBytes (s : State) : Nat := 4 * s.lat.w.toNat * s.lat.h.toNat

/-- The checks of R132 in the order of R283: the first that fails gives the sub-code. -/
def firstFailing : List (Bool × Word) → Option Word
  | [] => none
  | (holds, code) :: rest => if holds then firstFailing rest else some code

/-- A start command (R131): ignored while busy (R142); otherwise the configuration is latched and checked, and either
`CfgError` is raised or the unit is initialised and `BUSY` set. -/
def startCommand (opc : BitVec 4) (checks : State → List (Bool × Word)) (init : State → State) (s : State) : State :=
  if s.busy then s
  else
    match firstFailing (checks (latchStart opc s)) with
    | some code => raise ⟨.cfgError, code⟩ (latchStart opc s)
    | none => { init (latchStart opc s) with busy := true }

end Sys2Proof.Machine
end

