-- ==== Sys2Proof/Machine/Operands.lean ====
section
/-! DEFINITION. How operands are read: a byte of IN, the cursor reads `next` and `nextPixel` (20_memory.md R64, R65), a pixel
by its coordinates (R63), the LZW constants (10_state.md R34), the slot of a pixel in the cache (R39). -/

namespace Sys2Proof.Machine

/-- The byte of IN at address `a` (R11). A byte the host has not written holds a free value that stays the same until the
next reset (R43, R73; log entry 3). -/
def inByte (s : State) (a : Nat) : Byte := (s.inMem.read a).getD (Config.powerOnIn s.inGen a)

/-- `MemRead(IN, a, 4)`: the pixel at address `a` (R11, R63). -/
def inPixel (s : State) (a : Nat) : Pixel := ⟨inByte s a, inByte s (a + 1), inByte s (a + 2), inByte s (a + 3)⟩

/-- `next()`: the byte at the cursor, which advances; `DecodeError` at the end of the input (R64). -/
def next (s : State) : Res (Byte × State) :=
  if s.lat.len.toNat ≤ s.inPos.toNat then .error ⟨.decodeError, s.inPos⟩
  else .ok (inByte s s.inPos.toNat, { s with inPos := s.inPos + 1#32 })

/-- `n` bytes by `next()`. -/
def nextBytes : Nat → State → Res (List Byte × State)
  | 0, s => .ok ([], s)
  | n + 1, s =>
    match next s with
    | .error f => .error f
    | .ok (b, s1) =>
      match nextBytes n s1 with
      | .error f => .error f
      | .ok (bs, s2) => .ok (b :: bs, s2)

/-- `nextPixel()`: the pixel at the cursor, which advances by 4 (R65). -/
def nextPixel (s : State) : Pixel × State := (inPixel s s.inPos.toNat, { s with inPos := s.inPos + 4#32 })

/-- The IN address of the pixel at column `x`, row `y` of an image `w` wide (R63). -/
def pixelAddr (w x y : Nat) : Nat := (y * w + x) * 4

/-- `CLEAR = 1 << CB` (R34). -/
def lzwClear (cb : BitVec 4) : Nat := 1 <<< cb.toNat

/-- `ENDC = CLEAR + 1` (R34). -/
def lzwEnd (cb : BitVec 4) : Nat := lzwClear cb + 1

/-- `qhash(p) = (r*3 + g*5 + b*7 + a*11) % 64` (R39). -/
def qhash (p : Pixel) : BitVec 6 :=
  BitVec.ofNat 6 (p.r.toNat * 3 + p.g.toNat * 5 + p.b.toNat * 7 + p.a.toNat * 11)

/-- The pixel in a cache slot (R39). -/
def cacheRead (c : Vector Pixel 64) (i : BitVec 6) : Pixel := c.get ⟨i.toNat, i.isLt⟩

/-- The cache with a pixel in a slot; the older pixel is evicted (R39). -/
def cacheWrite (c : Vector Pixel 64) (i : BitVec 6) (p : Pixel) : Vector Pixel 64 := c.set i.toNat p i.isLt

/-- A channel moved by a signed difference, modulo 256 (44_qoi_decompress.md R261). -/
def channelAdd (c : Byte) (d : Int) : Byte := BitVec.ofInt 8 (c.toNat + d)

end Sys2Proof.Machine
end

