-- ==== Sys2Proof/Machine/Bmp.lean ====
section
/-! DEFINITION. The BMP unit: the two start commands and the unit's steps (41_bmp.md, 30_encoding.md R109 to R112). -/

namespace Sys2Proof.Machine

/-- The two versions (R150). -/
inductive BmpVersion where
  | bmp24
  | bmp32
deriving DecidableEq, Repr

/-- The version the latched opcode selects (R150). -/
def bmpVersion (opl : BitVec 4) : BmpVersion := if opl = 4#4 then .bmp24 else .bmp32

/-- `PADN` (R151). -/
def bmpPadding : BmpVersion → Nat → Nat
  | .bmp24, w => w % 4
  | .bmp32, _ => 0

/-- `perPixelBytes` (R152). -/
def bmpPixelBytes : BmpVersion → Nat
  | .bmp24 => 3
  | .bmp32 => 4

/-- `infoSize` (R152). -/
def bmpInfoSize : BmpVersion → Nat
  | .bmp24 => 40
  | .bmp32 => 108

/-- `bitmapSize` (R152). -/
def bmpBitmapSize (v : BmpVersion) (w h : Nat) : Nat := (bmpPixelBytes v * w + bmpPadding v w) * h

/-- `dataOffset` (R152). -/
def bmpDataOffset (v : BmpVersion) : Nat := 14 + bmpInfoSize v

/-- `fileSize` (R152). -/
def bmpFileSize (v : BmpVersion) (w h : Nat) : Nat := bmpDataOffset v + bmpBitmapSize v w h

/-- The file header (R154). -/
def bmpFileHeader (v : BmpVersion) (w h : Nat) : List Byte :=
  asciiBytes ['B', 'M'] ++ le32 (bmpFileSize v w h) ++ le32 0 ++ le32 (bmpDataOffset v)

/-- The 40-byte info header (R155). -/
def bmpInfoHeader24 (c : Config) (w h : Nat) : List Byte :=
  le32 40 ++ le32 w ++ le32 h ++ le16 1 ++ le16 24 ++ le32 0 ++ le32 (bmpBitmapSize .bmp24 w h)
    ++ le32 c.bmpXppm.toNat ++ le32 c.bmpYppm.toNat ++ le32 0 ++ le32 0

/-- The 108-byte info header (R156). -/
def bmpInfoHeader32 (c : Config) (w h : Nat) : List Byte :=
  le32 108 ++ le32 w ++ le32 h ++ le16 1 ++ le16 32 ++ le32 3 ++ le32 (bmpBitmapSize .bmp32 w h)
    ++ le32 c.bmpXppm.toNat ++ le32 c.bmpYppm.toNat ++ le32 0 ++ le32 0
    ++ le32 0x000000FF ++ le32 0x0000FF00 ++ le32 0x00FF0000 ++ le32 0xFF000000
    ++ le32 c.bmpCstype.toNat ++ List.replicate 36 0#8 ++ le32 0 ++ le32 0 ++ le32 0

/-- The info header of a version (R155, R156). -/
def bmpInfoHeader : BmpVersion → Config → Nat → Nat → List Byte
  | .bmp24, c, w, h => bmpInfoHeader24 c w h
  | .bmp32, c, w, h => bmpInfoHeader32 c w h

/-- `emitPixel` (R158, R159). -/
def bmpPixel : BmpVersion → Pixel → List Byte
  | .bmp24, p => [p.b, p.g, p.r]
  | .bmp32, p => [p.r, p.g, p.b, p.a]

/-- The configuration checks of the pixel commands (R132, R283). -/
def checksPixels (s : State) : List (Bool × Word) :=
  [(pixelBytes s == s.lat.len.toNat, 2#32), (decide (s.lat.len.toNat ≤ s.cfg.inSize), 3#32)]

/-- The unit's state at the start of an operation (R312, R40). With `H = 0` the spec leaves `ROW` unspecified (R40, U10) and
`H - 1` wraps to 0xFFFF; with `W = 0` it leaves `ROW` and `COL` unspecified and they are set as otherwise: DESIGN CHOICE, log
entry 32. -/
def initBmp (v : BmpVersion) (s : State) : State :=
  s.setBmp
    { row := s.lat.h - 1#16
      col := 0#16
      padn := BitVec.ofNat 2 (bmpPadding v s.lat.w.toNat) }

/-- `BMP_ENCODE24` (R137). -/
def execBmpEncode24 (s : State) : Host.Outcome State Fault Refusal :=
  .next (startCommand 4#4 checksPixels (initBmp .bmp24) s)

/-- `BMP_ENCODE32` (R138). -/
def execBmpEncode32 (s : State) : Host.Outcome State Fault Refusal :=
  .next (startCommand 5#4 checksPixels (initBmp .bmp32) s)

/-- The end of the operation: the cursor at `LEN`, then completion (R157, R143). -/
def bmpFinish (s : State) : State := { s with inPos := s.lat.len }.complete

/-- The header step: the two headers, `ALLT` set, and the end when there is no row (R154 to R157). -/
def bmpHeaderStep (s : State) : Res State :=
  let v := bmpVersion s.lat.opl
  (emitAll (bmpFileHeader v s.lat.w.toNat s.lat.h.toNat ++ bmpInfoHeader v s.cfg s.lat.w.toNat s.lat.h.toNat) s).map
    fun s1 =>
      let s2 := { s1 with allt := true }
      if s2.lat.h = 0#16 then bmpFinish s2 else s2

/-- The pixel step at `(COL, ROW)` (R157 to R159). After the last pixel of a row `COL` is `W`, outside the range 0 to `W - 1`
of R40: it marks the end of the row until the padding step, DESIGN CHOICE, log entry 31. -/
def bmpPixelStep (s : State) : Res State :=
  let p := inPixel s (pixelAddr s.lat.w.toNat s.work.bmp.col.toNat s.work.bmp.row.toNat)
  (emitAll (bmpPixel (bmpVersion s.lat.opl) p) { s with allt := s.allt && p.a == 0#8 }).map
    fun s1 => s1.setBmp { s1.work.bmp with col := s1.work.bmp.col + 1#16 }

/-- The padding step at the end of a row, where `COL` holds `W` (log entry 31), and the end of the operation after row 0
(R157, R160). -/
def bmpPadStep (s : State) : Res State :=
  (emitAll (List.replicate s.work.bmp.padn.toNat 0#8) s).map fun s1 =>
    if s1.work.bmp.row = 0#16 then bmpFinish s1
    else s1.setBmp { s1.work.bmp with row := s1.work.bmp.row - 1#16, col := 0#16 }

/-- One step of a BMP operation (R145): the headers while nothing is written (log entry 8), then a pixel while `COL` is below
`W`, else a padding (log entry 31). -/
def bmpStep (s : State) : Res State :=
  if s.outLen = 0#32 then bmpHeaderStep s
  else if s.work.bmp.col.toNat < s.lat.w.toNat then bmpPixelStep s
  else bmpPadStep s

end Sys2Proof.Machine
end

