-- ==== Sys2Proof/Machine/Lzw.lean ====
section
/-! DEFINITION. The LZW unit: `LZW_COMPRESS` and the unit's steps (42_lzw.md). -/

namespace Sys2Proof.Machine

/-- The configuration checks of `LZW_COMPRESS` (R132, R283). -/
def checksLzw (s : State) : List (Bool × Word) :=
  [(decide (Config.lzwCbMin ≤ s.lat.cb.toNat ∧ s.lat.cb.toNat ≤ Config.lzwCbMax), 1#32),
   (decide (s.lat.len.toNat ≤ s.cfg.inSize), 3#32)]

/-- The unit's registers at the start of an operation (R181). `PREV` and the bytes of `BLK` keep what they held: they are
unspecified then and never read (R35, R37). -/
def lzwStartRegs (cb : BitVec 4) (l : LzwRegs) : LzwRegs :=
  { l with
    prevv := false
    next := BitVec.ofNat 13 (lzwEnd cb + 1)
    csize := cb + 1#4
    acc := 0#19
    nbits := 0#5
    blkn := 0#8
    tab := [] }

/-- The initialisation of the unit (R312). -/
def initLzw (s : State) : State := s.setLzw (lzwStartRegs s.lat.cb s.work.lzw)

/-- `LZW_COMPRESS` (R134). -/
def execLzwCompress (s : State) : Host.Outcome State Fault Refusal :=
  .next (startCommand 1#4 checksLzw initLzw s)

/-- `flushBlock()`: the length byte and the staged bytes to OUT (R194). -/
def flushBlock (s : State) : Res State :=
  (emitAll (s.work.lzw.blkn :: s.work.lzw.blk.toList.take s.work.lzw.blkn.toNat) s).map
    fun s1 => s1.setLzw { s1.work.lzw with blkn := 0#8 }

/-- `putByte(v)`: a packed byte staged; a full buffer becomes a sub-block (R193). -/
def putByte (v : Byte) (s : State) : Res State :=
  let l := s.work.lzw
  let s1 := s.setLzw { l with blk := l.blk.setIfInBounds l.blkn.toNat v, blkn := l.blkn + 1#8 }
  if s1.work.lzw.blkn.toNat = Config.lzwBlockMax then flushBlock s1 else .ok s1

/-- The loop of `emitCode`: whole bytes leave the accumulator. `NBITS` has 5 bits, so four rounds are more than it can
ask for. -/
def drainAcc : Nat → State → Res State
  | 0, s => .ok s
  | fuel + 1, s =>
    if 8 ≤ s.work.lzw.nbits.toNat then
      (putByte (s.work.lzw.acc.extractLsb' 0 8) s).bind fun s1 =>
        drainAcc fuel (s1.setLzw
          { s1.work.lzw with acc := s1.work.lzw.acc >>> (8 : Nat), nbits := s1.work.lzw.nbits - 8#5 })
    else .ok s

/-- `emitCode(c)`: the code packed at the width `CSIZE`, least significant bit first (R192). -/
def emitCode (c : BitVec 12) (s : State) : Res State :=
  let l := s.work.lzw
  drainAcc 4 (s.setLzw
    { l with
      acc := l.acc ||| (c.setWidth 19 <<< l.nbits.toNat)
      nbits := l.nbits + l.csize.setWidth 5 })

/-- The code of the pair `(c, x)` in the table, if it is a key (R36). -/
def tabLookup : List TabEntry → BitVec 12 → Byte → Option (BitVec 12)
  | [], _, _ => none
  | e :: rest, c, x => if e.code = c ∧ e.sym = x then some e.val else tabLookup rest c x

/-- `insert(c, s)`: the next code value given to the pair, the width growing first when that value needs it; nothing when
the table is full (R189 to R191). -/
def lzwInsert (limit : Nat) (c : BitVec 12) (x : Byte) (l : LzwRegs) : LzwRegs :=
  if l.next.toNat < limit then
    { l with
      csize := if 2 ^ l.csize.toNat - 1 < l.next.toNat then l.csize + 1#4 else l.csize
      tab := { code := c, sym := x, val := l.next.setWidth 12 } :: l.tab
      next := l.next + 1#13 }
  else l

/-- The start step: the leading byte and `CLEAR` (R183). -/
def lzwStartStep (s : State) : Res State :=
  (emit (s.lat.cb.setWidth 8) s).bind (emitCode (BitVec.ofNat 12 (lzwClear s.lat.cb)))

/-- What a symbol in range does (R186 to R188). -/
def lzwSymbol (x : Byte) (s : State) : Res State :=
  let l := s.work.lzw
  if l.prevv then
    match tabLookup l.tab l.prev x with
    | some code => .ok (s.setLzw { l with prev := code })
    | none =>
      (emitCode l.prev s).map fun s1 =>
        s1.setLzw { lzwInsert s1.cfg.lzwLimit l.prev x s1.work.lzw with prev := x.setWidth 12 }
  else .ok (s.setLzw { l with prev := x.setWidth 12, prevv := true })

/-- The symbol step (R184, R185). -/
def lzwSymbolStep (s : State) : Res State :=
  (next s).bind fun (x, s1) =>
    if lzwClear s1.lat.cb ≤ x.toNat then .error ⟨.symbolError, s1.inPos - 1#32⟩ else lzwSymbol x s1

/-- The leftover bits as a final partial byte (R195). -/
def lzwFlushBits (s : State) : Res State :=
  if 0 < s.work.lzw.nbits.toNat then
    (putByte (s.work.lzw.acc.extractLsb' 0 8) s).map fun s1 =>
      s1.setLzw { s1.work.lzw with acc := 0#19, nbits := 0#5 }
  else .ok s

/-- The end step: the pending code, `ENDC`, the leftover bits, the last sub-block, completion (R195, R196). -/
def lzwEndStep (s : State) : Res State :=
  (if s.work.lzw.prevv then emitCode s.work.lzw.prev s else .ok s).bind fun s1 =>
    (emitCode (BitVec.ofNat 12 (lzwEnd s1.lat.cb)) s1).bind fun s2 =>
      (lzwFlushBits s2).bind fun s3 =>
        (if 0 < s3.work.lzw.blkn.toNat then flushBlock s3 else .ok s3).map State.complete

/-- One step of `LZW_COMPRESS` (R145): the start step while nothing is written (log entry 8), then one symbol a step,
then the end step. -/
def lzwStep (s : State) : Res State :=
  if s.outLen = 0#32 then lzwStartStep s
  else if s.inPos.toNat < s.lat.len.toNat then lzwSymbolStep s
  else lzwEndStep s

end Sys2Proof.Machine
end

