-- ==== Sys2Proof/Machine/QoiCompress.lean ====
section
/-! DEFINITION. The QOI compressor: `QOI_COMPRESS` and its steps (43_qoi_compress.md). -/

namespace Sys2Proof.Machine

/-- The state both QOI operations start from: `PREVPX` opaque black, every slot `(0,0,0,0)` (R221, R251). -/
def qoiStartRegs (run : BitVec 6) : QoiRegs where
  prevpx := ⟨0#8, 0#8, 0#8, 255#8⟩
  run := run
  pixn := 0#32
  cache := Vector.replicate 64 ⟨0#8, 0#8, 0#8, 0#8⟩

/-- `QOI_COMPRESS` (R135, R221). -/
def execQoiCompress (s : State) : Host.Outcome State Fault Refusal :=
  .next (startCommand 2#4 checksPixels (fun t => t.setQoi (qoiStartRegs 0#6)) s)

/-- The chunk for a pixel `p` that differs from `prev`, with `slot` the pixel in the cache at `p`'s own hash: the first of
`INDEX`, `DIFF`, `LUMA`, `RGB`, `RGBA` whose condition holds (R223, R227 to R231). Differences are plain integers (R234);
`den` is `DELTA_EN` (R235). -/
def chooseChunk (den : Bool) (prev slot p : Pixel) : Instr :=
  let dr : Int := p.r.toNat - prev.r.toNat
  let dg : Int := p.g.toNat - prev.g.toNat
  let db : Int := p.b.toNat - prev.b.toNat
  if slot = p then .index (qhash p)
  else if den = true ∧ p.a = prev.a ∧ inDiffRange dr ∧ inDiffRange dg ∧ inDiffRange db then .diff dr dg db
  else if den = true ∧ p.a = prev.a ∧ inLumaGreenRange dg ∧ inLumaSideRange (dr - dg) ∧ inLumaSideRange (db - dg) then
    .luma dg (dr - dg) (db - dg)
  else if p.a = prev.a then .rgb p.r p.g p.b
  else .rgba p.r p.g p.b p.a

/-- The pending run as a `RUN` chunk (R226, R232); nothing when no run is pending. -/
def flushRun (s : State) : Res State :=
  if 0 < s.work.qoi.run.toNat then
    (emitAll (encode (.run s.work.qoi.run.toNat)) s).map fun s1 => s1.setQoi { s1.work.qoi with run := 0#6 }
  else .ok s

/-- A pixel that equals `PREVPX`: the run grows and is written when it reaches 62 (R224, R225). -/
def qoiExtendRun (s : State) : Res State :=
  let s1 := s.setQoi { s.work.qoi with run := s.work.qoi.run + 1#6 }
  if s1.work.qoi.run.toNat = Config.qoiRunMax then flushRun s1 else .ok s1

/-- A pixel that differs from `PREVPX`: the pending run, then the pixel's chunk, then the cache and `PREVPX` (R226 to
R231, R233). -/
def qoiCodePixel (p : Pixel) (s : State) : Res State :=
  (flushRun s).bind fun s1 =>
    let q := s1.work.qoi
    (emitAll (encode (chooseChunk s1.lat.den q.prevpx (cacheRead q.cache (qhash p)) p)) s1).map fun s2 =>
      s2.setQoi { s2.work.qoi with cache := cacheWrite s2.work.qoi.cache (qhash p) p, prevpx := p }

/-- The pixel step (R223). -/
def qoiPixelStep (s : State) : Res State :=
  let p := (nextPixel s).1
  let s1 := (nextPixel s).2
  let s2 := s1.setQoi { s1.work.qoi with pixn := s1.work.qoi.pixn + 1#32 }
  if p = s2.work.qoi.prevpx then qoiExtendRun s2 else qoiCodePixel p s2

/-- The end padding (30_encoding.md R104). -/
def qoiEndPadding : List Byte := [0#8, 0#8, 0#8, 0#8, 0#8, 0#8, 0#8, 1#8]

/-- The end step (R232). -/
def qoiEndStep (s : State) : Res State :=
  (flushRun s).bind fun s1 => (emitAll qoiEndPadding s1).map State.complete

/-- One step of `QOI_COMPRESS` (R145). -/
def qoiCompressStep (s : State) : Res State :=
  if s.work.qoi.pixn.toNat < s.lat.n.toNat then qoiPixelStep s else qoiEndStep s

end Sys2Proof.Machine
end

