-- ==== Sys2Proof/Machine/QoiDecompress.lean ====
section
/-! DEFINITION. The QOI decompressor: `QOI_DECOMPRESS`, the fetch of a chunk, and the meaning of each chunk
(44_qoi_decompress.md). A chunk's meaning finds the cursor already past the chunk's bytes. -/

namespace Sys2Proof.Machine

/-- The configuration checks of `QOI_DECOMPRESS` (R132, R283). -/
def checksDecompress (s : State) : List (Bool × Word) :=
  [(decide (s.lat.len.toNat ≤ s.cfg.inSize), 3#32), (decide (pixelBytes s ≤ s.cfg.outCap.toNat), 4#32)]

/-- `QOI_DECOMPRESS` (R136, R251). `RUN` is not used and keeps what it held. -/
def execQoiDecompress (s : State) : Host.Outcome State Fault Refusal :=
  .next (startCommand 3#4 checksDecompress (fun t => t.setQoi (qoiStartRegs t.work.qoi.run)) s)

/-- A pixel's four bytes in the order R, G, B, A (R63). -/
def pixelBytesOf (p : Pixel) : List Byte := [p.r, p.g, p.b, p.a]

/-- `writeOne(cur)`: the pixel to OUT, then `PIXN`, the cache and `PREVPX` (R260, R262). -/
def writeOne (cur : Pixel) (s : State) : Res State :=
  (emitAll (pixelBytesOf cur) s).map fun s1 =>
    s1.setQoi
      { s1.work.qoi with
        pixn := s1.work.qoi.pixn + 1#32
        cache := cacheWrite s1.work.qoi.cache (qhash cur) cur
        prevpx := cur }

/-- The previous pixel moved by three differences, alpha kept (R255, R256, R261). -/
def movedPixel (p : Pixel) (dr dg db : Int) : Pixel :=
  ⟨channelAdd p.r dr, channelAdd p.g dg, channelAdd p.b db, p.a⟩

/-- `RGB r, g, b` (R257). -/
def execRgb (r g b : Byte) (s : State) : Host.Outcome State Fault Refusal :=
  .next (settle s (writeOne ⟨r, g, b, s.work.qoi.prevpx.a⟩ s))

/-- `RGBA r, g, b, a` (R258). -/
def execRgba (r g b a : Byte) (s : State) : Host.Outcome State Fault Refusal :=
  .next (settle s (writeOne ⟨r, g, b, a⟩ s))

/-- `INDEX idx` (R254). -/
def execIndex (idx : BitVec 6) (s : State) : Host.Outcome State Fault Refusal :=
  .next (settle s (writeOne (cacheRead s.work.qoi.cache idx) s))

/-- `DIFF dr, dg, db` (R255). -/
def execDiff (dr dg db : Int) (s : State) : Host.Outcome State Fault Refusal :=
  .next (settle s (writeOne (movedPixel s.work.qoi.prevpx dr dg db) s))

/-- `LUMA dg, dr_dg, db_dg` (R256). -/
def execLuma (dg drDg dbDg : Int) (s : State) : Host.Outcome State Fault Refusal :=
  .next (settle s (writeOne (movedPixel s.work.qoi.prevpx (dg + drDg) dg (dg + dbDg)) s))

/-- The bytes of `n` copies of a pixel. -/
def repeatPixel (n : Nat) (p : Pixel) : List Byte := (List.replicate n (pixelBytesOf p)).flatten

/-- `RUN run` (R259): `DecodeError` at the chunk's own address when it asks for more pixels than remain, else `PREVPX`
`run` times; the cache and `PREVPX` stay. -/
def writeRun (n : Nat) (s : State) : Res State :=
  if s.lat.n.toNat < s.work.qoi.pixn.toNat + n then .error ⟨.decodeError, s.inPos - 1#32⟩
  else
    (emitAll (repeatPixel n s.work.qoi.prevpx) s).map fun s1 =>
      s1.setQoi { s1.work.qoi with pixn := s1.work.qoi.pixn + BitVec.ofNat 32 n }

/-- `RUN run` (R259). -/
def execRun (n : Nat) (s : State) : Host.Outcome State Fault Refusal := .next (settle s (writeRun n s))

/-- The fetch of one chunk: the tag byte, then the bytes its length asks for, each by `next()` (R101, R253). -/
def fetchChunk (s : State) : Res (List Byte × State) :=
  (next s).bind fun (t, s1) => (nextBytes (payloadLength t) s1).map fun (bs, s2) => (t :: bs, s2)

/-- The end of the chunk loop: completion once `N` pixels are written (R252). -/
def finishDecompress (s : State) : State :=
  if s.busy ∧ s.lat.n.toNat ≤ s.work.qoi.pixn.toNat then s.complete else s

end Sys2Proof.Machine
end

