-- ==== Sys2Proof/Machine/System.lean ====
section
/-! DEFINITION. The commands that start no operation: `NOP`, `ACK`, `ABORT` and the reserved values (40_commands.md R133, R139
to R142). -/

namespace Sys2Proof.Machine

/-- `NOP` (R133): nothing, in every state. -/
def execNop (s : State) : Host.Outcome State Fault Refusal := .next s

/-- `ACK` (R139): leaves done or faulted; no effect in idle; ignored while busy (R142). -/
def execAck (s : State) : Host.Outcome State Fault Refusal :=
  if s.busy then .next s
  else if s.ended then .next (clearOutcome s)
  else .next s

/-- `ABORT` (R140), legal in every state. -/
def execAbort (s : State) : Host.Outcome State Fault Refusal := .next (abandon s)

/-- A reserved value written to `CMD`: `CmdError` recording the value (R141, R282); ignored while busy (R142). -/
def execReservedCmd (value : Word) (s : State) : Host.Outcome State Fault Refusal :=
  if s.busy then .next s else .next (raise ⟨.cmdError, value⟩ s)

end Sys2Proof.Machine
end

