-- ==== Sys2Proof/Machine/Dispatch.lean ====
section
/-! DEFINITION. The meaning of every instruction, one arm per constructor of Instr. -/

namespace Sys2Proof.Machine

def exec (i : Instr) (s : State) : Host.Outcome State Fault Refusal :=
  match i with
  | .nop => Sys2Proof.Machine.execNop s
  | .lzwCompress => Sys2Proof.Machine.execLzwCompress s
  | .qoiCompress => Sys2Proof.Machine.execQoiCompress s
  | .qoiDecompress => Sys2Proof.Machine.execQoiDecompress s
  | .bmpEncode24 => Sys2Proof.Machine.execBmpEncode24 s
  | .bmpEncode32 => Sys2Proof.Machine.execBmpEncode32 s
  | .ack => Sys2Proof.Machine.execAck s
  | .abort => Sys2Proof.Machine.execAbort s
  | .reservedCmd value => Sys2Proof.Machine.execReservedCmd value s
  | .rgb r g b => Sys2Proof.Machine.execRgb r g b s
  | .rgba r g b a => Sys2Proof.Machine.execRgba r g b a s
  | .index idx => Sys2Proof.Machine.execIndex idx s
  | .diff dr dg db => Sys2Proof.Machine.execDiff dr dg db s
  | .luma dg drDg dbDg => Sys2Proof.Machine.execLuma dg drDg dbDg s
  | .run n => Sys2Proof.Machine.execRun n s

end Sys2Proof.Machine
end

