-- ==== Sys2Proof/Machine/Race.lean ====
section
/-! DEFINITION. How an operation ends whose input the host wrote while it ran (70_reset_and_hazards.md R316 a,
93_implementation_defined.md U11): unspecified, but done or a fault the operation can raise, with the bounds kept. DESIGN
CHOICE, log entry 12: the free outcome is taken at the engine's next step. -/

namespace Sys2Proof.Machine

/-- The fault a racing operation may end in: `OutFull` with `OUT_CAP`, or, where the operation can raise one,
`SymbolError` or `DecodeError` with an address inside the input (R280, R284, R285). `QOI_DECOMPRESS` cannot raise
`OutFull` (R265). -/
def raceFault (s : State) (outFull : Bool) (info : Word) : Raised :=
  if s.lat.opl = 3#4 then ⟨.decodeError, if info ≤ s.lat.len then info else s.lat.len⟩
  else if s.lat.opl = 1#4 ∧ s.lat.cb.toNat < 8 ∧ outFull = false then
    ⟨.symbolError, if info < s.lat.len then info else s.lat.len - 1#32⟩
  else ⟨.outFull, s.cfg.outCap⟩

/-- The state a racing operation ends in. `IN_POS` after completion is `LEN` but for `QOI_DECOMPRESS`, where it is at most
`LEN` (R24, R263); the output's contents are unspecified. -/
def raceStep (s : State) : State :=
  match Config.raceOutcome s.freeCnt with
  | .completes outLen inPos allt =>
    { s with
      busy := false
      done := true
      allt := if s.opIsBmp then allt else s.allt
      outLen := if outLen ≤ s.cfg.outCap then outLen else s.cfg.outCap
      inPos := if s.lat.opl = 3#4 ∧ inPos ≤ s.lat.len then inPos else s.lat.len
      work := Config.freeWork s.freeCnt
      outMem := []
      outFree := true
      inRaced := false
      freeCnt := s.freeCnt + 1 }
  | .faults outFull info => raise (raceFault s outFull info) s

end Sys2Proof.Machine
end

