-- ==== Sys2Proof/Machine/Engine.lean ====
section
/-! DEFINITION. The engine's turn (40_commands.md R144, R145), the host's turn (20_memory.md R60, R72, R73), which of the two
moves next (log entry 7), and where a row's word of the opcode table is placed so that the next step runs it. -/

namespace Sys2Proof.Machine

/-! ## The engine -/

/-- One chunk of the stream run: fetched, decoded, executed (R252, R253, R262). -/
def chunkStep (s : State) : Host.Outcome State Fault Refusal :=
  match fetchChunk s with
  | .error f => .next (raise f s)
  | .ok (bytes, s1) =>
    match decode .chunk bytes with
    | .error _ => .refused .undecodable
    | .ok (i, _) =>
      match exec i s1 with
      | .next t => .next (finishDecompress t)
      | .fault r => .fault r
      | .refused r => .refused r

/-- A step of `QOI_DECOMPRESS`: a chunk while pixels are missing, else completion (R252). -/
def qoiDecompressStep (s : State) : Host.Outcome State Fault Refusal :=
  if s.work.qoi.pixn.toNat < s.lat.n.toNat then chunkStep s else .next s.complete

/-- A step of the operation in progress, by the latched opcode. No other value is ever latched while busy; for one the
engine takes no step (log entry 16). -/
def opStep (s : State) : Host.Outcome State Fault Refusal :=
  if s.lat.opl = 1#4 then .next (settle s (lzwStep s))
  else if s.lat.opl = 2#4 then .next (settle s (qoiCompressStep s))
  else if s.lat.opl = 3#4 then qoiDecompressStep s
  else if s.lat.opl = 4#4 ∨ s.lat.opl = 5#4 then .next (settle s (bmpStep s))
  else .next s

/-- The engine's turn: a step when busy, nothing otherwise (R130). -/
def engineTurn (s : State) : Host.Outcome State Fault Refusal :=
  if s.busy then (if s.inRaced then .next (raceStep s) else opStep s) else .next s

/-! ## The host -/

/-- A register access the block defines: 32 bits wide, 4-byte aligned, inside the 4 KiB page (R22, R72). -/
abbrev registerAccessOk (off size : Nat) : Prop := size = 4 ∧ off % 4 = 0 ∧ off + 4 ≤ 4096

/-- A host write to the register page: a command at `CMD` (R23), a store elsewhere (R73). -/
def hostRegWrite (off size : Nat) (v : Word) (s : State) : Host.Outcome State Fault Refusal :=
  if registerAccessOk off size then
    if off = offCmd then exec (decodeCmd v) s else .next (s.storeReg off v)
  else .refused .registerAccess

/-- A host read of the register page: the value in `rdata`; no side effect on the block (R73). The counter moves so that
two reads of an unspecified value need not agree (R144). -/
def hostRegRead (off size : Nat) (s : State) : Host.Outcome State Fault Refusal :=
  if registerAccessOk off size then .next { s with rdata := s.regValue off, freeCnt := s.freeCnt + 1 }
  else .refused .registerAccess

/-- A host write to IN (R60, R61). Below `LEN` while busy it leaves the operation's result unspecified (R316 a); at or
above `LEN` it does not touch the operation (R316 b). -/
def hostInWrite (a : Nat) (v : Byte) (s : State) : Host.Outcome State Fault Refusal :=
  if a < s.cfg.inSize then
    .next { s with inMem := s.inMem.write a v, inRaced := s.inRaced || (s.busy && decide (a < s.lat.len.toNat)) }
  else .fault .noSuchInAddress

/-- The byte of OUT the host reads: valid when idle or done below `OUT_LEN`, unspecified otherwise (R31, R143, R144). -/
def outByte (s : State) (a : Nat) : Byte :=
  if s.busy = false ∧ s.outFree = false ∧ a < s.outLen.toNat then
    (s.outMem.read a).getD (Config.freeOutByte s.freeCnt a)
  else Config.freeOutByte s.freeCnt a

/-- A host read of OUT: the byte in the low bits of `rdata` (log entry 15). -/
def hostOutRead (a : Nat) (s : State) : Host.Outcome State Fault Refusal :=
  if a < s.cfg.outCap.toNat then
    .next { s with rdata := (outByte s a).setWidth 32, freeCnt := s.freeCnt + 1 }
  else .fault .noSuchOutAddress

/-- A host write to OUT, where the platform allows one: the output is unspecified from then on (R316 e, log entry 13). -/
def hostOutWrite (a : Nat) (_v : Byte) (s : State) : Host.Outcome State Fault Refusal :=
  if a < s.cfg.outCap.toNat then .next { s with outFree := true } else .fault .noSuchOutAddress

/-- A platform address inside a window of `size` bytes from `base` on. -/
abbrev inWindow (addr base size : Nat) : Prop := base ≤ addr ∧ addr < base + size

/-- A host write at a platform address: the register page at `REG_BASE` (R22), a byte of IN or OUT in the windows at
`IN_BASE` and `OUT_BASE` (R74). DESIGN CHOICE, log entry 33: the platform maps IN and OUT as windows of bytes; a platform
that does not uses the accesses by address in the space. -/
def hostBusWrite (addr size : Nat) (v : Word) (s : State) : Host.Outcome State Fault Refusal :=
  if inWindow addr s.cfg.regBase Config.regPage then hostRegWrite (addr - s.cfg.regBase) size v s
  else if size = 1 ∧ inWindow addr s.cfg.inBase s.cfg.inSize then hostInWrite (addr - s.cfg.inBase) (v.extractLsb' 0 8) s
  else if size = 1 ∧ inWindow addr s.cfg.outBase s.cfg.outCap.toNat then
    hostOutWrite (addr - s.cfg.outBase) (v.extractLsb' 0 8) s
  else .refused .platformAccess

/-- A host read at a platform address, as `hostBusWrite`; the host does not read IN (R60). -/
def hostBusRead (addr size : Nat) (s : State) : Host.Outcome State Fault Refusal :=
  if inWindow addr s.cfg.regBase Config.regPage then hostRegRead (addr - s.cfg.regBase) size s
  else if size = 1 ∧ inWindow addr s.cfg.outBase s.cfg.outCap.toNat then hostOutRead (addr - s.cfg.outBase) s
  else .refused .platformAccess

/-- One access of the host, or the reset line. `wait` and `pass` are turns, handled by `takeTurn`; alone they do
nothing. -/
def hostTurn (act : HostAct) (s : State) : Host.Outcome State Fault Refusal :=
  match act with
  | .regWrite off size v => hostRegWrite off size v s
  | .regRead off size => hostRegRead off size s
  | .inWrite a v => hostInWrite a v s
  | .outRead a => hostOutRead a s
  | .outWrite a v => hostOutWrite a v s
  | .busWrite addr size v => hostBusWrite addr size v s
  | .busRead addr size => hostBusRead addr size s
  | .wait => .next s
  | .pass => .next s
  | .hwReset => .next (hardwareReset s)

/-! ## Who moves -/

/-- One step of the whole: the host's next access, or the engine's turn when the host passes, waits while the block is
busy, or has nothing left to do (log entry 7). -/
def takeTurn (s : State) : Host.Outcome State Fault Refusal :=
  match s.host with
  | [] => engineTurn s
  | .pass :: rest => engineTurn { s with host := rest }
  | .wait :: rest => if s.busy then engineTurn s else .next { s with host := rest }
  | act :: rest => hostTurn act { s with host := rest }

/-! ## Placing an instruction -/

/-- The bytes `bs` written to IN from address `a` on. -/
def placeBytes (a : Nat) (bs : List Byte) (s : State) : State := { s with inMem := s.inMem.writeAll a bs }

/-- A row's word of the opcode table where the next step runs it (log entry 7). A command word becomes the host's next
access, a write to `CMD`. A chunk's five bytes go to IN at the cursor, and the block is put in a running
`QOI_DECOMPRESS` with 62 pixels to come, the most one chunk writes; the host passes the turn. -/
def placeWord (s : State) (nbits w : Nat) : State :=
  match tableWordFormat nbits w with
  | .cmd => { s with host := .regWrite offCmd 4 (BitVec.ofNat 32 w) :: s.host }
  | .chunk =>
    let s1 := placeBytes s.inPos.toNat (leBytes 5 (w % 2 ^ nbits)) s
    { s1 with
      busy := true
      done := false
      err := 0#4
      op := 3#4
      lat := { s1.lat with opl := 3#4, w := 62#16, h := 1#16, len := s1.inPos + 5#32, n := 62#32 }
      work := { s1.work with qoi := { s1.work.qoi with pixn := 0#32 } }
      inRaced := false
      host := .pass :: s1.host }

end Sys2Proof.Machine
end

