-- ==== Sys2Proof/Machine/Step.lean ====
section
/-! DEFINITION. The step of the machine and the placing of an instruction where the next step fetches it. -/

namespace Sys2Proof.Machine

/-- One step: one access of the host, or one item of the operation in progress (40_commands.md R144). -/
def step (s : State) : Host.Outcome State Fault Refusal := takeTurn s

/-- The state with a row's word of spec/opcode_table.json placed so that the very next step runs it. -/
def State.withFetchWord (s : State) (nbits w : Nat) : State := placeWord s nbits w

end Sys2Proof.Machine
end

