-- ==== Sys2Proof/Functions.lean ====
section
/-! DEFINITION. The operations as functions of their configuration and input bytes (00_scope.md R12): the BMP file (41_bmp.md
R162), the LZW stream (42_lzw.md R197), the QOI stream and its decoding (43_qoi_compress.md R236, 44_qoi_decompress.md
R264). The machine does not use them; the statements compare it with them. -/

namespace Sys2Proof.Functions

open Sys2Proof.Machine

/-! ## BMP -/

/-- `row(y)` and its padding (R162). -/
def bmpRow (v : BmpVersion) (w : Nat) (px : Nat → Pixel) (y : Nat) : List Byte :=
  (List.range w).flatMap (fun x => bmpPixel v (px (y * w + x))) ++ List.replicate (bmpPadding v w) 0#8

/-- The rows `y = h - 1, …, 0` (R112, R162). -/
def bmpRows (v : BmpVersion) (w : Nat) (px : Nat → Pixel) : Nat → List Byte
  | 0 => []
  | h + 1 => bmpRow v w px h ++ bmpRows v w px h

/-- `bmp(version, W, H, pixels)` (R162); `px i` is pixel number `i` of the buffer. -/
def bmpFile (c : Config) (v : BmpVersion) (w h : Nat) (px : Nat → Pixel) : List Byte :=
  bmpFileHeader v w h ++ bmpInfoHeader v c w h ++ bmpRows v w px h

/-! ## LZW -/

/-- The data codes for the symbols still to come and the end code, each with its width (R184 to R188, R195). -/
def lzwCodesFrom (limit : Nat) (cb : BitVec 4) : LzwRegs → List Byte → List (Nat × Nat)
  | l, [] =>
    (if l.prevv then [(l.prev.toNat, l.csize.toNat)] else []) ++ [(lzwEnd cb, l.csize.toNat)]
  | l, x :: xs =>
    if l.prevv then
      match tabLookup l.tab l.prev x with
      | some code => lzwCodesFrom limit cb { l with prev := code } xs
      | none =>
        (l.prev.toNat, l.csize.toNat)
          :: lzwCodesFrom limit cb { lzwInsert limit l.prev x l with prev := x.setWidth 12 } xs
    else lzwCodesFrom limit cb { l with prev := x.setWidth 12, prevv := true } xs

/-- `codes(CB, syms)`: the pairs (code, width) of an operation in order (R106, R197). -/
def lzwCodes (limit : Nat) (cb : BitVec 4) (syms : List Byte) : List (Nat × Nat) :=
  (lzwClear cb, cb.toNat + 1) :: lzwCodesFrom limit cb (lzwStartRegs cb default) syms

/-- The bits of a code, least significant first (R107). -/
def codeBits (c w : Nat) : List Bool := (List.range w).map (fun j => c.testBit j)

/-- The bit string of a code sequence (R107). -/
def codesBits (cs : List (Nat × Nat)) : List Bool := cs.flatMap (fun p => codeBits p.1 p.2)

/-- The number with the given bits, bit 0 first. -/
def bitsValue : List Bool → Nat
  | [] => 0
  | b :: bs => b.toNat + 2 * bitsValue bs

/-- A bit string cut into bytes, bit number `8m` in bit 0 of byte `m`; the unused bits of the last byte are 0 (R107). -/
def packBits : List Bool → List Byte
  | [] => []
  | b0 :: b1 :: b2 :: b3 :: b4 :: b5 :: b6 :: b7 :: bs =>
    BitVec.ofNat 8 (bitsValue [b0, b1, b2, b3, b4, b5, b6, b7]) :: packBits bs
  | bs => [BitVec.ofNat 8 (bitsValue bs)]

/-- `frame(bs)` with the first `fuel` sub-blocks: pieces of 255 bytes, each after its length (R105, R197). -/
def frameUpTo : Nat → List Byte → List Byte
  | 0, _ => []
  | _ + 1, [] => []
  | fuel + 1, bs =>
    BitVec.ofNat 8 (bs.take Config.lzwBlockMax).length :: bs.take Config.lzwBlockMax
      ++ frameUpTo fuel (bs.drop Config.lzwBlockMax)

/-- `frame(bs)` (R197). A sequence has no more pieces than bytes. -/
def frame (bs : List Byte) : List Byte := frameUpTo bs.length bs

/-- `lzw(CB, syms)` (R197). -/
def lzwStream (limit : Nat) (cb : BitVec 4) (syms : List Byte) : List Byte :=
  cb.setWidth 8 :: frame (packBits (codesBits (lzwCodes limit cb syms)))

/-! ## QOI -/

/-- The state both QOI operations start from (R221, R251). -/
def startPixel : Pixel := ⟨0#8, 0#8, 0#8, 255#8⟩

/-- The cache both QOI operations start from (R221, R251). -/
def startCache : Vector Pixel 64 := Vector.replicate 64 ⟨0#8, 0#8, 0#8, 0#8⟩

/-- The chunk of a pending run (R226, R232). -/
def runBytes (run : Nat) : List Byte := if 0 < run then encode (.run run) else []

/-- The bytes for the pixels still to come and the end padding (R223, R232). -/
def qoiBytesFrom (den : Bool) : Pixel → Vector Pixel 64 → Nat → List Pixel → List Byte
  | _, _, run, [] => runBytes run ++ qoiEndPadding
  | prev, cache, run, p :: ps =>
    if p = prev then
      if run + 1 = Config.qoiRunMax then encode (.run (run + 1)) ++ qoiBytesFrom den prev cache 0 ps
      else qoiBytesFrom den prev cache (run + 1) ps
    else
      runBytes run ++ encode (chooseChunk den prev (cacheRead cache (qhash p)) p)
        ++ qoiBytesFrom den p (cacheWrite cache (qhash p) p) 0 ps

/-- `qoiCompress(DEN, pixels)` (R236). -/
def qoiCompress (den : Bool) (ps : List Pixel) : List Byte := qoiBytesFrom den startPixel startCache 0 ps

/-- What decoding comes to (R264). -/
inductive DecodeResult where
  | ok (pixels : List Pixel) (consumed : Nat)
  | decodeError (position : Nat)
deriving DecidableEq, Repr

/-- The pixels written before, put in front of a result. -/
def DecodeResult.after (ps : List Pixel) : DecodeResult → DecodeResult
  | .ok qs consumed => .ok (ps ++ qs) consumed
  | .decodeError position => .decodeError position

/-- The pixel a chunk other than `RUN` denotes (R254 to R258). -/
def chunkPixel (prev : Pixel) (cache : Vector Pixel 64) : Instr → Pixel
  | .rgb r g b => ⟨r, g, b, prev.a⟩
  | .rgba r g b a => ⟨r, g, b, a⟩
  | .index idx => cacheRead cache idx
  | .diff dr dg db => movedPixel prev dr dg db
  | .luma dg drDg dbDg => movedPixel prev (dg + drDg) dg (dg + dbDg)
  | .run _ => prev
  | .nop => prev
  | .lzwCompress => prev
  | .qoiCompress => prev
  | .qoiDecompress => prev
  | .bmpEncode24 => prev
  | .bmpEncode32 => prev
  | .ack => prev
  | .abort => prev
  | .reservedCmd _ => prev

/-- The decoding of the pixels still to come, `n` of them, from the bytes `bs` at address `pos` (R252, R262). Every chunk
writes a pixel, so `fuel = n` chunks are enough. -/
def qoiPixelsFrom : Nat → Nat → Pixel → Vector Pixel 64 → Nat → List Byte → DecodeResult
  | 0, _, _, _, pos, _ => .ok [] pos
  | fuel + 1, n, prev, cache, pos, bs =>
    if n = 0 then .ok [] pos
    else
      match decodeChunk bs with
      | .error _ => .decodeError (pos + bs.length)
      | .ok (.run k, rest) =>
        if n < k then .decodeError pos
        else DecodeResult.after (List.replicate k prev)
          (qoiPixelsFrom fuel (n - k) prev cache (pos + (bs.length - rest.length)) rest)
      | .ok (i, rest) =>
        let p := chunkPixel prev cache i
        DecodeResult.after [p]
          (qoiPixelsFrom fuel (n - 1) p (cacheWrite cache (qhash p) p) (pos + (bs.length - rest.length)) rest)

/-- `qoiDecompress(N, bytes)` (R264). -/
def qoiDecompress (n : Nat) (bs : List Byte) : DecodeResult := qoiPixelsFrom n n startPixel startCache 0 bs

end Sys2Proof.Functions
end

