-- ==== Sys2Proof/Safety.lean ====
section
/-! DEFINITION. What the statements speak of: the valid states of the block (`State.Inv`), the state after a pixel or a run is
written, and runs of the machine. -/

namespace Sys2Proof.Machine

/-! ## Runs -/

/-- Within `bound` steps the machine comes from `s` to `t`. -/
def Reaches (bound : Nat) (s t : State) : Prop := ∃ k, k ≤ bound ∧ Host.Core.run Sys2Proof.core k s = .next t

/-- OUT holds exactly the bytes `bs` from address 0 on, as far as the host can read it (R31, R143). -/
def State.holdsOutput (s : State) (bs : List Byte) : Prop :=
  s.outLen.toNat = bs.length ∧ s.outFree = false ∧ ∀ i, i < bs.length → s.outMem.read i = bs[i]?

/-- The bytes of IN from address 0 on. -/
def inBytes (s : State) (n : Nat) : List Byte := (List.range n).map (inByte s)

/-- The pixel stream in IN (20_memory.md R63). -/
def inPixels (s : State) (n : Nat) : List Pixel := (List.range n).map (fun i => inPixel s (4 * i))

/-! ## Results -/

/-- The state after `writeOne(p)` with room in OUT (R260). -/
def State.wrotePixel (s : State) (p : Pixel) : State :=
  (s.appended (pixelBytesOf p)).setQoi
    { s.work.qoi with
      pixn := s.work.qoi.pixn + 1#32
      cache := cacheWrite s.work.qoi.cache (qhash p) p
      prevpx := p }

/-- The state after a `RUN n` with room in OUT and in the picture (R259). -/
def State.wroteRun (s : State) (n : Nat) : State :=
  (s.appended (repeatPixel n s.work.qoi.prevpx)).setQoi
    { s.work.qoi with pixn := s.work.qoi.pixn + BitVec.ofNat 32 n }

/-- The state an accepted start command leaves before the unit's own registers are set (R131). -/
def startedState (opc : BitVec 4) (s : State) : State :=
  { s with
    busy := true
    done := false
    err := 0#4
    allt := false
    faultInfo := 0#32
    op := opc
    lat :=
      { opl := opc
        w := s.dim.extractLsb' 0 16
        h := s.dim.extractLsb' 16 16
        cb := s.colorBits
        den := s.deltaEn
        len := s.inLen
        n := BitVec.ofNat 32 ((s.dim.extractLsb' 0 16).toNat * (s.dim.extractLsb' 16 16).toNat) }
    inPos := 0#32
    outLen := 0#32
    outMem := []
    outFree := false
    inRaced := false }

/-- `4 * W * H` of the register `DIM`, without truncation (R132). -/
def dimBytes (s : State) : Nat := 4 * (s.dim.extractLsb' 0 16).toNat * (s.dim.extractLsb' 16 16).toNat

/-- The bits the packer holds: those of `ACC` not yet output, oldest first (R35). -/
def pendingBits (s : State) : List Bool := Functions.codeBits s.work.lzw.acc.toNat s.work.lzw.nbits.toNat

/-- The packed bytes staged in `BLK` (R37). -/
def stagedBytes (s : State) : List Byte := s.work.lzw.blk.toList.take s.work.lzw.blkn.toNat

/-- The little-endian value of `n` bytes of a file from an offset. -/
def fieldAt (bs : List Byte) (off n : Nat) : Nat :=
  match n with
  | 0 => 0
  | n + 1 => (bs.getD off 0#8).toNat + 256 * fieldAt bs (off + 1) n

/-! ## The valid states -/

/-- The two memories are in canonical form and inside their spaces; where the output is not unspecified, every byte below
`OUT_LEN` is known and no other is listed (R60, R62). -/
structure MemoryOk (s : State) : Prop where
  inWf : s.inMem.wf
  outWf : s.outMem.wf
  inBound : ∀ c ∈ s.inMem, c.1 < s.cfg.inSize
  outBound : ∀ c ∈ s.outMem, c.1 < s.outLen.toNat
  outKnown : s.outFree = false → ∀ a, a < s.outLen.toNat → (s.outMem.read a).isSome
  outFits : s.outLen.toNat ≤ s.cfg.outCap.toNat

/-- The status rules of R25, R31, R32, R280, R287: at most one of busy, done, faulted; `ERR` at most 5; `FAULT_INFO` 0
without a fault; `OUT_LEN` 0 after one. -/
structure StatusOk (s : State) : Prop where
  busyNotDone : s.busy = true → s.done = false
  busyNoErr : s.busy = true → s.err = 0#4
  doneNoErr : s.done = true → s.err = 0#4
  errRange : s.err.toNat ≤ 5
  infoClear : s.err = 0#4 → s.faultInfo = 0#32
  faultNoOutput : s.err ≠ 0#4 → s.outLen = 0#32
  racedBusy : s.inRaced = true → s.busy = true

/-- The LZW invariants of R44, with the accumulator clear above `NBITS` (R195) and the start state while nothing is written
(R181). -/
structure LzwOk (s : State) : Prop where
  cbRange : 1 ≤ s.lat.cb.toNat ∧ s.lat.cb.toNat ≤ 8
  nextRange : lzwEnd s.lat.cb + 1 ≤ s.work.lzw.next.toNat ∧ s.work.lzw.next.toNat ≤ s.cfg.lzwLimit
  widthRange : s.lat.cb.toNat + 1 ≤ s.work.lzw.csize.toNat ∧ s.work.lzw.csize.toNat ≤ 12
  nextFits : s.work.lzw.next.toNat ≤ 2 ^ s.work.lzw.csize.toNat
  tabRange : ∀ e ∈ s.work.lzw.tab, lzwEnd s.lat.cb + 1 ≤ e.val.toNat ∧ e.val.toNat < s.work.lzw.next.toNat
  tabInjective : s.work.lzw.tab.Pairwise (fun e f => e.val ≠ f.val)
  tabKeys : s.work.lzw.tab.Pairwise (fun e f => ¬ (e.code = f.code ∧ e.sym = f.sym))
  prevRange : s.work.lzw.prevv = true →
    s.work.lzw.prev.toNat < s.work.lzw.next.toNat ∧ s.work.lzw.prev.toNat ≠ lzwClear s.lat.cb ∧
      s.work.lzw.prev.toNat ≠ lzwEnd s.lat.cb
  bitsRange : s.work.lzw.nbits.toNat ≤ 7
  accClear : s.work.lzw.acc.toNat < 2 ^ s.work.lzw.nbits.toNat
  blockRange : s.work.lzw.blkn.toNat ≤ 254

/-- `CACHE[qhash(PREVPX)] = PREVPX`, or no non-run pixel has been processed yet (R45). -/
def CacheOk (q : QoiRegs) : Prop :=
  cacheRead q.cache (qhash q.prevpx) = q.prevpx ∨
    (q.prevpx = Functions.startPixel ∧ q.cache = Functions.startCache)

/-- The invariants of a running `QOI_COMPRESS`: the cursor, and R45. A host write to the input during the operation
voids the clause about the pixels consumed (R316 a). -/
structure CompressOk (s : State) : Prop where
  cursor : s.inPos.toNat = 4 * s.work.qoi.pixn.toNat
  pixels : s.work.qoi.pixn.toNat ≤ s.lat.n.toNat
  runRange : s.work.qoi.run.toNat ≤ 61 ∧ s.work.qoi.run.toNat ≤ s.work.qoi.pixn.toNat
  runPixels : s.inRaced = false → ∀ k, k < s.work.qoi.run.toNat →
    inPixel s (4 * (s.work.qoi.pixn.toNat - 1 - k)) = s.work.qoi.prevpx
  cache : CacheOk s.work.qoi

/-- The invariants of a running `QOI_DECOMPRESS`: four bytes of output a pixel (R250), and R45. -/
structure DecompressOk (s : State) : Prop where
  fits : 4 * s.lat.n.toNat ≤ s.cfg.outCap.toNat
  pixels : s.work.qoi.pixn.toNat ≤ s.lat.n.toNat
  output : s.outLen.toNat = 4 * s.work.qoi.pixn.toNat
  cache : CacheOk s.work.qoi

/-- The output written so far by a BMP operation at row `ROW`, column `COL` (R157). -/
def bmpProgress (s : State) : Nat :=
  bmpDataOffset (bmpVersion s.lat.opl)
    + (s.lat.h.toNat - 1 - s.work.bmp.row.toNat)
      * (bmpPixelBytes (bmpVersion s.lat.opl) * s.lat.w.toNat + s.work.bmp.padn.toNat)
    + s.work.bmp.col.toNat * bmpPixelBytes (bmpVersion s.lat.opl)

/-- The invariants of a running BMP operation (R40, R157); `COL` may be `W`, the model's end-of-row mark (log entry 31), and
`ROW` at the start is `H - 1` also where the spec leaves it open (log entry 32). -/
structure BmpOk (s : State) : Prop where
  padding : s.work.bmp.padn.toNat = bmpPadding (bmpVersion s.lat.opl) s.lat.w.toNat
  column : s.work.bmp.col.toNat ≤ s.lat.w.toNat
  row : s.lat.h ≠ 0#16 → s.work.bmp.row.toNat < s.lat.h.toNat
  started : s.outLen = 0#32 → s.work.bmp.row = s.lat.h - 1#16 ∧ s.work.bmp.col = 0#16
  progress : s.outLen ≠ 0#32 → s.lat.h ≠ 0#16 ∧ s.outLen.toNat = bmpProgress s

/-- What holds while an operation is in progress. -/
structure OperationOk (s : State) : Prop where
  opcode : s.lat.opl = s.op ∧ 1 ≤ s.op.toNat ∧ s.op.toNat ≤ 5
  count : s.lat.n.toNat = s.lat.w.toNat * s.lat.h.toNat
  input : s.lat.len.toNat ≤ s.cfg.inSize
  cursor : s.inPos.toNat ≤ s.lat.len.toNat
  pixelInput : s.lat.opl = 2#4 ∨ s.lat.opl = 4#4 ∨ s.lat.opl = 5#4 → 4 * s.lat.n.toNat = s.lat.len.toNat
  lzw : s.lat.opl = 1#4 → LzwOk s
  compress : s.lat.opl = 2#4 → CompressOk s
  decompress : s.lat.opl = 3#4 → DecompressOk s
  bmp : s.lat.opl = 4#4 ∨ s.lat.opl = 5#4 → BmpOk s

/-- The valid states: every state the block can come to, on a platform with admissible parameters. -/
structure State.Inv (s : State) : Prop where
  config : s.cfg.wf
  memory : MemoryOk s
  status : StatusOk s
  operation : s.busy = true → OperationOk s

end Sys2Proof.Machine
end

