-- ==== Sys2Proof/Certificates/Slice0/Obligations.lean ====
section
/-! DEFINITION. The statements for the provers. Each names the rules of spec/ it formalises. -/

open Sys2Proof Sys2Proof.Machine

/-! ## Encodings -/

/-- Decoding an encoded well-formed instruction, of either format, gives it back with every operand, and leaves the bytes
after it (R91 to R100, R103). -/
def Obligations.DecodeOfEncodeIsIdentity : Prop :=
  ∀ (i : Instr) (rest : List Byte), i.WellFormed → decode i.format (encode i ++ rest) = .ok (i, rest)

/-- What the decoder accepts is the encoding of a well-formed instruction of that format: each byte sequence has one
meaning (R93, R101, R102). -/
def Obligations.EncodeOfDecodeIsIdentity : Prop :=
  ∀ (f : Format) (bs rest : List Byte) (i : Instr), decode f bs = .ok (i, rest) →
    i.WellFormed ∧ i.format = f ∧ encode i ++ rest = bs

/-- The eight opcodes of R92 and two reserved words. -/
def Obligations.CommandWordsDecode : Prop :=
  decodeCmd 0x00000000#32 = .nop ∧ decodeCmd 0x00000001#32 = .lzwCompress ∧
  decodeCmd 0x00000002#32 = .qoiCompress ∧ decodeCmd 0x00000003#32 = .qoiDecompress ∧
  decodeCmd 0x00000004#32 = .bmpEncode24 ∧ decodeCmd 0x00000005#32 = .bmpEncode32 ∧
  decodeCmd 0x00000006#32 = .ack ∧ decodeCmd 0x00000007#32 = .abort ∧
  decodeCmd 0x00000009#32 = .reservedCmd 0x00000009#32 ∧ decodeCmd 0x00000011#32 = .reservedCmd 0x00000011#32

/-- One chunk of each kind, its bytes written from the formats of R95 to R100. -/
def Obligations.ChunkBytesDecode : Prop :=
  decodeChunk [0x09#8] = .ok (.index 9#6, []) ∧ decodeChunk [0x4E#8] = .ok (.diff (-2) 1 0, []) ∧
  decodeChunk [0xBD#8, 0x8A#8] = .ok (.luma 29 0 2, []) ∧ decodeChunk [0xFD#8] = .ok (.run 62, []) ∧
  decodeChunk [0xFE#8, 0x0A#8, 0x14#8, 0x1E#8] = .ok (.rgb 10#8 20#8 30#8, []) ∧
  decodeChunk [0xFF#8, 0x0A#8, 0x14#8, 0x1E#8, 0x00#8] = .ok (.rgba 10#8 20#8 30#8 0#8, [])

/-- Every tag byte, followed by as many bytes as its length asks for, is a chunk; the kind is the one of R102 for the byte's
range, and the length the one of R94's table. -/
def Obligations.EveryTagByteStartsAChunk : Prop :=
  ∀ (t : Byte) (payload : List Byte), payload.length = payloadLength t →
    ∃ i, decodeChunk (t :: payload) = .ok (i, []) ∧
      (t.toNat ≤ 0x3F → payload.length = 0 ∧ ∃ idx, i = .index idx) ∧
      (0x40 ≤ t.toNat → t.toNat ≤ 0x7F → payload.length = 0 ∧ ∃ dr dg db, i = .diff dr dg db) ∧
      (0x80 ≤ t.toNat → t.toNat ≤ 0xBF → payload.length = 1 ∧ ∃ dg drDg dbDg, i = .luma dg drDg dbDg) ∧
      (0xC0 ≤ t.toNat → t.toNat ≤ 0xFD → payload.length = 0 ∧ ∃ n, i = .run n) ∧
      (t.toNat = 0xFE → payload.length = 3 ∧ ∃ r g b, i = .rgb r g b) ∧
      (t.toNat = 0xFF → payload.length = 4 ∧ ∃ r g b a, i = .rgba r g b a)

/-- A reserved value written to `CMD` raises `CmdError` while `BUSY = 0` and is ignored while `BUSY = 1`; a value is reserved
exactly when it decodes to no other command (R93). -/
def Obligations.ReservedWordsRaiseOrAreIgnored : Prop :=
  ∀ (v : Word), (isReservedCmd v ↔ decodeCmd v = .reservedCmd v) ∧
    (isReservedCmd v → ∀ (s : State) (rest : List HostAct), s.host = .regWrite offCmd 4 v :: rest →
      (s.busy = false → step s = .next (raise ⟨.cmdError, v⟩ { s with host := rest })) ∧
      (s.busy = true → step s = .next { s with host := rest }))

/-! ## The step

Whose turn it is stands in the list `host` of the state (log entry 7): a step runs the host's next access, and with `host = []`
the engine's turn. -/

/-- A step at which the host writes `CMD` runs the decoded command, on the state without that access (R23). -/
def Obligations.StepRunsWrittenCommand : Prop :=
  ∀ (s : State) (v : Word) (rest : List HostAct), s.host = .regWrite offCmd 4 v :: rest →
    step s = exec (decodeCmd v) { s with host := rest }

/-- A step of a running decompressor runs the chunk at the cursor: the cursor moves past the chunk's `k` bytes, the chunk is
executed, and the operation is complete once `N` pixels are written (R252, R253, R262), in the same step (log entry 18). -/
def Obligations.StepRunsFetchedChunk : Prop :=
  ∀ (s : State) (i : Instr) (k : Nat), s.host = [] → s.busy = true → s.inRaced = false → s.lat.opl = 3#4 →
    s.work.qoi.pixn.toNat < s.lat.n.toNat → s.inPos.toNat + k ≤ s.lat.len.toNat →
    decode .chunk ((List.range k).map (fun j => inByte s (s.inPos.toNat + j))) = .ok (i, []) →
    step s =
      match exec i { s with inPos := s.inPos + BitVec.ofNat 32 k } with
      | .next t =>
        .next (if t.busy = true ∧ t.lat.n.toNat ≤ t.work.qoi.pixn.toNat then { t with busy := false, done := true } else t)
      | .fault r => .fault r
      | .refused r => .refused r

/-! ## Commands that start nothing -/

/-- `NOP` is the value 0 and changes nothing, in every state (R133). -/
def Obligations.NopChangesNothing : Prop :=
  decodeCmd 0#32 = .nop ∧ ∀ s : State, exec .nop s = .next s

/-- `ACK` in done or faulted clears `DONE`, `ERR`, `FAULT_INFO` and nothing else, and lowers `irq`; in idle it has no effect;
in busy it is ignored (R139). -/
def Obligations.AckLeavesDoneOrFaulted : Prop :=
  decodeCmd 6#32 = .ack ∧ ∀ s : State,
    (s.busy = false → s.done = true ∨ s.err ≠ 0#4 →
      exec .ack s = .next { s with done := false, err := 0#4, faultInfo := 0#32 } ∧
        State.irq { s with done := false, err := 0#4, faultInfo := 0#32 } = false) ∧
    (s.busy = false → s.done = false → s.err = 0#4 → exec .ack s = .next s) ∧
    (s.busy = true → exec .ack s = .next s)

/-- `ABORT` in every state: `STATUS` 0 but for `OP`, `FAULT_INFO`, `IN_POS`, `OUT_LEN` 0, `irq` low; the configuration
registers and IN keep their values, OUT is unspecified, and the engine takes no further step (R140). That the latches keep
their values is DEDUCED, log entry 19. -/
def Obligations.AbortReturnsToIdle : Prop :=
  decodeCmd 7#32 = .abort ∧ ∀ s : State, ∃ t, exec .abort s = .next t ∧
    t.statusWord = 0#20 ++ s.op ++ 0#8 ∧ t.faultInfo = 0#32 ∧ t.inPos = 0#32 ∧ t.outLen = 0#32 ∧ t.irq = false ∧
    t.ie = s.ie ∧ t.dim = s.dim ∧ t.colorBits = s.colorBits ∧ t.deltaEn = s.deltaEn ∧ t.inLen = s.inLen ∧
    t.inMem = s.inMem ∧ t.outFree = true ∧ t.lat = s.lat ∧ t.cfg = s.cfg ∧ t.host = s.host ∧ engineTurn t = .next t

/-- A reserved command while not busy: `DONE` 0, `ERR` 1, `FAULT_INFO` the written value, `OUT_LEN` 0, no operation begins
(R141); the configuration registers, `OP` and IN keep their values (R288). -/
def Obligations.ReservedCommandRaisesCmdError : Prop :=
  ∀ (s : State) (v : Word), s.busy = false → ∃ t, exec (.reservedCmd v) s = .next t ∧
    t.done = false ∧ t.err = 1#4 ∧ t.faultInfo = v ∧ t.outLen = 0#32 ∧ t.busy = false ∧
    t.op = s.op ∧ t.ie = s.ie ∧ t.dim = s.dim ∧ t.colorBits = s.colorBits ∧ t.deltaEn = s.deltaEn ∧
    t.inLen = s.inLen ∧ t.inMem = s.inMem

/-- Every command but `ABORT` is ignored while `BUSY = 1` (R142). -/
def Obligations.BusyIgnoresCommands : Prop :=
  ∀ (i : Instr) (s : State), i.format = .cmd → i ≠ .abort → s.busy = true → exec i s = .next s

/-! ## Commands that start an operation -/

/-- `LZW_COMPRESS`, not busy and with its checks of R132 holding, starts: the configuration latched, the cursors 0, the LZW
registers as R181 says, every other register as before. That `PREV` and `BLK`, unspecified then, keep what they held is a
DESIGN CHOICE, log entry 30. -/
def Obligations.LzwCompressStarts : Prop :=
  ∀ s : State, s.busy = false → 1 ≤ s.colorBits.toNat → s.colorBits.toNat ≤ 8 → s.inLen.toNat ≤ s.cfg.inSize →
    exec .lzwCompress s = .next
      { startedState 1#4 s with
        work := { s.work with
          lzw := { s.work.lzw with
            prevv := false
            next := BitVec.ofNat 13 (2 ^ s.colorBits.toNat + 2)
            csize := s.colorBits + 1#4
            acc := 0#19
            nbits := 0#5
            blkn := 0#8
            tab := [] } } }

/-- `QOI_COMPRESS` and `QOI_DECOMPRESS`, not busy and with their checks of R132 holding, start: the QOI registers as R221,
R251 say, every other register as before. That the decompressor's unused `RUN` keeps what it held is a DESIGN CHOICE, log
entry 30. -/
def Obligations.QoiCommandsStart : Prop :=
  ∀ s : State, s.busy = false → s.inLen.toNat ≤ s.cfg.inSize →
    (dimBytes s = s.inLen.toNat →
      exec .qoiCompress s = .next
        { startedState 2#4 s with
          work := { s.work with
            qoi :=
              { prevpx := ⟨0#8, 0#8, 0#8, 255#8⟩
                run := 0#6
                pixn := 0#32
                cache := Vector.replicate 64 ⟨0#8, 0#8, 0#8, 0#8⟩ } } }) ∧
    (dimBytes s ≤ s.cfg.outCap.toNat →
      exec .qoiDecompress s = .next
        { startedState 3#4 s with
          work := { s.work with
            qoi :=
              { prevpx := ⟨0#8, 0#8, 0#8, 255#8⟩
                run := s.work.qoi.run
                pixn := 0#32
                cache := Vector.replicate 64 ⟨0#8, 0#8, 0#8, 0#8⟩ } } })

/-- `BMP_ENCODE24` and `BMP_ENCODE32`, not busy and with their checks of R132 holding, start: `PADN`, `ROW`, `COL` as R312
says, every other register as before. That `ROW` wraps to 0xFFFF with `H = 0`, and that `ROW` and `COL` are set with `W = 0`,
where the spec leaves them unspecified, is a DESIGN CHOICE, log entry 32. -/
def Obligations.BmpCommandsStart : Prop :=
  ∀ s : State, s.busy = false → s.inLen.toNat ≤ s.cfg.inSize → dimBytes s = s.inLen.toNat →
    exec .bmpEncode24 s = .next
      { startedState 4#4 s with
        work := { s.work with
          bmp :=
            { row := s.dim.extractLsb' 16 16 - 1#16
              col := 0#16
              padn := BitVec.ofNat 2 ((s.dim.extractLsb' 0 16).toNat % 4) } } } ∧
    exec .bmpEncode32 s = .next
      { startedState 5#4 s with
        work := { s.work with bmp := { row := s.dim.extractLsb' 16 16 - 1#16, col := 0#16, padn := 0#2 } } }

/-- A start command whose configuration fails raises `CfgError` with the sub-code of the first failing check, in the order of
R283; `OP` already holds the opcode, `BUSY` is not set, and OUT has nothing. -/
def Obligations.FirstFailingCheckRaisesCfgError : Prop :=
  ∀ s : State, s.busy = false →
    let fails := fun (i : Instr) (opc : BitVec 4) (code : Word) =>
      ∃ t, exec i s = .next t ∧ t.err = 2#4 ∧ t.faultInfo = code ∧ t.op = opc ∧ t.busy = false ∧ t.done = false ∧
        t.outLen = 0#32 ∧ t.outMem = [] ∧ t.inMem = s.inMem ∧ t.dim = s.dim ∧ t.colorBits = s.colorBits ∧
        t.deltaEn = s.deltaEn ∧ t.inLen = s.inLen ∧ t.ie = s.ie
    (¬ (1 ≤ s.colorBits.toNat ∧ s.colorBits.toNat ≤ 8) → fails .lzwCompress 1#4 1#32) ∧
    (1 ≤ s.colorBits.toNat → s.colorBits.toNat ≤ 8 → s.cfg.inSize < s.inLen.toNat → fails .lzwCompress 1#4 3#32) ∧
    (dimBytes s ≠ s.inLen.toNat →
      fails .qoiCompress 2#4 2#32 ∧ fails .bmpEncode24 4#4 2#32 ∧ fails .bmpEncode32 5#4 2#32) ∧
    (dimBytes s = s.inLen.toNat → s.cfg.inSize < s.inLen.toNat →
      fails .qoiCompress 2#4 3#32 ∧ fails .bmpEncode24 4#4 3#32 ∧ fails .bmpEncode32 5#4 3#32) ∧
    (s.cfg.inSize < s.inLen.toNat → fails .qoiDecompress 3#4 3#32) ∧
    (s.inLen.toNat ≤ s.cfg.inSize → s.cfg.outCap.toNat < dimBytes s → fails .qoiDecompress 3#4 4#32)

/-- A command takes effect at the write: after a start command written while not busy, `STATUS` shows busy, done or a fault
(R318). -/
def Obligations.StartTakesEffectAtTheWrite : Prop :=
  ∀ (i : Instr) (s : State), i = .lzwCompress ∨ i = .qoiCompress ∨ i = .qoiDecompress ∨ i = .bmpEncode24 ∨ i = .bmpEncode32 →
    s.busy = false →
    ∃ t, exec i s = .next t ∧ (t.busy = true ∨ t.done = true ∨ t.err ≠ 0#4) ∧ t.done = false ∧ t.outLen = 0#32

/-! ## Faults, interrupt, reset -/

/-- Fault entry (R288): `BUSY`, `DONE` 0, the code and the recorded value, `OUT_LEN` 0; the engine takes no further step;
`irq` is high exactly when `IE` is set; `OP`, the configuration registers and IN keep their values. That the latches keep
theirs is DEDUCED, log entry 19. -/
def Obligations.FaultEntryStopsTheEngine : Prop :=
  ∀ (f : Raised) (s : State),
    (raise f s).busy = false ∧ (raise f s).done = false ∧ (raise f s).faultInfo = f.info ∧ (raise f s).outLen = 0#32 ∧
    (f.kind = .cmdError → (raise f s).err = 1#4) ∧ (f.kind = .cfgError → (raise f s).err = 2#4) ∧
    (f.kind = .symbolError → (raise f s).err = 3#4) ∧ (f.kind = .decodeError → (raise f s).err = 4#4) ∧
    (f.kind = .outFull → (raise f s).err = 5#4) ∧
    engineTurn (raise f s) = .next (raise f s) ∧ (raise f s).irq = s.ie ∧
    (raise f s).op = s.op ∧ (raise f s).ie = s.ie ∧ (raise f s).dim = s.dim ∧ (raise f s).colorBits = s.colorBits ∧
    (raise f s).deltaEn = s.deltaEn ∧ (raise f s).inLen = s.inLen ∧ (raise f s).inMem = s.inMem ∧
    (raise f s).lat = s.lat

/-- The interrupt line is `IE and (DONE or ERR != 0)`: low in every valid busy state; a completion or a fault raises it
exactly when `IE` is set; setting `IE` in the done or faulted state raises it at the write, and clearing `IE`, `ACK`,
`ABORT`, an accepted start command and reset lower it (R291). -/
def Obligations.IrqFollowsOutcomeAndEnable : Prop :=
  (∀ s : State, s.irq = true ↔ s.ie = true ∧ (s.done = true ∨ s.err ≠ 0#4)) ∧
  (∀ s : State, s.Inv → s.busy = true → s.irq = false) ∧
  (∀ s : State, s.Inv → s.busy = true → s.complete.irq = s.ie) ∧
  (∀ (f : Raised) (s : State), (raise f s).irq = s.ie) ∧
  (∀ (s : State) (v : Word), s.done = true ∨ s.err ≠ 0#4 → (s.storeReg offCtrl v).irq = v.getLsbD 0) ∧
  (∀ (s : State) (v : Word), v.getLsbD 0 = false → (s.storeReg offCtrl v).irq = false) ∧
  (∀ s : State, ∃ t, exec .abort s = .next t ∧ t.irq = false) ∧
  (∀ s : State, s.busy = false → s.done = true ∨ s.err ≠ 0#4 → ∃ t, exec .ack s = .next t ∧ t.irq = false) ∧
  (∀ (i : Instr) (s t : State),
    i = .lzwCompress ∨ i = .qoiCompress ∨ i = .qoiDecompress ∨ i = .bmpEncode24 ∨ i = .bmpEncode32 →
    s.busy = false → exec i s = .next t → t.busy = true → t.irq = false) ∧
  (∀ s : State, (hardwareReset s).irq = false)

/-- What the host reads after reset: every register at its reset value, `QOICFG` 1 and the rest 0; `irq` low (R22, R43,
R310). With no access of the host to come (log entry 7) a step changes nothing: the engine does nothing until a command. -/
def Obligations.ResetRegisterValues : Prop :=
  State.reset.regValue offCmd = 0#32 ∧ State.reset.regValue offStatus = 0#32 ∧ State.reset.regValue offCtrl = 0#32 ∧
  State.reset.regValue offDim = 0#32 ∧ State.reset.regValue offLzwCfg = 0#32 ∧ State.reset.regValue offQoiCfg = 1#32 ∧
  State.reset.regValue offInLen = 0#32 ∧ State.reset.regValue offInPos = 0#32 ∧ State.reset.regValue offOutLen = 0#32 ∧
  State.reset.regValue offFaultInfo = 0#32 ∧ State.reset.irq = false ∧ step State.reset = .next State.reset

/-- The reset line, at any moment: the operation is abandoned, every host-visible register takes its reset value, `irq` is
low (R310). The reset value of `QOICFG` is the platform's parameter; that parameters and the host's accesses to come stay is
the model's choice, log entry 22. -/
def Obligations.HardwareResetClearsRegisters : Prop :=
  ∀ (s : State) (rest : List HostAct), s.host = .hwReset :: rest → ∃ t, step s = .next t ∧
    t.busy = false ∧ (∀ off, off ≠ offQoiCfg → t.regValue off = 0#32) ∧
    t.regValue offQoiCfg = 0#31 ++ BitVec.ofBool s.cfg.deltaEnReset ∧
    t.irq = false ∧ t.cfg = s.cfg ∧ t.host = rest ∧ engineTurn t = .next t

/-- The state after reset is valid. It holds the model's choices of log entries 1 and 2 where the spec gives no value. -/
def Obligations.ResetStateIsValid : Prop := State.reset.Inv

/-! ## Writing OUT -/

/-- `emit`: `OutFull` recording `OUT_LEN` when OUT is full; otherwise the byte stands at the old `OUT_LEN`, every other byte of
OUT reads as before, `OUT_LEN` is one more, and nothing else changes (R66). -/
def Obligations.EmitAppendsOneByteOrRaises : Prop :=
  ∀ (v : Byte) (s : State),
    (s.cfg.outCap.toNat ≤ s.outLen.toNat → emit v s = .error ⟨.outFull, s.outLen⟩) ∧
    (s.outLen.toNat < s.cfg.outCap.toNat →
      ∃ t, emit v s = .ok t ∧ t.outLen.toNat = s.outLen.toNat + 1 ∧ t.outMem.read s.outLen.toNat = some v ∧
        (∀ a, a ≠ s.outLen.toNat → t.outMem.read a = s.outMem.read a) ∧
        t = { s with outMem := t.outMem, outLen := t.outLen })

/-! ## Chunks -/

/-- `RGB` and `RGBA` write their literal pixel, `RGB` with the alpha of `PREVPX` (R257, R258). -/
def Obligations.RgbAndRgbaWriteTheirPixel : Prop :=
  ∀ (s : State) (r g b a : Byte), s.outLen.toNat + 4 ≤ s.cfg.outCap.toNat →
    exec (.rgb r g b) s = .next (s.wrotePixel ⟨r, g, b, s.work.qoi.prevpx.a⟩) ∧
    exec (.rgba r g b a) s = .next (s.wrotePixel ⟨r, g, b, a⟩)

/-- `INDEX` writes the pixel of its cache slot, all four channels (R254). -/
def Obligations.IndexWritesTheCachedPixel : Prop :=
  ∀ (s : State) (idx : BitVec 6), s.outLen.toNat + 4 ≤ s.cfg.outCap.toNat →
    exec (.index idx) s = .next (s.wrotePixel (s.work.qoi.cache.get ⟨idx.toNat, idx.isLt⟩))

/-- `DIFF` moves the three colour channels of `PREVPX` modulo 256 and keeps alpha (R255, R261). -/
def Obligations.DiffMovesPixelModulo256 : Prop :=
  ∀ (s : State) (dr dg db : Int), s.outLen.toNat + 4 ≤ s.cfg.outCap.toNat →
    ∃ p : Pixel, exec (.diff dr dg db) s = .next (s.wrotePixel p) ∧
      (p.r.toNat : Int) = (s.work.qoi.prevpx.r.toNat + dr) % 256 ∧
      (p.g.toNat : Int) = (s.work.qoi.prevpx.g.toNat + dg) % 256 ∧
      (p.b.toNat : Int) = (s.work.qoi.prevpx.b.toNat + db) % 256 ∧ p.a = s.work.qoi.prevpx.a

/-- `LUMA` moves green by `dg`, red by `dg + dr_dg`, blue by `dg + db_dg`, modulo 256, and keeps alpha (R256, R261). -/
def Obligations.LumaMovesPixelModulo256 : Prop :=
  ∀ (s : State) (dg drDg dbDg : Int), s.outLen.toNat + 4 ≤ s.cfg.outCap.toNat →
    ∃ p : Pixel, exec (.luma dg drDg dbDg) s = .next (s.wrotePixel p) ∧
      (p.r.toNat : Int) = (s.work.qoi.prevpx.r.toNat + (dg + drDg)) % 256 ∧
      (p.g.toNat : Int) = (s.work.qoi.prevpx.g.toNat + dg) % 256 ∧
      (p.b.toNat : Int) = (s.work.qoi.prevpx.b.toNat + (dg + dbDg)) % 256 ∧ p.a = s.work.qoi.prevpx.a

/-- `RUN` writes `PREVPX` `n` times, moves `PIXN` by `n` and leaves the cache, `PREVPX` and everything else; a run that asks
for more pixels than remain raises `DecodeError` at the tag's address and writes nothing (R259). -/
def Obligations.RunRepeatsPreviousPixel : Prop :=
  ∀ (s : State) (n : Nat),
    (s.work.qoi.pixn.toNat + n ≤ s.lat.n.toNat → s.outLen.toNat + 4 * n ≤ s.cfg.outCap.toNat →
      exec (.run n) s = .next (s.wroteRun n) ∧
        (s.wroteRun n).outLen.toNat = s.outLen.toNat + 4 * n ∧
        (s.wroteRun n).work.qoi.pixn.toNat = s.work.qoi.pixn.toNat + n ∧
        (s.wroteRun n).work.qoi.cache = s.work.qoi.cache ∧ (s.wroteRun n).work.qoi.prevpx = s.work.qoi.prevpx ∧
        (∀ k, k < n →
          (s.wroteRun n).outMem.read (s.outLen.toNat + 4 * k) = some s.work.qoi.prevpx.r ∧
          (s.wroteRun n).outMem.read (s.outLen.toNat + 4 * k + 1) = some s.work.qoi.prevpx.g ∧
          (s.wroteRun n).outMem.read (s.outLen.toNat + 4 * k + 2) = some s.work.qoi.prevpx.b ∧
          (s.wroteRun n).outMem.read (s.outLen.toNat + 4 * k + 3) = some s.work.qoi.prevpx.a) ∧
        (∀ a, a < s.outLen.toNat ∨ s.outLen.toNat + 4 * n ≤ a → (s.wroteRun n).outMem.read a = s.outMem.read a)) ∧
    (s.lat.n.toNat < s.work.qoi.pixn.toNat + n →
      exec (.run n) s = .next (raise ⟨.decodeError, s.inPos - 1#32⟩ s))

/-- With room for it `writeOne` writes the pixel, and this is what it leaves (R260, R262): the pixel's four bytes at `OUT_LEN`, every other byte of OUT as before, `OUT_LEN` and
`PIXN` moved, the slot `qhash` and `PREVPX` updated, every other slot and all other state as before. -/
def Obligations.WrotePixelUpdatesOutputAndCache : Prop :=
  ∀ (s : State) (p : Pixel), s.outLen.toNat + 4 ≤ s.cfg.outCap.toNat →
    let t := s.wrotePixel p
    writeOne p s = .ok t ∧ t.outLen.toNat = s.outLen.toNat + 4 ∧
    t.outMem.read s.outLen.toNat = some p.r ∧ t.outMem.read (s.outLen.toNat + 1) = some p.g ∧
    t.outMem.read (s.outLen.toNat + 2) = some p.b ∧ t.outMem.read (s.outLen.toNat + 3) = some p.a ∧
    (∀ a, a < s.outLen.toNat ∨ s.outLen.toNat + 4 ≤ a → t.outMem.read a = s.outMem.read a) ∧
    t.work.qoi.pixn = s.work.qoi.pixn + 1#32 ∧ t.work.qoi.prevpx = p ∧ t.work.qoi.run = s.work.qoi.run ∧
    (∀ i : Fin 64,
      t.work.qoi.cache.get i =
        if i.val = (p.r.toNat * 3 + p.g.toNat * 5 + p.b.toNat * 7 + p.a.toNat * 11) % 64 then p
        else s.work.qoi.cache.get i) ∧
    t = { s with outMem := t.outMem, outLen := t.outLen, work := { s.work with qoi := t.work.qoi } }

/-- A chunk whose pixels do not fit raises `OutFull`, recording `OUT_CAP` (R66, R286). -/
def Obligations.ChunkWithoutRoomRaisesOutFull : Prop :=
  ∀ (s : State) (i : Instr), i.format = .chunk → s.outLen.toNat ≤ s.cfg.outCap.toNat →
    (∀ n, i = .run n → s.work.qoi.pixn.toNat + n ≤ s.lat.n.toNat ∧ s.cfg.outCap.toNat < s.outLen.toNat + 4 * n) →
    ((∀ n, i ≠ .run n) → s.cfg.outCap.toNat < s.outLen.toNat + 4) →
    exec i s = .next (raise ⟨.outFull, s.cfg.outCap⟩ s)

/-- A chunk with a missing byte, tag or payload, raises `DecodeError` recording `LEN`, and nothing of it is executed (R253,
R285 a). -/
def Obligations.TruncatedChunkRaisesDecodeError : Prop :=
  ∀ s : State, s.host = [] → s.busy = true → s.inRaced = false → s.lat.opl = 3#4 →
    s.work.qoi.pixn.toNat < s.lat.n.toNat →
    s.inPos = s.lat.len ∨
      (s.inPos.toNat < s.lat.len.toNat ∧
        s.lat.len.toNat < s.inPos.toNat + 1 + payloadLength (inByte s s.inPos.toNat)) →
    step s = .next (raise ⟨.decodeError, s.lat.len⟩ s)

/-! ## The QOI compressor's steps -/

/-- A pixel equal to `PREVPX` only lengthens the run, unless the run reaches 62: then the byte `0xFD` is written and the run
is 0 again; the cache and `PREVPX` stay (R224, R225). With `host = []` the engine moves (log entry 7). -/
def Obligations.EqualPixelExtendsRun : Prop :=
  ∀ s : State, s.host = [] → s.busy = true → s.inRaced = false → s.lat.opl = 2#4 →
    s.work.qoi.pixn.toNat < s.lat.n.toNat → inPixel s s.inPos.toNat = s.work.qoi.prevpx →
    let t : State :=
      { s with
        inPos := s.inPos + 4#32
        work := { s.work with
          qoi := { s.work.qoi with pixn := s.work.qoi.pixn + 1#32, run := s.work.qoi.run + 1#6 } } }
    (s.work.qoi.run.toNat < 61 → step s = .next t) ∧
    (s.work.qoi.run.toNat = 61 → s.outLen.toNat < s.cfg.outCap.toNat →
      step s = .next
        { t with
          outMem := s.outMem.write s.outLen.toNat 0xFD#8
          outLen := s.outLen + 1#32
          work := { t.work with qoi := { t.work.qoi with run := 0#6 } } })

/-- A pixel that differs from `PREVPX`: the pending run of 1 to 61 first, as the byte `0xC0 + (run - 1)`, then the pixel's
chunk; the slot `qhash` and `PREVPX` become the pixel (R226, R233). Without room the step raises `OutFull`. -/
def Obligations.DifferentPixelIsCoded : Prop :=
  ∀ s : State, s.host = [] → s.busy = true → s.inRaced = false → s.lat.opl = 2#4 →
    s.work.qoi.pixn.toNat < s.lat.n.toNat → inPixel s s.inPos.toNat ≠ s.work.qoi.prevpx →
    s.work.qoi.run.toNat ≤ 61 → s.outLen.toNat ≤ s.cfg.outCap.toNat →
    let p := inPixel s s.inPos.toNat
    let runBytes : List Byte :=
      if s.work.qoi.run = 0#6 then [] else [BitVec.ofNat 8 (0xC0 + (s.work.qoi.run.toNat - 1))]
    let bytes := runBytes ++ encode (chooseChunk s.lat.den s.work.qoi.prevpx (cacheRead s.work.qoi.cache (qhash p)) p)
    (s.outLen.toNat + bytes.length ≤ s.cfg.outCap.toNat →
      step s = .next
        { s.appended bytes with
          inPos := s.inPos + 4#32
          work := { s.work with
            qoi :=
              { prevpx := p
                run := 0#6
                pixn := s.work.qoi.pixn + 1#32
                cache := cacheWrite s.work.qoi.cache (qhash p) p } } }) ∧
    (s.cfg.outCap.toNat < s.outLen.toNat + bytes.length → step s = .next (raise ⟨.outFull, s.cfg.outCap⟩ s))

/-- The bytes of the chosen chunk, by the first condition that holds, as R223 computes them: `INDEX`, `DIFF`, `LUMA`, `RGB`,
`RGBA` (R222, R227 to R231, R234, R235). The field places of `DIFF` are the spec's own choice from general knowledge (R96,
D22), DEDUCED, log entry 20. -/
def Obligations.ChunkChoiceFollowsPriority : Prop :=
  ∀ (den : Bool) (prev slot p : Pixel),
    let dr : Int := (p.r.toNat : Int) - prev.r.toNat
    let dg : Int := (p.g.toNat : Int) - prev.g.toNat
    let db : Int := (p.b.toNat : Int) - prev.b.toNat
    let diff := den = true ∧ p.a = prev.a ∧ -2 ≤ dr ∧ dr ≤ 1 ∧ -2 ≤ dg ∧ dg ≤ 1 ∧ -2 ≤ db ∧ db ≤ 1
    let luma := den = true ∧ p.a = prev.a ∧ -32 ≤ dg ∧ dg ≤ 31 ∧ -8 ≤ dr - dg ∧ dr - dg ≤ 7 ∧ -8 ≤ db - dg ∧ db - dg ≤ 7
    let bytes := (encode (chooseChunk den prev slot p)).map (fun b => (b.toNat : Int))
    (slot = p →
      bytes = [((p.r.toNat * 3 + p.g.toNat * 5 + p.b.toNat * 7 + p.a.toNat * 11) % 64 : Nat)]) ∧
    (slot ≠ p → diff → bytes = [0x40 + (dr + 2) * 16 + (dg + 2) * 4 + (db + 2)]) ∧
    (slot ≠ p → ¬ diff → luma → bytes = [0x80 + (dg + 32), (dr - dg + 8) * 16 + (db - dg + 8)]) ∧
    (slot ≠ p → ¬ diff → ¬ luma → p.a = prev.a → bytes = [0xFE, p.r.toNat, p.g.toNat, p.b.toNat]) ∧
    (slot ≠ p → p.a ≠ prev.a → bytes = [0xFF, p.r.toNat, p.g.toNat, p.b.toNat, p.a.toNat])

/-- The end step: the pending run, the eight padding bytes, completion (R232). -/
def Obligations.CompressEndStepWritesPadding : Prop :=
  ∀ s : State, s.host = [] → s.busy = true → s.inRaced = false → s.lat.opl = 2#4 →
    s.lat.n.toNat ≤ s.work.qoi.pixn.toNat → s.work.qoi.run.toNat ≤ 61 →
    let runBytes : List Byte :=
      if s.work.qoi.run = 0#6 then [] else [BitVec.ofNat 8 (0xC0 + (s.work.qoi.run.toNat - 1))]
    let bytes := runBytes ++ [0#8, 0#8, 0#8, 0#8, 0#8, 0#8, 0#8, 1#8]
    s.outLen.toNat + bytes.length ≤ s.cfg.outCap.toNat →
      step s = .next
        { s.appended bytes with
          busy := false
          done := true
          work := { s.work with qoi := { s.work.qoi with run := 0#6 } } }

/-! ## The LZW steps -/

/-- A symbol not below `CLEAR` raises `SymbolError` with the symbol's IN address (R185, R284). -/
def Obligations.LzwSymbolOutOfRangeFaults : Prop :=
  ∀ s : State, s.host = [] → s.busy = true → s.inRaced = false → s.lat.opl = 1#4 → s.outLen ≠ 0#32 →
    s.inPos.toNat < s.lat.len.toNat → 2 ^ s.lat.cb.toNat ≤ (inByte s s.inPos.toNat).toNat →
    step s = .next (raise ⟨.symbolError, s.inPos⟩ s)

/-- The first symbol starts a match, and a pair of the table extends it: nothing is emitted, the table and the width stay
(R186, R187). With `host = []` the engine moves (log entry 7). -/
def Obligations.LzwMatchGrowsSilently : Prop :=
  ∀ s : State, s.host = [] → s.busy = true → s.inRaced = false → s.lat.opl = 1#4 → s.outLen ≠ 0#32 →
    s.inPos.toNat < s.lat.len.toNat → (inByte s s.inPos.toNat).toNat < 2 ^ s.lat.cb.toNat →
    (s.work.lzw.prevv = false →
      step s = .next
        { s with
          inPos := s.inPos + 1#32
          work := { s.work with
            lzw := { s.work.lzw with prev := (inByte s s.inPos.toNat).setWidth 12, prevv := true } } }) ∧
    (s.work.lzw.prevv = true → ∀ e ∈ s.work.lzw.tab, e.code = s.work.lzw.prev → e.sym = inByte s s.inPos.toNat →
      LzwOk s →
      step s = .next
        { s with
          inPos := s.inPos + 1#32
          work := { s.work with lzw := { s.work.lzw with prev := e.val } } })

/-- A pair not in the table: the pending code is emitted at the width in force, then the pair is given the next code value
while the table is not full, the width growing first when that value does not fit, and the match restarts at the symbol
(R188 to R191). The growth test is the spec's own reading (R190, D20), DEDUCED, log entry 20; the ceiling is the parameter
`LZW_TABLE_LIMIT` (R191, D13), DESIGN CHOICE, log entry 25. With `host = []` the engine moves (log entry 7). -/
def Obligations.LzwMissEmitsThenInserts : Prop :=
  ∀ (s u : State), s.host = [] → s.busy = true → s.inRaced = false → s.lat.opl = 1#4 → s.outLen ≠ 0#32 →
    s.inPos.toNat < s.lat.len.toNat → (inByte s s.inPos.toNat).toNat < 2 ^ s.lat.cb.toNat →
    s.work.lzw.prevv = true →
    (∀ e ∈ s.work.lzw.tab, ¬ (e.code = s.work.lzw.prev ∧ e.sym = inByte s s.inPos.toNat)) →
    emitCode s.work.lzw.prev { s with inPos := s.inPos + 1#32 } = .ok u →
    ∃ l : LzwRegs, step s = .next { u with work := { u.work with lzw := l } } ∧
      l.prev = (inByte s s.inPos.toNat).setWidth 12 ∧ l.prevv = true ∧
      l.acc = u.work.lzw.acc ∧ l.nbits = u.work.lzw.nbits ∧ l.blk = u.work.lzw.blk ∧ l.blkn = u.work.lzw.blkn ∧
      (s.work.lzw.next.toNat < s.cfg.lzwLimit →
        l.next = s.work.lzw.next + 1#13 ∧
        l.tab = ⟨s.work.lzw.prev, inByte s s.inPos.toNat, s.work.lzw.next.setWidth 12⟩ :: s.work.lzw.tab ∧
        (2 ^ s.work.lzw.csize.toNat - 1 < s.work.lzw.next.toNat → l.csize = s.work.lzw.csize + 1#4) ∧
        (s.work.lzw.next.toNat ≤ 2 ^ s.work.lzw.csize.toNat - 1 → l.csize = s.work.lzw.csize)) ∧
      (s.cfg.lzwLimit ≤ s.work.lzw.next.toNat →
        l.next = s.work.lzw.next ∧ l.tab = s.work.lzw.tab ∧ l.csize = s.work.lzw.csize)

/-- `emitCode` appends the code's bits, least significant first, after the pending ones; whole bytes go to the staging
buffer, which becomes a sub-block of OUT exactly when it holds 255 bytes (R192 to R194). Only OUT, `OUT_LEN`, `ACC`,
`NBITS`, `BLK`, `BLKN` change. -/
def Obligations.EmitCodePacksBitsInOrder : Prop :=
  ∀ (c : BitVec 12) (s : State), LzwOk s → s.outLen.toNat + 256 ≤ s.cfg.outCap.toNat →
    c.toNat < 2 ^ s.work.lzw.csize.toNat →
    ∃ (t : State) (bs : List Byte), emitCode c s = .ok t ∧
      pendingBits s ++ Functions.codeBits c.toNat s.work.lzw.csize.toNat
        = Functions.codesBits (bs.map (fun b => (b.toNat, 8))) ++ pendingBits t ∧
      t.work.lzw.nbits.toNat ≤ 7 ∧
      (s.work.lzw.blkn.toNat + bs.length < 255 →
        stagedBytes t = stagedBytes s ++ bs ∧ t.outMem = s.outMem ∧ t.outLen = s.outLen) ∧
      (255 ≤ s.work.lzw.blkn.toNat + bs.length →
        stagedBytes t = (stagedBytes s ++ bs).drop 255 ∧
        t.outMem = (s.appended (255#8 :: (stagedBytes s ++ bs).take 255)).outMem ∧
        t.outLen = s.outLen + 256#32) ∧
      t = { s with
            outMem := t.outMem
            outLen := t.outLen
            work := { s.work with
              lzw := { s.work.lzw with
                acc := t.work.lzw.acc
                nbits := t.work.lzw.nbits
                blk := t.work.lzw.blk
                blkn := t.work.lzw.blkn } } }

/-- Properties (a), (b) and (e) of R198: the code sequence starts with `CLEAR` and ends with `ENDC`, neither stands anywhere else, every code fits the
width it is written in, widths lie between `CB + 1` and 12 and never decrease. -/
def Obligations.LzwCodeSequenceIsBracketedAndFitsWidths : Prop :=
  ∀ (limit : Nat) (cb : BitVec 4) (syms : List Byte), limit = 4095 ∨ limit = 4096 → 1 ≤ cb.toNat → cb.toNat ≤ 8 →
    (∀ x ∈ syms, x.toNat < 2 ^ cb.toNat) →
    ∃ data : List (Nat × Nat),
      (Functions.lzwCodes limit cb syms).map Prod.fst
        = 2 ^ cb.toNat :: data.map Prod.fst ++ [2 ^ cb.toNat + 1] ∧
      (∀ d ∈ data, d.1 ≠ 2 ^ cb.toNat ∧ d.1 ≠ 2 ^ cb.toNat + 1) ∧
      (∀ p ∈ Functions.lzwCodes limit cb syms, p.1 < 2 ^ p.2 ∧ cb.toNat + 1 ≤ p.2 ∧ p.2 ≤ 12) ∧
      ((Functions.lzwCodes limit cb syms).map Prod.snd).Pairwise (· ≤ ·)

/-! ## The BMP file -/

/-- The header fields at the offsets of R109, R110, R111, and the sizes of R152. The layout of the info headers and the sign of
the height are the spec's own choice from general knowledge (D27, D29), DEDUCED, log entry 20. -/
def Obligations.BmpHeaderFieldsAtTheirOffsets : Prop :=
  ∀ (c : Config) (v : BmpVersion) (w h : Nat), w < 2 ^ 16 → h < 2 ^ 16 →
    let f := bmpFileHeader v w h ++ bmpInfoHeader v c w h
    let bitmap := match v with | .bmp24 => (3 * w + w % 4) * h | .bmp32 => 4 * w * h
    let offset := match v with | .bmp24 => 54 | .bmp32 => 122
    f.length = offset ∧ fieldAt f 0 1 = 0x42 ∧ fieldAt f 1 1 = 0x4D ∧
    fieldAt f 2 4 = (offset + bitmap) % 2 ^ 32 ∧ fieldAt f 6 4 = 0 ∧ fieldAt f 10 4 = offset ∧
    fieldAt f 14 4 = offset - 14 ∧ fieldAt f 18 4 = w ∧ fieldAt f 22 4 = h ∧ fieldAt f 26 2 = 1 ∧
    fieldAt f 28 2 = (match v with | .bmp24 => 24 | .bmp32 => 32) ∧
    fieldAt f 30 4 = (match v with | .bmp24 => 0 | .bmp32 => 3) ∧
    fieldAt f 34 4 = bitmap % 2 ^ 32 ∧ fieldAt f 38 4 = c.bmpXppm.toNat ∧ fieldAt f 42 4 = c.bmpYppm.toNat ∧
    fieldAt f 46 4 = 0 ∧ fieldAt f 50 4 = 0 ∧
    (v = .bmp32 →
      fieldAt f 54 4 = 0x000000FF ∧ fieldAt f 58 4 = 0x0000FF00 ∧ fieldAt f 62 4 = 0x00FF0000 ∧
      fieldAt f 66 4 = 0xFF000000 ∧ fieldAt f 70 4 = c.bmpCstype.toNat ∧
      ∀ off, 74 ≤ off → off < 122 → fieldAt f off 1 = 0)

/-- The length of the file is `fileSize`, and a BMP24 row with its padding is a multiple of 4 bytes (R151, R152). -/
def Obligations.BmpFileHasItsStatedSize : Prop :=
  ∀ (c : Config) (v : BmpVersion) (w h : Nat) (px : Nat → Pixel),
    (Functions.bmpFile c v w h px).length = bmpFileSize v w h ∧
    ∀ y, (Functions.bmpRow v w px y).length % 4 = 0

/-- The steps after the headers: inside a row the pixel at `(COL, ROW)` is written in the version's order, `ALLT` keeps 1 only
for alpha 0 and `COL` moves; at the end of a row the padding zeros are written and the row above follows, or after row 0 the
operation completes with `IN_POS = LEN` (R157 to R160), in the same step (log entry 18). That `COL` reaches `W` as the mark of a row's end is a DESIGN CHOICE, log
entry 31. -/
def Obligations.BmpStepsFollowRowOrder : Prop :=
  ∀ s : State, s.host = [] → s.busy = true → s.inRaced = false → s.lat.opl = 4#4 ∨ s.lat.opl = 5#4 → s.outLen ≠ 0#32 →
    let p := inPixel s ((s.work.bmp.row.toNat * s.lat.w.toNat + s.work.bmp.col.toNat) * 4)
    let pixel : List Byte := if s.lat.opl = 4#4 then [p.b, p.g, p.r] else [p.r, p.g, p.b, p.a]
    let padding : List Byte := List.replicate s.work.bmp.padn.toNat 0#8
    (s.work.bmp.col.toNat < s.lat.w.toNat → s.outLen.toNat + pixel.length ≤ s.cfg.outCap.toNat →
      step s = .next
        { s.appended pixel with
          allt := s.allt && p.a == 0#8
          work := { s.work with bmp := { s.work.bmp with col := s.work.bmp.col + 1#16 } } }) ∧
    (s.lat.w.toNat ≤ s.work.bmp.col.toNat → s.outLen.toNat + padding.length ≤ s.cfg.outCap.toNat →
      (s.work.bmp.row ≠ 0#16 →
        step s = .next
          { s.appended padding with
            work := { s.work with bmp := { s.work.bmp with row := s.work.bmp.row - 1#16, col := 0#16 } } }) ∧
      (s.work.bmp.row = 0#16 →
        step s = .next { s.appended padding with inPos := s.lat.len, busy := false, done := true }))

/-! ## Whole operations -/

/-- A started BMP operation left to itself: when the file fits, it completes with OUT the file of R162, `IN_POS = LEN`, and
`ALLT` 1 exactly when every pixel has alpha 0 (R161); when it does not fit, it ends in `OutFull`. The bound counts the
model's steps (log entries 18, 26). -/
def Obligations.BmpOperationWritesTheFile : Prop :=
  ∀ (i : Instr) (v : BmpVersion) (s t : State), i = .bmpEncode24 ∧ v = .bmp24 ∨ i = .bmpEncode32 ∧ v = .bmp32 →
    s.Inv → s.busy = false → s.host = [] → dimBytes s = s.inLen.toNat → s.inLen.toNat ≤ s.cfg.inSize →
    exec i s = .next t →
    let w := (s.dim.extractLsb' 0 16).toNat
    let h := (s.dim.extractLsb' 16 16).toNat
    let file := Functions.bmpFile s.cfg v w h (fun k => inPixel s (4 * k))
    file.length = bmpFileSize v w h ∧
    ∃ u, Reaches (1 + w * h + h) t u ∧ u.busy = false ∧
      (file.length ≤ s.cfg.outCap.toNat →
        u.done = true ∧ u.err = 0#4 ∧ u.holdsOutput file ∧ u.inPos = s.inLen ∧
        (u.allt = true ↔ ∀ k, k < w * h → (inPixel s (4 * k)).a = 0#8)) ∧
      (s.cfg.outCap.toNat < file.length → u.done = false ∧ u.err = 5#4 ∧ u.faultInfo = s.cfg.outCap ∧ u.outLen = 0#32)

/-- A started `QOI_COMPRESS` left to itself: when the stream of R236 fits, it completes with OUT that stream and
`IN_POS = LEN`; when it does not fit, it ends in `OutFull`. -/
def Obligations.QoiCompressWritesTheStream : Prop :=
  ∀ s t : State, s.Inv → s.busy = false → s.host = [] → dimBytes s = s.inLen.toNat → s.inLen.toNat ≤ s.cfg.inSize →
    exec .qoiCompress s = .next t →
    let n := (s.dim.extractLsb' 0 16).toNat * (s.dim.extractLsb' 16 16).toNat
    let stream := Functions.qoiCompress s.deltaEn (inPixels s n)
    ∃ u, Reaches (n + 1) t u ∧ u.busy = false ∧
      (stream.length ≤ s.cfg.outCap.toNat →
        u.done = true ∧ u.err = 0#4 ∧ u.holdsOutput stream ∧ u.inPos = s.inLen) ∧
      (s.cfg.outCap.toNat < stream.length → u.done = false ∧ u.err = 5#4 ∧ u.faultInfo = s.cfg.outCap ∧ u.outLen = 0#32)

/-- A started `QOI_DECOMPRESS` left to itself comes to what R264's function says: the pixels in OUT and the cursor after the
last chunk, or `DecodeError` with the function's position. -/
def Obligations.QoiDecompressComputesItsFunction : Prop :=
  ∀ s t : State, s.Inv → s.busy = false → s.host = [] → s.inLen.toNat ≤ s.cfg.inSize →
    dimBytes s ≤ s.cfg.outCap.toNat → exec .qoiDecompress s = .next t →
    let n := (s.dim.extractLsb' 0 16).toNat * (s.dim.extractLsb' 16 16).toNat
    ∃ u, Reaches (n + 1) t u ∧ u.busy = false ∧
      (∀ ps consumed, Functions.qoiDecompress n (inBytes s s.inLen.toNat) = .ok ps consumed →
        u.done = true ∧ u.err = 0#4 ∧ u.holdsOutput (ps.flatMap pixelBytesOf) ∧ u.inPos.toNat = consumed) ∧
      (∀ position, Functions.qoiDecompress n (inBytes s s.inLen.toNat) = .decodeError position →
        u.done = false ∧ u.err = 4#4 ∧ u.faultInfo.toNat = position ∧ u.outLen = 0#32)

/-- The round trip (R238, R264): decompressing what was compressed, for either value of `DEN`, gives the pixels back and stops
8 bytes before the end of the stream. A decoding that succeeds gives as many pixels as were asked for and consumes no more
than the stream. -/
def Obligations.QoiRoundTripRestoresPixels : Prop :=
  (∀ (den : Bool) (ps : List Pixel),
    Functions.qoiDecompress ps.length (Functions.qoiCompress den ps)
      = .ok ps ((Functions.qoiCompress den ps).length - 8)) ∧
  ∀ (n : Nat) (bs : List Byte) (ps : List Pixel) (consumed : Nat),
    Functions.qoiDecompress n bs = .ok ps consumed → ps.length = n ∧ consumed ≤ bs.length

/-- A started `LZW_COMPRESS` of symbols below `CLEAR`, left to itself: when the stream of R197 fits, it completes with OUT that
stream and `IN_POS = LEN`; when it does not fit, it ends in `OutFull`. -/
def Obligations.LzwCompressWritesTheStream : Prop :=
  ∀ s t : State, s.Inv → s.busy = false → s.host = [] → 1 ≤ s.colorBits.toNat → s.colorBits.toNat ≤ 8 →
    s.inLen.toNat ≤ s.cfg.inSize → (∀ a, a < s.inLen.toNat → (inByte s a).toNat < 2 ^ s.colorBits.toNat) →
    exec .lzwCompress s = .next t →
    let stream := Functions.lzwStream s.cfg.lzwLimit s.colorBits (inBytes s s.inLen.toNat)
    ∃ u, Reaches (s.inLen.toNat + 2) t u ∧ u.busy = false ∧
      (stream.length ≤ s.cfg.outCap.toNat →
        u.done = true ∧ u.err = 0#4 ∧ u.holdsOutput stream ∧ u.inPos = s.inLen) ∧
      (s.cfg.outCap.toNat < stream.length → u.done = false ∧ u.err = 5#4 ∧ u.faultInfo = s.cfg.outCap ∧ u.outLen = 0#32)

/-! ## The whole machine -/

/-- Every step from a valid state, whoever moves, leads to a valid state: memories canonical and in bounds, one of idle, busy,
done, faulted, `ERR` at most 5, and the unit's invariants (R25, R44, R45, R62, R280, R287). That a write to a read-only
register is ignored is DEDUCED, log entry 10. -/
def Obligations.EveryStepKeepsValidity : Prop :=
  ∀ s t : State, s.Inv → step s = .next t → t.Inv

/-- A busy block in a valid state, left to itself, is done or faulted after finitely many steps (R145, R320). -/
def Obligations.EveryOperationEnds : Prop :=
  ∀ s : State, s.Inv → s.busy = true → s.host = [] →
    ∃ t, Reaches (s.lat.len.toNat + s.lat.n.toNat + s.lat.h.toNat + 3) s t ∧ t.busy = false ∧
      (t.done = true ∨ t.err ≠ 0#4)

/-- The engine's turn with another IN that agrees below `LEN` does the same: bytes of IN at or above the latched length are
never read (R61). -/
def Obligations.InputBeyondLengthIsNeverRead : Prop :=
  ∀ (s : State) (m : Memory), s.Inv → s.busy = true → (∀ a, a < s.lat.len.toNat → m.read a = s.inMem.read a) →
    engineTurn { s with inMem := m } =
      match engineTurn s with
      | .next t => .next { t with inMem := m }
      | .fault r => .fault r
      | .refused r => .refused r

/-- The engine's turn while busy does not depend on `DIM`, `LZWCFG`, `QOICFG`, `IN_LEN` or `CTRL`, and leaves them: the
operation uses its latches (R33, R316 d). -/
def Obligations.ConfigWritesDoNotDisturbOperation : Prop :=
  ∀ (s : State) (dim inLen : Word) (colorBits : BitVec 4) (deltaEn ie : Bool), s.busy = true →
    engineTurn { s with dim := dim, inLen := inLen, colorBits := colorBits, deltaEn := deltaEn, ie := ie } =
      match engineTurn s with
      | .next t => .next { t with dim := dim, inLen := inLen, colorBits := colorBits, deltaEn := deltaEn, ie := ie }
      | .fault r => .fault r
      | .refused r => .refused r

/-- The engine never writes IN, and never changes a configuration register or the latches (R60, R33); for the latches after a
fault log entry 19. -/
def Obligations.EngineNeverWritesInput : Prop :=
  ∀ s t : State, engineTurn s = .next t →
    t.inMem = s.inMem ∧ t.lat = s.lat ∧ t.op = s.op ∧ t.dim = s.dim ∧ t.colorBits = s.colorBits ∧
    t.deltaEn = s.deltaEn ∧ t.inLen = s.inLen ∧ t.ie = s.ie ∧ t.cfg = s.cfg ∧ t.host = s.host

/-- OUT is appended to only: a step of the operation that raises no fault leaves every byte below `OUT_LEN` as it was (R62). -/
def Obligations.OutputIsAppendOnly : Prop :=
  ∀ s t : State, s.Inv → s.busy = true → s.inRaced = false → engineTurn s = .next t → t.err = 0#4 →
    s.outLen.toNat ≤ t.outLen.toNat ∧ ∀ a, a < s.outLen.toNat → t.outMem.read a = s.outMem.read a

/-- A host write to IN during an operation, below `LEN`, leaves a result that is contained: the next engine step ends the
operation, in done or in a fault the operation can raise, with `OUT_LEN` within the capacity and IN as the host left it
(R316 a). That it ends at the next engine step is a DESIGN CHOICE, log entry 12. -/
def Obligations.RacingInputWriteIsContained : Prop :=
  ∀ s : State, s.Inv → s.busy = true → s.inRaced = true →
    ∃ t, engineTurn s = .next t ∧ t.busy = false ∧ t.inMem = s.inMem ∧ t.outLen.toNat ≤ s.cfg.outCap.toNat ∧
      (t.done = true ∧ t.err = 0#4 ∧ t.inPos.toNat ≤ s.lat.len.toNat ∨
        t.done = false ∧
          (t.err = 3#4 ∧ s.op = 1#4 ∧ s.lat.cb.toNat < 8 ∨ t.err = 4#4 ∧ s.op = 3#4 ∨
            t.err = 5#4 ∧ s.op ≠ 3#4 ∧ t.faultInfo = s.cfg.outCap))

/-! ## The host's registers -/

/-- A host write to a register stores the bits R26 to R30 name and nothing else: a read then gives those bits of the value
with the reserved bits 0; the other configuration registers, the flags, the cursors, the latches and the memories keep
their values (R22, R73). A write at the platform address `REG_BASE` plus the offset is the same write (R22). That a write to
a read-only register is ignored is DEDUCED, log entry 10. -/
def Obligations.RegisterWritesStoreNamedBits : Prop :=
  ∀ (s : State) (off : Nat) (v : Word), off ≠ offCmd → off % 4 = 0 → off + 4 ≤ 4096 →
    ∃ t, hostRegWrite off 4 v s = .next t ∧ hostBusWrite (s.cfg.regBase + off) 4 v s = .next t ∧
      (off = offCtrl → t.regValue offCtrl = v &&& 1#32) ∧ (off ≠ offCtrl → t.ie = s.ie) ∧
      (off = offDim → t.regValue offDim = v) ∧ (off ≠ offDim → t.dim = s.dim) ∧
      (off = offLzwCfg → t.regValue offLzwCfg = v &&& 15#32) ∧ (off ≠ offLzwCfg → t.colorBits = s.colorBits) ∧
      (off = offQoiCfg → t.regValue offQoiCfg = v &&& 1#32) ∧ (off ≠ offQoiCfg → t.deltaEn = s.deltaEn) ∧
      (off = offInLen → t.regValue offInLen = v) ∧ (off ≠ offInLen → t.inLen = s.inLen) ∧
      t = { s with ie := t.ie, dim := t.dim, colorBits := t.colorBits, deltaEn := t.deltaEn, inLen := t.inLen }

/-- A host read of a register returns the register's value and has no effect on the block; `STATUS` has its fields at the bits
of R25, and a reserved offset reads as 0 (R22, R73). A read at the platform address `REG_BASE` plus the offset is the same
read (R22). The value is in `rdata` (DESIGN CHOICE, log entry 15). -/
def Obligations.RegisterReadsHaveNoSideEffect : Prop :=
  ∀ (s : State) (off : Nat), off % 4 = 0 → off + 4 ≤ 4096 →
    ∃ t, hostRegRead off 4 s = .next t ∧ t = { s with rdata := t.rdata, freeCnt := s.freeCnt + 1 } ∧
      (off = offCmd ∨ 0x28 ≤ off → t.rdata = 0#32) ∧
      (off = offStatus →
        t.rdata.getLsbD 0 = s.busy ∧ t.rdata.getLsbD 1 = s.done ∧ t.rdata.getLsbD 2 = s.allt ∧ t.rdata.getLsbD 3 = false ∧
        t.rdata.extractLsb' 4 4 = s.err ∧ t.rdata.extractLsb' 8 4 = s.op ∧ t.rdata.extractLsb' 12 20 = 0#20) ∧
      (off = offCtrl → t.rdata = 0#31 ++ BitVec.ofBool s.ie) ∧ (off = offDim → t.rdata = s.dim) ∧
      (off = offLzwCfg → t.rdata = 0#28 ++ s.colorBits) ∧ (off = offQoiCfg → t.rdata = 0#31 ++ BitVec.ofBool s.deltaEn) ∧
      (off = offInLen → t.rdata = s.inLen) ∧
      (off = offFaultInfo → t.rdata = s.faultInfo) ∧
      (s.busy = false → (off = offInPos → t.rdata = s.inPos) ∧ (off = offOutLen → t.rdata = s.outLen)) ∧
      hostBusRead (s.cfg.regBase + off) 4 s = .next t

/-! ## The host's accesses to IN and OUT -/

/-- A host write of a byte to IN stores that byte and no other; nothing else changes but the note that a running operation's
input was touched below `LEN` (log entry 12). At or above `IN_SIZE` there is no such address (R60, R73). -/
def Obligations.HostWriteStoresOneInputByte : Prop :=
  ∀ (s : State) (a : Nat) (v : Byte) (rest : List HostAct), s.host = .inWrite a v :: rest →
    (a < s.cfg.inSize →
      ∃ t, step s = .next t ∧ inByte t a = v ∧ (∀ b, b ≠ a → inByte t b = inByte s b) ∧
        (t.inRaced = true ↔ s.inRaced = true ∨ s.busy = true ∧ a < s.lat.len.toNat) ∧
        t = { s with inMem := t.inMem, inRaced := t.inRaced, host := rest }) ∧
    (s.cfg.inSize ≤ a → step s = .fault .noSuchInAddress)

/-- While the block is not busy the host reads the bytes of the output, unchanged by reading and across `ACK`: the byte in the
low bits of `rdata` (DESIGN CHOICE, log entry 15). At or above `OUT_CAP` there is no such address (R31, R60, R139, R143). -/
def Obligations.HostReadsTheOutput : Prop :=
  ∀ (s : State) (bs : List Byte) (a : Nat) (rest : List HostAct), s.host = .outRead a :: rest → s.busy = false →
    s.holdsOutput bs → bs.length ≤ s.cfg.outCap.toNat →
    (∀ h : a < bs.length,
      ∃ t, step s = .next t ∧ t.rdata = (bs[a]'h).setWidth 32 ∧ t.holdsOutput bs ∧
        t = { s with rdata := t.rdata, freeCnt := s.freeCnt + 1, host := rest } ∧
        ∃ u, exec .ack t = .next u ∧ u.holdsOutput bs) ∧
    (s.cfg.outCap.toNat ≤ a → step s = .fault .noSuchOutAddress)
end

