-- ==== Sys2Proof/Laws/Bus.lean ====
section
/-! SUPPORT. What a host access by platform address can do: with windows that do not overlap (`Config.wf`) it is the access to
the register page, to IN or to OUT at the address minus the base (10_state.md R22, 20_memory.md R74), or refused. -/

namespace Sys2Proof.Machine

theorem hostBusWrite_reg {s : State} {off : Nat} (size : Nat) (v : Word) (h : off < Config.regPage) :
    hostBusWrite (s.cfg.regBase + off) size v s = hostRegWrite off size v s := by
  rw [hostBusWrite, if_pos ⟨by omega, by omega⟩, Nat.add_sub_cancel_left]

theorem hostBusRead_reg {s : State} {off : Nat} (size : Nat) (h : off < Config.regPage) :
    hostBusRead (s.cfg.regBase + off) size s = hostRegRead off size s := by
  rw [hostBusRead, if_pos ⟨by omega, by omega⟩, Nat.add_sub_cancel_left]

theorem hostBusWrite_in {s : State} {a : Nat} (v : Word) (hw : s.cfg.wf) (h : a < s.cfg.inSize) :
    hostBusWrite (s.cfg.inBase + a) 1 v s = hostInWrite a (v.extractLsb' 0 8) s := by
  obtain ⟨-, -, -, hi, -, -⟩ := hw
  rw [hostBusWrite, if_neg (by rintro ⟨h1, h2⟩; rcases hi with hi | hi <;> omega), if_pos ⟨rfl, by omega, by omega⟩,
    Nat.add_sub_cancel_left]

theorem hostBusWrite_out {s : State} {a : Nat} (v : Word) (hw : s.cfg.wf) (h : a < s.cfg.outCap.toNat) :
    hostBusWrite (s.cfg.outBase + a) 1 v s = hostOutWrite a (v.extractLsb' 0 8) s := by
  obtain ⟨-, -, -, -, hr, hi⟩ := hw
  rw [hostBusWrite, if_neg (by rintro ⟨h1, h2⟩; rcases hr with hr | hr <;> omega),
    if_neg (by rintro ⟨-, h1, h2⟩; rcases hi with hi | hi <;> omega), if_pos ⟨rfl, by omega, by omega⟩,
    Nat.add_sub_cancel_left]

theorem hostBusRead_out {s : State} {a : Nat} (hw : s.cfg.wf) (h : a < s.cfg.outCap.toNat) :
    hostBusRead (s.cfg.outBase + a) 1 s = hostOutRead a s := by
  obtain ⟨-, -, -, -, hr, -⟩ := hw
  rw [hostBusRead, if_neg (by rintro ⟨h1, h2⟩; rcases hr with hr | hr <;> omega), if_pos ⟨rfl, by omega, by omega⟩,
    Nat.add_sub_cancel_left]

/-- All that a write by platform address can do. -/
theorem hostBusWrite_cases (addr size : Nat) (v : Word) (s : State) :
    (∃ off, hostBusWrite addr size v s = hostRegWrite off size v s) ∨
      (∃ a w, hostBusWrite addr size v s = hostInWrite a w s) ∨
      (∃ a w, hostBusWrite addr size v s = hostOutWrite a w s) ∨
      hostBusWrite addr size v s = .refused .platformAccess := by
  simp only [hostBusWrite]
  split_ifs
  · exact .inl ⟨_, rfl⟩
  · exact .inr (.inl ⟨_, _, rfl⟩)
  · exact .inr (.inr (.inl ⟨_, _, rfl⟩))
  · exact .inr (.inr (.inr rfl))

/-- All that a read by platform address can do. -/
theorem hostBusRead_cases (addr size : Nat) (s : State) :
    (∃ off, hostBusRead addr size s = hostRegRead off size s) ∨ (∃ a, hostBusRead addr size s = hostOutRead a s) ∨
      hostBusRead addr size s = .refused .platformAccess := by
  simp only [hostBusRead]
  split_ifs
  · exact .inl ⟨_, rfl⟩
  · exact .inr (.inl ⟨_, rfl⟩)
  · exact .inr (.inr rfl)

end Sys2Proof.Machine
end

