-- ==== Sys2Proof/Laws/State.lean ====
section
/-! SUPPORT. One lemma per field of State for each named update of it. -/

namespace Sys2Proof.Machine

@[simp] theorem State.appended_cfg (s : State) (bs : List Byte) : (s.appended bs).cfg = s.cfg := rfl
@[simp] theorem State.appended_busy (s : State) (bs : List Byte) : (s.appended bs).busy = s.busy := rfl
@[simp] theorem State.appended_done (s : State) (bs : List Byte) : (s.appended bs).done = s.done := rfl
@[simp] theorem State.appended_allt (s : State) (bs : List Byte) : (s.appended bs).allt = s.allt := rfl
@[simp] theorem State.appended_err (s : State) (bs : List Byte) : (s.appended bs).err = s.err := rfl
@[simp] theorem State.appended_op (s : State) (bs : List Byte) : (s.appended bs).op = s.op := rfl
@[simp] theorem State.appended_ie (s : State) (bs : List Byte) : (s.appended bs).ie = s.ie := rfl
@[simp] theorem State.appended_dim (s : State) (bs : List Byte) : (s.appended bs).dim = s.dim := rfl
@[simp] theorem State.appended_colorBits (s : State) (bs : List Byte) : (s.appended bs).colorBits = s.colorBits := rfl
@[simp] theorem State.appended_deltaEn (s : State) (bs : List Byte) : (s.appended bs).deltaEn = s.deltaEn := rfl
@[simp] theorem State.appended_inLen (s : State) (bs : List Byte) : (s.appended bs).inLen = s.inLen := rfl
@[simp] theorem State.appended_inPos (s : State) (bs : List Byte) : (s.appended bs).inPos = s.inPos := rfl
@[simp] theorem State.appended_outLen (s : State) (bs : List Byte) : (s.appended bs).outLen = s.outLen + BitVec.ofNat 32 bs.length := rfl
@[simp] theorem State.appended_faultInfo (s : State) (bs : List Byte) : (s.appended bs).faultInfo = s.faultInfo := rfl
@[simp] theorem State.appended_lat (s : State) (bs : List Byte) : (s.appended bs).lat = s.lat := rfl
@[simp] theorem State.appended_work (s : State) (bs : List Byte) : (s.appended bs).work = s.work := rfl
@[simp] theorem State.appended_inMem (s : State) (bs : List Byte) : (s.appended bs).inMem = s.inMem := rfl
@[simp] theorem State.appended_outMem (s : State) (bs : List Byte) : (s.appended bs).outMem = s.outMem.writeAll s.outLen.toNat bs := rfl
@[simp] theorem State.appended_freeCnt (s : State) (bs : List Byte) : (s.appended bs).freeCnt = s.freeCnt := rfl
@[simp] theorem State.appended_inGen (s : State) (bs : List Byte) : (s.appended bs).inGen = s.inGen := rfl
@[simp] theorem State.appended_inRaced (s : State) (bs : List Byte) : (s.appended bs).inRaced = s.inRaced := rfl
@[simp] theorem State.appended_outFree (s : State) (bs : List Byte) : (s.appended bs).outFree = s.outFree := rfl
@[simp] theorem State.appended_rdata (s : State) (bs : List Byte) : (s.appended bs).rdata = s.rdata := rfl
@[simp] theorem State.appended_host (s : State) (bs : List Byte) : (s.appended bs).host = s.host := rfl

@[simp] theorem State.setLzw_cfg (s : State) (r : LzwRegs) : (s.setLzw r).cfg = s.cfg := rfl
@[simp] theorem State.setLzw_busy (s : State) (r : LzwRegs) : (s.setLzw r).busy = s.busy := rfl
@[simp] theorem State.setLzw_done (s : State) (r : LzwRegs) : (s.setLzw r).done = s.done := rfl
@[simp] theorem State.setLzw_allt (s : State) (r : LzwRegs) : (s.setLzw r).allt = s.allt := rfl
@[simp] theorem State.setLzw_err (s : State) (r : LzwRegs) : (s.setLzw r).err = s.err := rfl
@[simp] theorem State.setLzw_op (s : State) (r : LzwRegs) : (s.setLzw r).op = s.op := rfl
@[simp] theorem State.setLzw_ie (s : State) (r : LzwRegs) : (s.setLzw r).ie = s.ie := rfl
@[simp] theorem State.setLzw_dim (s : State) (r : LzwRegs) : (s.setLzw r).dim = s.dim := rfl
@[simp] theorem State.setLzw_colorBits (s : State) (r : LzwRegs) : (s.setLzw r).colorBits = s.colorBits := rfl
@[simp] theorem State.setLzw_deltaEn (s : State) (r : LzwRegs) : (s.setLzw r).deltaEn = s.deltaEn := rfl
@[simp] theorem State.setLzw_inLen (s : State) (r : LzwRegs) : (s.setLzw r).inLen = s.inLen := rfl
@[simp] theorem State.setLzw_inPos (s : State) (r : LzwRegs) : (s.setLzw r).inPos = s.inPos := rfl
@[simp] theorem State.setLzw_outLen (s : State) (r : LzwRegs) : (s.setLzw r).outLen = s.outLen := rfl
@[simp] theorem State.setLzw_faultInfo (s : State) (r : LzwRegs) : (s.setLzw r).faultInfo = s.faultInfo := rfl
@[simp] theorem State.setLzw_lat (s : State) (r : LzwRegs) : (s.setLzw r).lat = s.lat := rfl
@[simp] theorem State.setLzw_work (s : State) (r : LzwRegs) : (s.setLzw r).work = { s.work with lzw := r } := rfl
@[simp] theorem State.setLzw_inMem (s : State) (r : LzwRegs) : (s.setLzw r).inMem = s.inMem := rfl
@[simp] theorem State.setLzw_outMem (s : State) (r : LzwRegs) : (s.setLzw r).outMem = s.outMem := rfl
@[simp] theorem State.setLzw_freeCnt (s : State) (r : LzwRegs) : (s.setLzw r).freeCnt = s.freeCnt := rfl
@[simp] theorem State.setLzw_inGen (s : State) (r : LzwRegs) : (s.setLzw r).inGen = s.inGen := rfl
@[simp] theorem State.setLzw_inRaced (s : State) (r : LzwRegs) : (s.setLzw r).inRaced = s.inRaced := rfl
@[simp] theorem State.setLzw_outFree (s : State) (r : LzwRegs) : (s.setLzw r).outFree = s.outFree := rfl
@[simp] theorem State.setLzw_rdata (s : State) (r : LzwRegs) : (s.setLzw r).rdata = s.rdata := rfl
@[simp] theorem State.setLzw_host (s : State) (r : LzwRegs) : (s.setLzw r).host = s.host := rfl

@[simp] theorem State.setQoi_cfg (s : State) (r : QoiRegs) : (s.setQoi r).cfg = s.cfg := rfl
@[simp] theorem State.setQoi_busy (s : State) (r : QoiRegs) : (s.setQoi r).busy = s.busy := rfl
@[simp] theorem State.setQoi_done (s : State) (r : QoiRegs) : (s.setQoi r).done = s.done := rfl
@[simp] theorem State.setQoi_allt (s : State) (r : QoiRegs) : (s.setQoi r).allt = s.allt := rfl
@[simp] theorem State.setQoi_err (s : State) (r : QoiRegs) : (s.setQoi r).err = s.err := rfl
@[simp] theorem State.setQoi_op (s : State) (r : QoiRegs) : (s.setQoi r).op = s.op := rfl
@[simp] theorem State.setQoi_ie (s : State) (r : QoiRegs) : (s.setQoi r).ie = s.ie := rfl
@[simp] theorem State.setQoi_dim (s : State) (r : QoiRegs) : (s.setQoi r).dim = s.dim := rfl
@[simp] theorem State.setQoi_colorBits (s : State) (r : QoiRegs) : (s.setQoi r).colorBits = s.colorBits := rfl
@[simp] theorem State.setQoi_deltaEn (s : State) (r : QoiRegs) : (s.setQoi r).deltaEn = s.deltaEn := rfl
@[simp] theorem State.setQoi_inLen (s : State) (r : QoiRegs) : (s.setQoi r).inLen = s.inLen := rfl
@[simp] theorem State.setQoi_inPos (s : State) (r : QoiRegs) : (s.setQoi r).inPos = s.inPos := rfl
@[simp] theorem State.setQoi_outLen (s : State) (r : QoiRegs) : (s.setQoi r).outLen = s.outLen := rfl
@[simp] theorem State.setQoi_faultInfo (s : State) (r : QoiRegs) : (s.setQoi r).faultInfo = s.faultInfo := rfl
@[simp] theorem State.setQoi_lat (s : State) (r : QoiRegs) : (s.setQoi r).lat = s.lat := rfl
@[simp] theorem State.setQoi_work (s : State) (r : QoiRegs) : (s.setQoi r).work = { s.work with qoi := r } := rfl
@[simp] theorem State.setQoi_inMem (s : State) (r : QoiRegs) : (s.setQoi r).inMem = s.inMem := rfl
@[simp] theorem State.setQoi_outMem (s : State) (r : QoiRegs) : (s.setQoi r).outMem = s.outMem := rfl
@[simp] theorem State.setQoi_freeCnt (s : State) (r : QoiRegs) : (s.setQoi r).freeCnt = s.freeCnt := rfl
@[simp] theorem State.setQoi_inGen (s : State) (r : QoiRegs) : (s.setQoi r).inGen = s.inGen := rfl
@[simp] theorem State.setQoi_inRaced (s : State) (r : QoiRegs) : (s.setQoi r).inRaced = s.inRaced := rfl
@[simp] theorem State.setQoi_outFree (s : State) (r : QoiRegs) : (s.setQoi r).outFree = s.outFree := rfl
@[simp] theorem State.setQoi_rdata (s : State) (r : QoiRegs) : (s.setQoi r).rdata = s.rdata := rfl
@[simp] theorem State.setQoi_host (s : State) (r : QoiRegs) : (s.setQoi r).host = s.host := rfl

@[simp] theorem State.setBmp_cfg (s : State) (r : BmpRegs) : (s.setBmp r).cfg = s.cfg := rfl
@[simp] theorem State.setBmp_busy (s : State) (r : BmpRegs) : (s.setBmp r).busy = s.busy := rfl
@[simp] theorem State.setBmp_done (s : State) (r : BmpRegs) : (s.setBmp r).done = s.done := rfl
@[simp] theorem State.setBmp_allt (s : State) (r : BmpRegs) : (s.setBmp r).allt = s.allt := rfl
@[simp] theorem State.setBmp_err (s : State) (r : BmpRegs) : (s.setBmp r).err = s.err := rfl
@[simp] theorem State.setBmp_op (s : State) (r : BmpRegs) : (s.setBmp r).op = s.op := rfl
@[simp] theorem State.setBmp_ie (s : State) (r : BmpRegs) : (s.setBmp r).ie = s.ie := rfl
@[simp] theorem State.setBmp_dim (s : State) (r : BmpRegs) : (s.setBmp r).dim = s.dim := rfl
@[simp] theorem State.setBmp_colorBits (s : State) (r : BmpRegs) : (s.setBmp r).colorBits = s.colorBits := rfl
@[simp] theorem State.setBmp_deltaEn (s : State) (r : BmpRegs) : (s.setBmp r).deltaEn = s.deltaEn := rfl
@[simp] theorem State.setBmp_inLen (s : State) (r : BmpRegs) : (s.setBmp r).inLen = s.inLen := rfl
@[simp] theorem State.setBmp_inPos (s : State) (r : BmpRegs) : (s.setBmp r).inPos = s.inPos := rfl
@[simp] theorem State.setBmp_outLen (s : State) (r : BmpRegs) : (s.setBmp r).outLen = s.outLen := rfl
@[simp] theorem State.setBmp_faultInfo (s : State) (r : BmpRegs) : (s.setBmp r).faultInfo = s.faultInfo := rfl
@[simp] theorem State.setBmp_lat (s : State) (r : BmpRegs) : (s.setBmp r).lat = s.lat := rfl
@[simp] theorem State.setBmp_work (s : State) (r : BmpRegs) : (s.setBmp r).work = { s.work with bmp := r } := rfl
@[simp] theorem State.setBmp_inMem (s : State) (r : BmpRegs) : (s.setBmp r).inMem = s.inMem := rfl
@[simp] theorem State.setBmp_outMem (s : State) (r : BmpRegs) : (s.setBmp r).outMem = s.outMem := rfl
@[simp] theorem State.setBmp_freeCnt (s : State) (r : BmpRegs) : (s.setBmp r).freeCnt = s.freeCnt := rfl
@[simp] theorem State.setBmp_inGen (s : State) (r : BmpRegs) : (s.setBmp r).inGen = s.inGen := rfl
@[simp] theorem State.setBmp_inRaced (s : State) (r : BmpRegs) : (s.setBmp r).inRaced = s.inRaced := rfl
@[simp] theorem State.setBmp_outFree (s : State) (r : BmpRegs) : (s.setBmp r).outFree = s.outFree := rfl
@[simp] theorem State.setBmp_rdata (s : State) (r : BmpRegs) : (s.setBmp r).rdata = s.rdata := rfl
@[simp] theorem State.setBmp_host (s : State) (r : BmpRegs) : (s.setBmp r).host = s.host := rfl

@[simp] theorem State.complete_cfg (s : State) : s.complete.cfg = s.cfg := rfl
@[simp] theorem State.complete_busy (s : State) : s.complete.busy = false := rfl
@[simp] theorem State.complete_done (s : State) : s.complete.done = true := rfl
@[simp] theorem State.complete_allt (s : State) : s.complete.allt = s.allt := rfl
@[simp] theorem State.complete_err (s : State) : s.complete.err = s.err := rfl
@[simp] theorem State.complete_op (s : State) : s.complete.op = s.op := rfl
@[simp] theorem State.complete_ie (s : State) : s.complete.ie = s.ie := rfl
@[simp] theorem State.complete_dim (s : State) : s.complete.dim = s.dim := rfl
@[simp] theorem State.complete_colorBits (s : State) : s.complete.colorBits = s.colorBits := rfl
@[simp] theorem State.complete_deltaEn (s : State) : s.complete.deltaEn = s.deltaEn := rfl
@[simp] theorem State.complete_inLen (s : State) : s.complete.inLen = s.inLen := rfl
@[simp] theorem State.complete_inPos (s : State) : s.complete.inPos = s.inPos := rfl
@[simp] theorem State.complete_outLen (s : State) : s.complete.outLen = s.outLen := rfl
@[simp] theorem State.complete_faultInfo (s : State) : s.complete.faultInfo = s.faultInfo := rfl
@[simp] theorem State.complete_lat (s : State) : s.complete.lat = s.lat := rfl
@[simp] theorem State.complete_work (s : State) : s.complete.work = s.work := rfl
@[simp] theorem State.complete_inMem (s : State) : s.complete.inMem = s.inMem := rfl
@[simp] theorem State.complete_outMem (s : State) : s.complete.outMem = s.outMem := rfl
@[simp] theorem State.complete_freeCnt (s : State) : s.complete.freeCnt = s.freeCnt := rfl
@[simp] theorem State.complete_inGen (s : State) : s.complete.inGen = s.inGen := rfl
@[simp] theorem State.complete_inRaced (s : State) : s.complete.inRaced = s.inRaced := rfl
@[simp] theorem State.complete_outFree (s : State) : s.complete.outFree = s.outFree := rfl
@[simp] theorem State.complete_rdata (s : State) : s.complete.rdata = s.rdata := rfl
@[simp] theorem State.complete_host (s : State) : s.complete.host = s.host := rfl

@[simp] theorem raise_cfg (f : Raised) (s : State) : (raise f s).cfg = s.cfg := rfl
@[simp] theorem raise_busy (f : Raised) (s : State) : (raise f s).busy = false := rfl
@[simp] theorem raise_done (f : Raised) (s : State) : (raise f s).done = false := rfl
@[simp] theorem raise_allt (f : Raised) (s : State) : (raise f s).allt = s.freeAllt := rfl
@[simp] theorem raise_err (f : Raised) (s : State) : (raise f s).err = f.kind.code := rfl
@[simp] theorem raise_op (f : Raised) (s : State) : (raise f s).op = s.op := rfl
@[simp] theorem raise_ie (f : Raised) (s : State) : (raise f s).ie = s.ie := rfl
@[simp] theorem raise_dim (f : Raised) (s : State) : (raise f s).dim = s.dim := rfl
@[simp] theorem raise_colorBits (f : Raised) (s : State) : (raise f s).colorBits = s.colorBits := rfl
@[simp] theorem raise_deltaEn (f : Raised) (s : State) : (raise f s).deltaEn = s.deltaEn := rfl
@[simp] theorem raise_inLen (f : Raised) (s : State) : (raise f s).inLen = s.inLen := rfl
@[simp] theorem raise_inPos (f : Raised) (s : State) : (raise f s).inPos = Config.freeInPos s.freeCnt := rfl
@[simp] theorem raise_outLen (f : Raised) (s : State) : (raise f s).outLen = 0#32 := rfl
@[simp] theorem raise_faultInfo (f : Raised) (s : State) : (raise f s).faultInfo = f.info := rfl
@[simp] theorem raise_lat (f : Raised) (s : State) : (raise f s).lat = s.lat := rfl
@[simp] theorem raise_work (f : Raised) (s : State) : (raise f s).work = Config.freeWork s.freeCnt := rfl
@[simp] theorem raise_inMem (f : Raised) (s : State) : (raise f s).inMem = s.inMem := rfl
@[simp] theorem raise_outMem (f : Raised) (s : State) : (raise f s).outMem = [] := rfl
@[simp] theorem raise_freeCnt (f : Raised) (s : State) : (raise f s).freeCnt = s.freeCnt + 1 := rfl
@[simp] theorem raise_inGen (f : Raised) (s : State) : (raise f s).inGen = s.inGen := rfl
@[simp] theorem raise_inRaced (f : Raised) (s : State) : (raise f s).inRaced = false := rfl
@[simp] theorem raise_outFree (f : Raised) (s : State) : (raise f s).outFree = true := rfl
@[simp] theorem raise_rdata (f : Raised) (s : State) : (raise f s).rdata = s.rdata := rfl
@[simp] theorem raise_host (f : Raised) (s : State) : (raise f s).host = s.host := rfl

@[simp] theorem abandon_cfg (s : State) : (abandon s).cfg = s.cfg := rfl
@[simp] theorem abandon_busy (s : State) : (abandon s).busy = false := rfl
@[simp] theorem abandon_done (s : State) : (abandon s).done = false := rfl
@[simp] theorem abandon_allt (s : State) : (abandon s).allt = false := rfl
@[simp] theorem abandon_err (s : State) : (abandon s).err = 0#4 := rfl
@[simp] theorem abandon_op (s : State) : (abandon s).op = s.op := rfl
@[simp] theorem abandon_ie (s : State) : (abandon s).ie = s.ie := rfl
@[simp] theorem abandon_dim (s : State) : (abandon s).dim = s.dim := rfl
@[simp] theorem abandon_colorBits (s : State) : (abandon s).colorBits = s.colorBits := rfl
@[simp] theorem abandon_deltaEn (s : State) : (abandon s).deltaEn = s.deltaEn := rfl
@[simp] theorem abandon_inLen (s : State) : (abandon s).inLen = s.inLen := rfl
@[simp] theorem abandon_inPos (s : State) : (abandon s).inPos = 0#32 := rfl
@[simp] theorem abandon_outLen (s : State) : (abandon s).outLen = 0#32 := rfl
@[simp] theorem abandon_faultInfo (s : State) : (abandon s).faultInfo = 0#32 := rfl
@[simp] theorem abandon_lat (s : State) : (abandon s).lat = s.lat := rfl
@[simp] theorem abandon_work (s : State) : (abandon s).work = Config.freeWork s.freeCnt := rfl
@[simp] theorem abandon_inMem (s : State) : (abandon s).inMem = s.inMem := rfl
@[simp] theorem abandon_outMem (s : State) : (abandon s).outMem = [] := rfl
@[simp] theorem abandon_freeCnt (s : State) : (abandon s).freeCnt = s.freeCnt + 1 := rfl
@[simp] theorem abandon_inGen (s : State) : (abandon s).inGen = s.inGen := rfl
@[simp] theorem abandon_inRaced (s : State) : (abandon s).inRaced = false := rfl
@[simp] theorem abandon_outFree (s : State) : (abandon s).outFree = true := rfl
@[simp] theorem abandon_rdata (s : State) : (abandon s).rdata = s.rdata := rfl
@[simp] theorem abandon_host (s : State) : (abandon s).host = s.host := rfl

@[simp] theorem clearOutcome_cfg (s : State) : (clearOutcome s).cfg = s.cfg := rfl
@[simp] theorem clearOutcome_busy (s : State) : (clearOutcome s).busy = s.busy := rfl
@[simp] theorem clearOutcome_done (s : State) : (clearOutcome s).done = false := rfl
@[simp] theorem clearOutcome_allt (s : State) : (clearOutcome s).allt = s.allt := rfl
@[simp] theorem clearOutcome_err (s : State) : (clearOutcome s).err = 0#4 := rfl
@[simp] theorem clearOutcome_op (s : State) : (clearOutcome s).op = s.op := rfl
@[simp] theorem clearOutcome_ie (s : State) : (clearOutcome s).ie = s.ie := rfl
@[simp] theorem clearOutcome_dim (s : State) : (clearOutcome s).dim = s.dim := rfl
@[simp] theorem clearOutcome_colorBits (s : State) : (clearOutcome s).colorBits = s.colorBits := rfl
@[simp] theorem clearOutcome_deltaEn (s : State) : (clearOutcome s).deltaEn = s.deltaEn := rfl
@[simp] theorem clearOutcome_inLen (s : State) : (clearOutcome s).inLen = s.inLen := rfl
@[simp] theorem clearOutcome_inPos (s : State) : (clearOutcome s).inPos = s.inPos := rfl
@[simp] theorem clearOutcome_outLen (s : State) : (clearOutcome s).outLen = s.outLen := rfl
@[simp] theorem clearOutcome_faultInfo (s : State) : (clearOutcome s).faultInfo = 0#32 := rfl
@[simp] theorem clearOutcome_lat (s : State) : (clearOutcome s).lat = s.lat := rfl
@[simp] theorem clearOutcome_work (s : State) : (clearOutcome s).work = s.work := rfl
@[simp] theorem clearOutcome_inMem (s : State) : (clearOutcome s).inMem = s.inMem := rfl
@[simp] theorem clearOutcome_outMem (s : State) : (clearOutcome s).outMem = s.outMem := rfl
@[simp] theorem clearOutcome_freeCnt (s : State) : (clearOutcome s).freeCnt = s.freeCnt := rfl
@[simp] theorem clearOutcome_inGen (s : State) : (clearOutcome s).inGen = s.inGen := rfl
@[simp] theorem clearOutcome_inRaced (s : State) : (clearOutcome s).inRaced = s.inRaced := rfl
@[simp] theorem clearOutcome_outFree (s : State) : (clearOutcome s).outFree = s.outFree := rfl
@[simp] theorem clearOutcome_rdata (s : State) : (clearOutcome s).rdata = s.rdata := rfl
@[simp] theorem clearOutcome_host (s : State) : (clearOutcome s).host = s.host := rfl

@[simp] theorem latchStart_cfg (c : BitVec 4) (s : State) : (latchStart c s).cfg = s.cfg := rfl
@[simp] theorem latchStart_busy (c : BitVec 4) (s : State) : (latchStart c s).busy = s.busy := rfl
@[simp] theorem latchStart_done (c : BitVec 4) (s : State) : (latchStart c s).done = false := rfl
@[simp] theorem latchStart_allt (c : BitVec 4) (s : State) : (latchStart c s).allt = false := rfl
@[simp] theorem latchStart_err (c : BitVec 4) (s : State) : (latchStart c s).err = 0#4 := rfl
@[simp] theorem latchStart_op (c : BitVec 4) (s : State) : (latchStart c s).op = c := rfl
@[simp] theorem latchStart_ie (c : BitVec 4) (s : State) : (latchStart c s).ie = s.ie := rfl
@[simp] theorem latchStart_dim (c : BitVec 4) (s : State) : (latchStart c s).dim = s.dim := rfl
@[simp] theorem latchStart_colorBits (c : BitVec 4) (s : State) : (latchStart c s).colorBits = s.colorBits := rfl
@[simp] theorem latchStart_deltaEn (c : BitVec 4) (s : State) : (latchStart c s).deltaEn = s.deltaEn := rfl
@[simp] theorem latchStart_inLen (c : BitVec 4) (s : State) : (latchStart c s).inLen = s.inLen := rfl
@[simp] theorem latchStart_inPos (c : BitVec 4) (s : State) : (latchStart c s).inPos = 0#32 := rfl
@[simp] theorem latchStart_outLen (c : BitVec 4) (s : State) : (latchStart c s).outLen = 0#32 := rfl
@[simp] theorem latchStart_faultInfo (c : BitVec 4) (s : State) : (latchStart c s).faultInfo = 0#32 := rfl
@[simp] theorem latchStart_lat (c : BitVec 4) (s : State) : (latchStart c s).lat =
    { opl := c, w := s.dim.extractLsb' 0 16, h := s.dim.extractLsb' 16 16, cb := s.colorBits, den := s.deltaEn, len := s.inLen,
      n := BitVec.ofNat 32 ((s.dim.extractLsb' 0 16).toNat * (s.dim.extractLsb' 16 16).toNat) } := rfl
@[simp] theorem latchStart_work (c : BitVec 4) (s : State) : (latchStart c s).work = s.work := rfl
@[simp] theorem latchStart_inMem (c : BitVec 4) (s : State) : (latchStart c s).inMem = s.inMem := rfl
@[simp] theorem latchStart_outMem (c : BitVec 4) (s : State) : (latchStart c s).outMem = [] := rfl
@[simp] theorem latchStart_freeCnt (c : BitVec 4) (s : State) : (latchStart c s).freeCnt = s.freeCnt := rfl
@[simp] theorem latchStart_inGen (c : BitVec 4) (s : State) : (latchStart c s).inGen = s.inGen := rfl
@[simp] theorem latchStart_inRaced (c : BitVec 4) (s : State) : (latchStart c s).inRaced = false := rfl
@[simp] theorem latchStart_outFree (c : BitVec 4) (s : State) : (latchStart c s).outFree = false := rfl
@[simp] theorem latchStart_rdata (c : BitVec 4) (s : State) : (latchStart c s).rdata = s.rdata := rfl
@[simp] theorem latchStart_host (c : BitVec 4) (s : State) : (latchStart c s).host = s.host := rfl

end Sys2Proof.Machine
end

