-- ==== Sys2Proof/Laws/Emit.lean ====
section
/-! SUPPORT. What writing to OUT can do: append all the bytes, or raise `OutFull` (20_memory.md R66). -/

namespace Sys2Proof.Machine

theorem State.appended_nil (s : State) : s.appended [] = s := by
  simp [State.appended, Memory.writeAll]

theorem State.appended_append (s : State) (bs cs : List Byte) (h : s.outLen.toNat + bs.length < 2 ^ 32) :
    (s.appended bs).appended cs = s.appended (bs ++ cs) := by
  have h1 : (s.outLen + BitVec.ofNat 32 bs.length).toNat = s.outLen.toNat + bs.length := by
    simp only [BitVec.toNat_add, BitVec.toNat_ofNat]; omega
  simp only [State.appended, h1, Memory.writeAll_append, List.length_append, BitVec.ofNat_add]
  rw [BitVec.add_assoc]

theorem State.appended_outLen_toNat (s : State) (bs : List Byte) (h : s.outLen.toNat + bs.length < 2 ^ 32) :
    (s.appended bs).outLen.toNat = s.outLen.toNat + bs.length := by
  simp only [State.appended, BitVec.toNat_add, BitVec.toNat_ofNat]; omega

theorem emit_fits {v : Byte} {s : State} (h : s.outLen.toNat < s.cfg.outCap.toNat) :
    emit v s = .ok (s.appended [v]) := by
  rw [emit, if_neg (by omega)]
  simp [State.appended, Memory.writeAll]

theorem emit_full {v : Byte} {s : State} (h : s.cfg.outCap.toNat ≤ s.outLen.toNat) :
    emit v s = .error ⟨.outFull, s.outLen⟩ := by
  rw [emit, if_pos h]

/-- Bytes that fit are all appended. -/
theorem emitAll_fits {bs : List Byte} {s : State} (h : s.outLen.toNat + bs.length ≤ s.cfg.outCap.toNat) :
    emitAll bs s = .ok (s.appended bs) := by
  induction bs generalizing s with
  | nil => simp [emitAll, State.appended_nil]
  | cons v vs ih =>
    have hc := s.cfg.outCap.isLt
    simp only [List.length_cons] at h
    have h1 := s.appended_outLen_toNat [v] (by simp; omega)
    rw [emitAll, emit_fits (by omega)]
    simp only [Except.bind]
    rw [ih (by rw [h1]; simp; omega), State.appended_append _ _ _ (by simp; omega)]
    rfl

/-- Bytes that do not fit raise `OutFull`, recording `OUT_CAP`. -/
theorem emitAll_full {bs : List Byte} {s : State} (h : s.cfg.outCap.toNat < s.outLen.toNat + bs.length)
    (hle : s.outLen.toNat ≤ s.cfg.outCap.toNat) : emitAll bs s = .error ⟨.outFull, s.cfg.outCap⟩ := by
  induction bs generalizing s with
  | nil => simp at h; omega
  | cons v vs ih =>
    simp only [List.length_cons] at h
    have hc := s.cfg.outCap.isLt
    by_cases hf : s.outLen.toNat < s.cfg.outCap.toNat
    · have h1 := s.appended_outLen_toNat [v] (by simp; omega)
      rw [emitAll, emit_fits hf]
      simp only [Except.bind]
      rw [ih (by rw [h1]; simp; omega) (by rw [h1]; simp; omega)]
      rfl
    · have : s.outLen = s.cfg.outCap := BitVec.eq_of_toNat_eq (by omega)
      rw [emitAll, emit_full (by omega), this]
      rfl

/-- All that `emitAll` can do: append every byte within the capacity, or raise `OutFull`. -/
theorem emitAll_cases {bs : List Byte} {s : State} (hle : s.outLen.toNat ≤ s.cfg.outCap.toNat) :
    (s.outLen.toNat + bs.length ≤ s.cfg.outCap.toNat ∧ emitAll bs s = .ok (s.appended bs)) ∨
      (s.cfg.outCap.toNat < s.outLen.toNat + bs.length ∧ emitAll bs s = .error ⟨.outFull, s.cfg.outCap⟩) := by
  by_cases h : s.outLen.toNat + bs.length ≤ s.cfg.outCap.toNat
  · exact .inl ⟨h, emitAll_fits h⟩
  · exact .inr ⟨by omega, emitAll_full (by omega) hle⟩

theorem emitAll_ok {bs : List Byte} {s t : State} (hle : s.outLen.toNat ≤ s.cfg.outCap.toNat)
    (h : emitAll bs s = .ok t) : s.outLen.toNat + bs.length ≤ s.cfg.outCap.toNat ∧ t = s.appended bs := by
  rcases emitAll_cases (bs := bs) hle with ⟨h1, h2⟩ | ⟨_, h2⟩ <;> rw [h2] at h
  · cases h; exact ⟨h1, rfl⟩
  · cases h

theorem emitAll_append (bs cs : List Byte) (s : State) :
    emitAll (bs ++ cs) s = (emitAll bs s).bind (emitAll cs) := by
  induction bs generalizing s with
  | nil => rfl
  | cons v vs ih =>
    simp only [List.cons_append, emitAll]
    cases emit v s with
    | error f => rfl
    | ok t => exact ih t

/-- A byte below `OUT_LEN` is not written again (R62). -/
theorem State.appended_read_below (s : State) (bs : List Byte) {a : Nat} (h : a < s.outLen.toNat) :
    (s.appended bs).outMem.read a = s.outMem.read a := by
  simp [Memory.read_writeAll_outside, h]

end Sys2Proof.Machine
end

