-- ==== Sys2Proof/Laws/Chunk.lean ====
section
/-! SUPPORT. What writing pixels can do (44_qoi_decompress.md R259, R260), and what the pixel writes leave. -/

namespace Sys2Proof.Machine

theorem pixelBytesOf_length (p : Pixel) : (pixelBytesOf p).length = 4 := rfl

theorem repeatPixel_length (n : Nat) (p : Pixel) : (repeatPixel n p).length = 4 * n := by
  simp [repeatPixel, pixelBytesOf_length, Nat.mul_comm]

theorem repeatPixel_succ (n : Nat) (p : Pixel) : repeatPixel (n + 1) p = pixelBytesOf p ++ repeatPixel n p := by
  simp [repeatPixel, List.replicate_succ]

/-- All that `writeOne` can do: write the pixel, or raise `OutFull` recording `OUT_CAP`. -/
theorem writeOne_cases {p : Pixel} {s : State} (hle : s.outLen.toNat ≤ s.cfg.outCap.toNat) :
    (s.outLen.toNat + 4 ≤ s.cfg.outCap.toNat ∧ writeOne p s = .ok (s.wrotePixel p)) ∨
      (s.cfg.outCap.toNat < s.outLen.toNat + 4 ∧ writeOne p s = .error ⟨.outFull, s.cfg.outCap⟩) := by
  rcases emitAll_cases (bs := pixelBytesOf p) hle with ⟨h, e⟩ | ⟨h, e⟩ <;> rw [pixelBytesOf_length] at h
  · exact .inl ⟨h, by rw [writeOne, e]; rfl⟩
  · exact .inr ⟨h, by rw [writeOne, e]; rfl⟩

/-- All that `writeRun` can do: write the run, raise `OutFull` recording `OUT_CAP`, or raise `DecodeError` at the tag. -/
theorem writeRun_cases {n : Nat} {s : State} (hle : s.outLen.toNat ≤ s.cfg.outCap.toNat) :
    (s.work.qoi.pixn.toNat + n ≤ s.lat.n.toNat ∧ s.outLen.toNat + 4 * n ≤ s.cfg.outCap.toNat ∧
        writeRun n s = .ok (s.wroteRun n)) ∨
      (s.work.qoi.pixn.toNat + n ≤ s.lat.n.toNat ∧ s.cfg.outCap.toNat < s.outLen.toNat + 4 * n ∧
        writeRun n s = .error ⟨.outFull, s.cfg.outCap⟩) ∨
      (s.lat.n.toNat < s.work.qoi.pixn.toNat + n ∧ writeRun n s = .error ⟨.decodeError, s.inPos - 1#32⟩) := by
  by_cases hn : s.lat.n.toNat < s.work.qoi.pixn.toNat + n
  · exact .inr (.inr ⟨hn, by rw [writeRun, if_pos hn]⟩)
  · rcases emitAll_cases (bs := repeatPixel n s.work.qoi.prevpx) hle with ⟨h, e⟩ | ⟨h, e⟩ <;>
      rw [repeatPixel_length] at h
    · exact .inl ⟨by omega, h, by rw [writeRun, if_neg hn, e]; rfl⟩
    · exact .inr (.inl ⟨by omega, h, by rw [writeRun, if_neg hn, e]; rfl⟩)

/-- What a slot holds after a write to the cache. -/
theorem cacheRead_cacheWrite (c : Vector Pixel 64) (i j : BitVec 6) (p : Pixel) :
    cacheRead (cacheWrite c i p) j = if j = i then p else cacheRead c j := by
  simp only [cacheRead, cacheWrite, Vector.get_eq_getElem, Vector.getElem_set, ← BitVec.toNat_eq, eq_comm (a := j)]

/-- `qhash` as a number: at most 6630 before the remainder (10_state.md R39). -/
theorem qhash_toNat (p : Pixel) :
    (qhash p).toNat = (p.r.toNat * 3 + p.g.toNat * 5 + p.b.toNat * 7 + p.a.toNat * 11) % 64 := by
  simp [qhash]

/-- Channel arithmetic is modulo 256 (R261). -/
theorem channelAdd_toNat (c : Byte) (d : Int) : ((channelAdd c d).toNat : Int) = (c.toNat + d) % 256 := by
  simp only [channelAdd, BitVec.toNat_ofInt]
  omega

/-- What `settle` can do. -/
theorem settle_ok (s t : State) : settle s (.ok t) = t := rfl
theorem settle_error (s : State) (f : Raised) : settle s (.error f) = raise f s := rfl

/-- What executing a chunk can do: it answers a next state, the writer's or the fault taken. -/
theorem execRgb_eq (r g b : Byte) (s : State) :
    exec (.rgb r g b) s = .next (settle s (writeOne ⟨r, g, b, s.work.qoi.prevpx.a⟩ s)) := rfl
theorem execRgba_eq (r g b a : Byte) (s : State) :
    exec (.rgba r g b a) s = .next (settle s (writeOne ⟨r, g, b, a⟩ s)) := rfl
theorem execIndex_eq (i : BitVec 6) (s : State) :
    exec (.index i) s = .next (settle s (writeOne (cacheRead s.work.qoi.cache i) s)) := rfl
theorem execDiff_eq (dr dg db : Int) (s : State) :
    exec (.diff dr dg db) s = .next (settle s (writeOne (movedPixel s.work.qoi.prevpx dr dg db) s)) := rfl
theorem execLuma_eq (dg drDg dbDg : Int) (s : State) :
    exec (.luma dg drDg dbDg) s
      = .next (settle s (writeOne (movedPixel s.work.qoi.prevpx (dg + drDg) dg (dg + dbDg)) s)) := rfl
theorem execRun_eq (n : Nat) (s : State) : exec (.run n) s = .next (settle s (writeRun n s)) := rfl

end Sys2Proof.Machine
end

