-- ==== Sys2Proof/Laws/Fetch.lean ====
section
/-! SUPPORT. What reading the input can do: `next()` (20_memory.md R64), several `next()`, the fetch of a chunk
(44_qoi_decompress.md R253), and that the fetched bytes always are a chunk (30_encoding.md R102). -/

namespace Sys2Proof.Machine

/-- The state with the cursor `k` bytes further. -/
def State.advanced (s : State) (k : Nat) : State := { s with inPos := s.inPos + BitVec.ofNat 32 k }

/-- The `k` bytes of IN at the cursor. -/
def State.ahead (s : State) (k : Nat) : List Byte := (List.range k).map fun j => inByte s (s.inPos.toNat + j)

theorem State.advanced_zero (s : State) : s.advanced 0 = s := by simp [State.advanced]

theorem State.advanced_toNat (s : State) (k : Nat) (h : s.inPos.toNat + k < 2 ^ 32) :
    (s.advanced k).inPos.toNat = s.inPos.toNat + k := by
  simp only [State.advanced, BitVec.toNat_add, BitVec.toNat_ofNat]; omega

theorem State.advanced_advanced (s : State) (j k : Nat) : (s.advanced j).advanced k = s.advanced (j + k) := by
  simp [State.advanced, BitVec.ofNat_add, BitVec.add_assoc]

theorem inByte_advanced (s : State) (k a : Nat) : inByte (s.advanced k) a = inByte s a := rfl

theorem next_ok {s : State} (h : s.inPos.toNat < s.lat.len.toNat) :
    next s = .ok (inByte s s.inPos.toNat, s.advanced 1) := by
  rw [next, if_neg (by omega)]; rfl

theorem next_end {s : State} (h : s.lat.len.toNat ≤ s.inPos.toNat) : next s = .error ⟨.decodeError, s.inPos⟩ := by
  rw [next, if_pos h]

/-- Bytes that are there are read in order, and the cursor moves past them. -/
theorem nextBytes_ok {k : Nat} {s : State} (h : s.inPos.toNat + k ≤ s.lat.len.toNat) :
    nextBytes k s = .ok (s.ahead k, s.advanced k) := by
  induction k generalizing s with
  | zero => simp [nextBytes, State.ahead, State.advanced_zero]
  | succ k ih =>
    have hl := s.lat.len.isLt
    have h1 := s.advanced_toNat 1 (by omega)
    rw [nextBytes, next_ok (by omega)]
    simp only
    rw [ih (s := s.advanced 1) (by rw [h1]; exact by change s.inPos.toNat + 1 + k ≤ s.lat.len.toNat; omega)]
    simp only [State.advanced_advanced, State.ahead, h1, inByte_advanced, List.range_succ_eq_map, List.map_cons,
      List.map_map, Nat.add_zero]
    refine congrArg _ (Prod.ext ?_ (by simp [Nat.add_comm]))
    simp only [List.cons.injEq, true_and, List.map_inj_left, Function.comp]
    intro j _
    rw [show s.inPos.toNat + 1 + j = s.inPos.toNat + j.succ by omega]

/-- When the input ends first, `DecodeError` records `LEN`. -/
theorem nextBytes_end {k : Nat} {s : State} (h : s.lat.len.toNat < s.inPos.toNat + k)
    (hle : s.inPos.toNat ≤ s.lat.len.toNat) : nextBytes k s = .error ⟨.decodeError, s.lat.len⟩ := by
  induction k generalizing s with
  | zero => omega
  | succ k ih =>
    by_cases hlt : s.inPos.toNat < s.lat.len.toNat
    · have hl := s.lat.len.isLt
      have h1 := s.advanced_toNat 1 (by omega)
      rw [nextBytes, next_ok hlt]
      simp only
      rw [ih (s := s.advanced 1) (by rw [h1]; change s.lat.len.toNat < s.inPos.toNat + 1 + k; omega)
        (by rw [h1]; exact hlt)]
      rfl
    · rw [nextBytes, next_end (by omega), show s.inPos = s.lat.len from BitVec.eq_of_toNat_eq (by omega)]

/-- All that the fetch of a chunk can do: the tag byte and its payload with the cursor behind them, or `DecodeError`
recording `LEN` when one of the bytes is missing. -/
theorem fetchChunk_cases {s : State} (hle : s.inPos.toNat ≤ s.lat.len.toNat) :
    (∃ k, k = 1 + payloadLength (inByte s s.inPos.toNat) ∧ s.inPos.toNat + k ≤ s.lat.len.toNat ∧
        fetchChunk s = .ok (s.ahead k, s.advanced k)) ∨
      fetchChunk s = .error ⟨.decodeError, s.lat.len⟩ := by
  by_cases hlt : s.inPos.toNat < s.lat.len.toNat
  · have hl := s.lat.len.isLt
    have h1 := s.advanced_toNat 1 (by omega)
    by_cases hp : s.inPos.toNat + (1 + payloadLength (inByte s s.inPos.toNat)) ≤ s.lat.len.toNat
    · left
      refine ⟨_, rfl, hp, ?_⟩
      rw [fetchChunk, next_ok hlt]
      simp only [Except.bind]
      rw [nextBytes_ok (s := s.advanced 1) (by rw [h1]; change _ ≤ s.lat.len.toNat; omega)]
      simp only [Except.map, State.advanced_advanced, State.ahead, h1, inByte_advanced,
        Nat.add_comm 1 (payloadLength _), List.range_succ_eq_map, List.map_cons, List.map_map, Nat.add_zero]
      refine congrArg _ (Prod.ext ?_ rfl)
      simp only [List.cons.injEq, true_and, List.map_inj_left, Function.comp]
      intro j _
      rw [show s.inPos.toNat + 1 + j = s.inPos.toNat + j.succ by omega]
    · right
      rw [fetchChunk, next_ok hlt]
      simp only [Except.bind]
      rw [nextBytes_end (s := s.advanced 1) (by rw [h1]; change s.lat.len.toNat < _; omega)
        (by rw [h1]; change _ ≤ s.lat.len.toNat; omega)]
      rfl
  · right
    rw [fetchChunk, next_end (by omega), show s.inPos = s.lat.len from BitVec.eq_of_toNat_eq (by omega)]
    rfl

/-- The decoder reads a chunk from a tag byte and a payload of its length, and nothing is left over. -/
theorem decodeChunk_total {t : Byte} {payload : List Byte} (h : payload.length = payloadLength t) :
    ∃ i, decodeChunk (t :: payload) = .ok (i, []) ∧ i.format = .chunk := by
  simp only [payloadLength] at h
  simp only [decodeChunk]
  split_ifs at h ⊢
  all_goals match payload, h with
    | [], _ => first | exact ⟨_, rfl, rfl⟩ | simp_all
    | [_], _ => first | exact ⟨_, rfl, rfl⟩ | simp_all
    | [_, _, _], _ => first | exact ⟨_, rfl, rfl⟩ | simp_all
    | [_, _, _, _], _ => first | exact ⟨_, rfl, rfl⟩ | simp_all

/-- What the fetch gives is never refused by the decoder (R102). -/
theorem fetchChunk_decodes {s t : State} {bytes : List Byte} (hle : s.inPos.toNat ≤ s.lat.len.toNat)
    (h : fetchChunk s = .ok (bytes, t)) : ∃ i, decode .chunk bytes = .ok (i, []) ∧ i.format = .chunk := by
  rcases fetchChunk_cases hle with ⟨k, hk, _, he⟩ | he
  · rw [he] at h
    obtain ⟨rfl, -⟩ := Prod.mk.inj (Except.ok.inj h)
    subst hk
    rw [show s.ahead (1 + payloadLength (inByte s s.inPos.toNat)) = inByte s s.inPos.toNat ::
      (List.range (payloadLength (inByte s s.inPos.toNat))).map (fun j => inByte s (s.inPos.toNat + (j + 1))) by
        simp [State.ahead, Nat.add_comm 1, List.range_succ_eq_map, Function.comp_def]]
    exact decodeChunk_total (by simp)
  · rw [he] at h; cases h

end Sys2Proof.Machine
end

