-- ==== Sys2Proof/Laws/Lzw.lean ====
section
/-! SUPPORT. What the LZW unit's shared operations can do: the table (42_lzw.md R187 to R191), the staging buffer and the bit
packer (R192 to R194). -/

namespace Sys2Proof.Machine

/-! ## The table -/

theorem tabLookup_some {tab : List TabEntry} {c v : BitVec 12} {x : Byte} (h : tabLookup tab c x = some v) :
    ∃ e ∈ tab, e.code = c ∧ e.sym = x ∧ e.val = v := by
  induction tab with
  | nil => cases h
  | cons e tab ih =>
    simp only [tabLookup] at h
    split at h
    · rename_i he
      exact ⟨e, List.mem_cons_self, he.1, he.2, by simpa using h⟩
    · obtain ⟨e', he', h'⟩ := ih h
      exact ⟨e', List.mem_cons_of_mem _ he', h'⟩

theorem tabLookup_none {tab : List TabEntry} {c : BitVec 12} {x : Byte} :
    tabLookup tab c x = none ↔ ∀ e ∈ tab, ¬ (e.code = c ∧ e.sym = x) := by
  induction tab with
  | nil => simp [tabLookup]
  | cons e tab ih =>
    simp only [tabLookup, List.forall_mem_cons]
    split <;> rename_i he
    · simp [he]
    · simp only [ih, he, not_false_eq_true, true_and]

/-- Where keys are unique, an entry is what the lookup of its key finds. -/
theorem tabLookup_of_mem {tab : List TabEntry} {e : TabEntry}
    (hk : tab.Pairwise (fun e f => ¬ (e.code = f.code ∧ e.sym = f.sym))) (he : e ∈ tab) :
    tabLookup tab e.code e.sym = some e.val := by
  induction tab with
  | nil => cases he
  | cons d tab ih =>
    obtain ⟨hd, ht⟩ := List.pairwise_cons.1 hk
    simp only [tabLookup]
    rcases List.mem_cons.1 he with rfl | he
    · simp
    · rw [if_neg (hd e he), ih ht he]

/-- `insert` while the table is not full (R189, R190). -/
theorem lzwInsert_room {limit : Nat} {c : BitVec 12} {x : Byte} {l : LzwRegs} (h : l.next.toNat < limit) :
    lzwInsert limit c x l =
      { l with
        csize := if 2 ^ l.csize.toNat - 1 < l.next.toNat then l.csize + 1#4 else l.csize
        tab := ⟨c, x, l.next.setWidth 12⟩ :: l.tab
        next := l.next + 1#13 } := by
  rw [lzwInsert, if_pos h]

/-- `insert` on a full table does nothing (R191). -/
theorem lzwInsert_full {limit : Nat} {c : BitVec 12} {x : Byte} {l : LzwRegs} (h : limit ≤ l.next.toNat) :
    lzwInsert limit c x l = l := by
  rw [lzwInsert, if_neg (by omega)]

@[simp] theorem lzwInsert_prevv (limit : Nat) (c : BitVec 12) (x : Byte) (l : LzwRegs) :
    (lzwInsert limit c x l).prevv = l.prevv := by rw [lzwInsert]; split <;> rfl
@[simp] theorem lzwInsert_prev (limit : Nat) (c : BitVec 12) (x : Byte) (l : LzwRegs) :
    (lzwInsert limit c x l).prev = l.prev := by rw [lzwInsert]; split <;> rfl
@[simp] theorem lzwInsert_acc (limit : Nat) (c : BitVec 12) (x : Byte) (l : LzwRegs) :
    (lzwInsert limit c x l).acc = l.acc := by rw [lzwInsert]; split <;> rfl
@[simp] theorem lzwInsert_nbits (limit : Nat) (c : BitVec 12) (x : Byte) (l : LzwRegs) :
    (lzwInsert limit c x l).nbits = l.nbits := by rw [lzwInsert]; split <;> rfl
@[simp] theorem lzwInsert_blk (limit : Nat) (c : BitVec 12) (x : Byte) (l : LzwRegs) :
    (lzwInsert limit c x l).blk = l.blk := by rw [lzwInsert]; split <;> rfl
@[simp] theorem lzwInsert_blkn (limit : Nat) (c : BitVec 12) (x : Byte) (l : LzwRegs) :
    (lzwInsert limit c x l).blkn = l.blkn := by rw [lzwInsert]; split <;> rfl

/-! ## The staging buffer -/

theorem stagedBytes_length (s : State) : (stagedBytes s).length = s.work.lzw.blkn.toNat := by
  have := s.work.lzw.blkn.isLt
  simp [stagedBytes]; omega

/-- All that `flushBlock` can do: append the length and the staged bytes and empty the buffer, or raise `OutFull`. -/
theorem flushBlock_cases {s : State} (hle : s.outLen.toNat ≤ s.cfg.outCap.toNat) :
    (s.outLen.toNat + (1 + s.work.lzw.blkn.toNat) ≤ s.cfg.outCap.toNat ∧
        flushBlock s = .ok ((s.appended (s.work.lzw.blkn :: stagedBytes s)).setLzw { s.work.lzw with blkn := 0#8 })) ∨
      (s.cfg.outCap.toNat < s.outLen.toNat + (1 + s.work.lzw.blkn.toNat) ∧
        flushBlock s = .error ⟨.outFull, s.cfg.outCap⟩) := by
  rcases emitAll_cases (bs := s.work.lzw.blkn :: stagedBytes s) hle with ⟨h, e⟩ | ⟨h, e⟩ <;>
    rw [List.length_cons, stagedBytes_length, Nat.add_comm s.work.lzw.blkn.toNat 1] at h
  · exact .inl ⟨h, by rw [flushBlock]; change (emitAll (s.work.lzw.blkn :: stagedBytes s) s).map _ = _; rw [e]; rfl⟩
  · exact .inr ⟨h, by rw [flushBlock]; change (emitAll (s.work.lzw.blkn :: stagedBytes s) s).map _ = _; rw [e]; rfl⟩

/-- The state with a byte staged behind the others. -/
def State.staged (s : State) (v : Byte) : State :=
  s.setLzw
    { s.work.lzw with
      blk := s.work.lzw.blk.setIfInBounds s.work.lzw.blkn.toNat v
      blkn := s.work.lzw.blkn + 1#8 }

/-- Staging appends a byte to the staged ones. -/
theorem stagedBytes_staged {s : State} (v : Byte) (h : s.work.lzw.blkn.toNat ≤ 254) :
    stagedBytes (s.staged v) = stagedBytes s ++ [v] := by
  have hn : (s.work.lzw.blkn + 1#8).toNat = s.work.lzw.blkn.toNat + 1 := by
    simp only [BitVec.toNat_add, BitVec.toNat_ofNat]; omega
  have hl : s.work.lzw.blk.toList.length = 255 := by simp
  simp only [stagedBytes, State.staged, State.setLzw, hn]
  apply List.ext_getElem
  · simp
    omega
  · intro i h1 h2
    simp only [List.getElem_take, Vector.getElem_toList, Vector.getElem_setIfInBounds]
    by_cases hi : s.work.lzw.blkn.toNat = i
    · subst hi
      rw [List.getElem_append_right (by simp)]
      simp
    · rw [List.getElem_append_left (by simp only [List.length_take, hl, List.length_append] at h1 h2 ⊢; simp at h2; omega)]
      simp [hi]

theorem putByte_eq (v : Byte) (s : State) :
    putByte v s =
      if (s.work.lzw.blkn + 1#8).toNat = Config.lzwBlockMax then flushBlock (s.staged v) else .ok (s.staged v) := rfl

/-- All that `putByte` can do: stage the byte, and write the sub-block when it is the 255th (R193). -/
theorem putByte_cases {s : State} (v : Byte) (h : s.work.lzw.blkn.toNat ≤ 254) :
    (s.work.lzw.blkn.toNat < 254 ∧ putByte v s = .ok (s.staged v)) ∨
      (s.work.lzw.blkn.toNat = 254 ∧ putByte v s = flushBlock (s.staged v)) := by
  have hn : (s.work.lzw.blkn + 1#8).toNat = s.work.lzw.blkn.toNat + 1 := by
    simp only [BitVec.toNat_add, BitVec.toNat_ofNat]; omega
  rw [putByte_eq, hn]
  by_cases h254 : s.work.lzw.blkn.toNat = 254
  · exact .inr ⟨h254, if_pos (by rw [h254])⟩
  · exact .inl ⟨by omega, if_neg (by rw [Config.lzwBlockMax]; omega)⟩

/-! ## What the packer leaves alone -/

/-- `t` differs from `s` at most in OUT, `OUT_LEN` and the packer's registers `ACC`, `NBITS`, `BLK`, `BLKN`. -/
def PackerOnly (s t : State) : Prop :=
  t =
    { s with
      outMem := t.outMem
      outLen := t.outLen
      work := { s.work with
        lzw := { s.work.lzw with
          acc := t.work.lzw.acc
          nbits := t.work.lzw.nbits
          blk := t.work.lzw.blk
          blkn := t.work.lzw.blkn } } }

theorem PackerOnly.refl (s : State) : PackerOnly s s := rfl

theorem PackerOnly.trans {s t u : State} (h : PackerOnly s t) (k : PackerOnly t u) : PackerOnly s u := by
  unfold PackerOnly at *
  rw [h] at k
  exact k

theorem PackerOnly.of_emitAll {bs : List Byte} {s t : State} (h : emitAll bs s = .ok t) : PackerOnly s t := by
  induction bs generalizing s with
  | nil => cases h; rfl
  | cons v vs ih =>
    simp only [emitAll, emit] at h
    split at h
    · cases h
    · exact PackerOnly.trans (by rfl) (ih h)

theorem PackerOnly.of_flushBlock {s t : State} (h : flushBlock s = .ok t) : PackerOnly s t := by
  simp only [flushBlock] at h
  cases he : emitAll (s.work.lzw.blkn :: s.work.lzw.blk.toList.take s.work.lzw.blkn.toNat) s with
  | error f => rw [he] at h; cases h
  | ok u => rw [he] at h; cases h; exact (PackerOnly.of_emitAll he).trans rfl

theorem PackerOnly.of_putByte {v : Byte} {s t : State} (h : putByte v s = .ok t) : PackerOnly s t := by
  simp only [putByte] at h
  split at h
  · exact PackerOnly.trans (by rfl) (PackerOnly.of_flushBlock h)
  · cases h; rfl

theorem PackerOnly.of_drainAcc {fuel : Nat} {s t : State} (h : drainAcc fuel s = .ok t) : PackerOnly s t := by
  induction fuel generalizing s with
  | zero => cases h; rfl
  | succ fuel ih =>
    simp only [drainAcc] at h
    split at h
    · cases hp : putByte (s.work.lzw.acc.extractLsb' 0 8) s with
      | error f => rw [hp] at h; cases h
      | ok u =>
        rw [hp] at h
        exact (PackerOnly.of_putByte hp).trans (PackerOnly.trans (by rfl) (ih h))
    · cases h; rfl

/-- `emitCode` changes the packer's registers and OUT only (R192). -/
theorem PackerOnly.of_emitCode {c : BitVec 12} {s t : State} (h : emitCode c s = .ok t) : PackerOnly s t :=
  PackerOnly.trans (by rfl) (PackerOnly.of_drainAcc h)

end Sys2Proof.Machine
end

