-- ==== Sys2Proof/Laws/PerInstr.lean ====
section
/-! SUPPORT. The length of an instruction's encoding, one lemma per constructor: a command is the four bytes of a register
(20_memory.md R70, 30_encoding.md R91), a chunk is its tag byte and as many bytes as the tag asks for (R94, R101). -/

namespace Sys2Proof.Laws.EncodedLength

/-- The encoding of a well-formed instruction has the length of its format. -/
def Statement (i : Instr) : Prop :=
  i.WellFormed →
    match i.format with
    | .cmd => (encode i).length = 4
    | .chunk => ∃ tag rest, encode i = tag :: rest ∧ rest.length = payloadLength tag

theorem nop : Statement .nop := fun _ => rfl
theorem lzwCompress : Statement .lzwCompress := fun _ => rfl
theorem qoiCompress : Statement .qoiCompress := fun _ => rfl
theorem qoiDecompress : Statement .qoiDecompress := fun _ => rfl
theorem bmpEncode24 : Statement .bmpEncode24 := fun _ => rfl
theorem bmpEncode32 : Statement .bmpEncode32 := fun _ => rfl
theorem ack : Statement .ack := fun _ => rfl
theorem abort : Statement .abort := fun _ => rfl
theorem reservedCmd (v : Word) : Statement (.reservedCmd v) := fun _ => rfl
theorem rgb (r g b : Byte) : Statement (.rgb r g b) := fun _ => ⟨_, _, rfl, rfl⟩
theorem rgba (r g b a : Byte) : Statement (.rgba r g b a) := fun _ => ⟨_, _, rfl, rfl⟩

/-- A tag byte with the given top two bits that is no whole-byte tag. -/
theorem payloadLength_of_top {t : Byte} {k : BitVec 2} (h : t.extractLsb' 6 2 = k) (hk : k ≠ 0b11#2) :
    payloadLength t = if k = 0b10#2 then 1 else 0 := by
  have h1 : t ≠ 0xFE#8 := by rintro rfl; exact hk (h ▸ by decide)
  have h2 : t ≠ 0xFF#8 := by rintro rfl; exact hk (h ▸ by decide)
  simp only [payloadLength, h1, h2, h, if_false]

/-- The top two bits of a byte made of a two-bit tag and a six-bit field. -/
theorem extract_append (k : BitVec 2) (x : BitVec 6) : (k ++ x : BitVec 8).extractLsb' 6 2 = k := by
  revert k x; decide

/-- The top two bits of a `DIFF` byte. -/
theorem extract_diff (r g b : BitVec 2) : (0b01#2 ++ r ++ g ++ b : BitVec 8).extractLsb' 6 2 = 0b01#2 := by
  revert r g b; decide

theorem index (idx : BitVec 6) : Statement (.index idx) := fun _ =>
  ⟨_, _, rfl, (payloadLength_of_top (extract_append 0b00#2 idx) (by decide)).symm⟩

theorem diff (dr dg db : Int) : Statement (.diff dr dg db) := fun _ =>
  ⟨_, _, rfl, (payloadLength_of_top (extract_diff _ _ _) (by decide)).symm⟩

theorem luma (dg drDg dbDg : Int) : Statement (.luma dg drDg dbDg) := fun _ =>
  ⟨_, _, rfl, (payloadLength_of_top (extract_append 0b10#2 _) (by decide)).symm⟩

theorem run (n : Nat) : Statement (.run n) := by
  intro h
  have hn : 1 ≤ n ∧ n ≤ 62 := by simpa [Instr.WellFormed, Instr.wellFormed] using h
  refine ⟨_, _, rfl, ?_⟩
  obtain ⟨h1, h2⟩ := hn
  interval_cases n <;> rfl

end Sys2Proof.Laws.EncodedLength
end

