-- ==== Sys2Proof/Laws/Qoi.lean ====
section
/-! SUPPORT. What the QOI compressor's shared operations can do (43_qoi_compress.md R226, R232). -/

namespace Sys2Proof.Machine

/-- The bytes of the pending run of a state. -/
def State.runChunk (s : State) : List Byte := Functions.runBytes s.work.qoi.run.toNat

theorem State.runChunk_length (s : State) : s.runChunk.length = if s.work.qoi.run = 0#6 then 0 else 1 := by
  simp only [State.runChunk, Functions.runBytes]
  by_cases h : s.work.qoi.run = 0#6
  · simp [h]
  · have : 0 < s.work.qoi.run.toNat := Nat.pos_of_ne_zero fun h0 => h (BitVec.eq_of_toNat_eq h0)
    simp [h, this, encode]

/-- The byte of a run of 1 to 62. -/
theorem encode_run {n : Nat} (h1 : 1 ≤ n) (h2 : n ≤ 62) : encode (.run n) = [BitVec.ofNat 8 (0xC0 + (n - 1))] := by
  interval_cases n <;> rfl

/-- All that `flushRun` can do: write the pending run, if any, and clear it, or raise `OutFull`. -/
theorem flushRun_cases {s : State} (hle : s.outLen.toNat ≤ s.cfg.outCap.toNat) :
    (s.outLen.toNat + s.runChunk.length ≤ s.cfg.outCap.toNat ∧
        flushRun s = .ok ((s.appended s.runChunk).setQoi { s.work.qoi with run := 0#6 })) ∨
      (s.cfg.outCap.toNat < s.outLen.toNat + s.runChunk.length ∧
        flushRun s = .error ⟨.outFull, s.cfg.outCap⟩) := by
  by_cases hr : 0 < s.work.qoi.run.toNat
  · have hc : s.runChunk = encode (.run s.work.qoi.run.toNat) := by simp [State.runChunk, Functions.runBytes, hr]
    rw [hc]
    rcases emitAll_cases (bs := encode (.run s.work.qoi.run.toNat)) hle with ⟨h, e⟩ | ⟨h, e⟩
    · exact .inl ⟨h, by rw [flushRun, if_pos hr, e]; rfl⟩
    · exact .inr ⟨h, by rw [flushRun, if_pos hr, e]; rfl⟩
  · have hc : s.runChunk = [] := by simp [State.runChunk, Functions.runBytes, hr]
    have h0 : s.work.qoi.run = 0#6 := BitVec.eq_of_toNat_eq (by simpa using hr)
    refine .inl ⟨by simpa [hc] using hle, ?_⟩
    rw [flushRun, if_neg hr, hc, State.appended_nil]
    congr 1
    simp only [State.setQoi]
    rw [← h0]

end Sys2Proof.Machine
end

