-- ==== Sys2Proof/Laws/Start.lean ====
section
/-! SUPPORT. What a start command can do (40_commands.md R131, R132, R142; 60_exceptions.md R283). -/

namespace Sys2Proof.Machine

/-- All that a start command can do: nothing while busy, the fault of the first failing check, or the start. -/
theorem startCommand_cases (opc : BitVec 4) (checks : State → List (Bool × Word)) (init : State → State) (s : State) :
    (s.busy = true ∧ startCommand opc checks init s = s) ∨
      (s.busy = false ∧ ∃ code, firstFailing (checks (latchStart opc s)) = some code ∧
        startCommand opc checks init s = raise ⟨.cfgError, code⟩ (latchStart opc s)) ∨
      (s.busy = false ∧ firstFailing (checks (latchStart opc s)) = none ∧
        startCommand opc checks init s = { init (latchStart opc s) with busy := true }) := by
  simp only [startCommand]
  cases hb : s.busy
  · right
    simp only [Bool.false_eq_true, if_false]
    cases hf : firstFailing (checks (latchStart opc s)) with
    | some code => exact .inl ⟨trivial, code, rfl, rfl⟩
    | none => exact .inr ⟨trivial, rfl, rfl⟩
  · exact .inl ⟨rfl, by simp⟩

/-- No check fails exactly when all hold. -/
theorem firstFailing_eq_none {l : List (Bool × Word)} : firstFailing l = none ↔ ∀ c ∈ l, c.1 = true := by
  induction l with
  | nil => simp [firstFailing]
  | cons c l ih =>
    obtain ⟨holds, code⟩ := c
    cases holds <;> simp [firstFailing, ih]

/-- The code given is that of a check that fails, after checks that hold. -/
theorem firstFailing_eq_some {l : List (Bool × Word)} {code : Word} (h : firstFailing l = some code) :
    ∃ pre post, l = pre ++ (false, code) :: post ∧ ∀ c ∈ pre, c.1 = true := by
  induction l with
  | nil => cases h
  | cons c l ih =>
    obtain ⟨holds, code'⟩ := c
    cases holds
    · simp only [firstFailing, Bool.false_eq_true, if_false] at h
      cases h
      exact ⟨[], l, rfl, by simp⟩
    · simp only [firstFailing, if_true] at h
      obtain ⟨pre, post, rfl, hp⟩ := ih h
      exact ⟨(true, code') :: pre, post, rfl, by simpa using hp⟩

/-- The state a start leaves before the unit's registers are set. -/
theorem latchStart_eq_startedState (opc : BitVec 4) (s : State) :
    { latchStart opc s with busy := true } = startedState opc s := rfl

/-- The product the checks use is that of `DIM` (R131, R132). -/
theorem pixelBytes_latchStart (opc : BitVec 4) (s : State) : pixelBytes (latchStart opc s) = dimBytes s := rfl

end Sys2Proof.Machine
end

