-- ==== Sys2Proof/Tests/Slice0.lean ====
section
/-! SUPPORT. Tests of single steps against the spec's own examples, and for every statement with hypotheses a concrete state
and operands that meet them. Expected values are written from spec/, never from the model. -/

namespace Sys2Proof.Tests

open Sys2Proof Sys2Proof.Machine

/-! ## Operands an encoding cannot hold -/

theorem test_illformed_reservedCmd_opcode : ¬ (Instr.reservedCmd 0x00000007#32).WellFormed := by decide
theorem test_wellformed_reservedCmd_opcode : (Instr.reservedCmd 0x00000008#32).WellFormed := by decide
theorem test_wellformed_reservedCmd_zero : (Instr.reservedCmd 0x00000010#32).WellFormed := by decide
theorem test_illformed_diff_red : ¬ (Instr.diff 2 0 0).WellFormed := by decide
theorem test_illformed_diff_green : ¬ (Instr.diff 0 (-3) 0).WellFormed := by decide
theorem test_illformed_diff_blue : ¬ (Instr.diff 0 0 2).WellFormed := by decide
theorem test_illformed_luma_green : ¬ (Instr.luma 32 0 0).WellFormed := by decide
theorem test_illformed_luma_green_low : ¬ (Instr.luma (-33) 0 0).WellFormed := by decide
theorem test_illformed_luma_red : ¬ (Instr.luma 0 8 0).WellFormed := by decide
theorem test_illformed_luma_blue : ¬ (Instr.luma 0 0 (-9)).WellFormed := by decide
theorem test_illformed_run_zero : ¬ (Instr.run 0).WellFormed := by decide
theorem test_illformed_run_63 : ¬ (Instr.run 63).WellFormed := by decide

/-! ## Decoding, one word or byte sequence for every constructor (30_encoding.md R92 to R103, R113) -/

theorem test_decode_nop : decode .cmd [0x00, 0x00, 0x00, 0x00] = .ok (.nop, []) := by decide
theorem test_decode_lzwCompress : decode .cmd [0x01, 0x00, 0x00, 0x00] = .ok (.lzwCompress, []) := by decide
theorem test_decode_qoiCompress : decode .cmd [0x02, 0x00, 0x00, 0x00] = .ok (.qoiCompress, []) := by decide
theorem test_decode_qoiDecompress : decode .cmd [0x03, 0x00, 0x00, 0x00] = .ok (.qoiDecompress, []) := by decide
theorem test_decode_bmpEncode24 : decode .cmd [0x04, 0x00, 0x00, 0x00] = .ok (.bmpEncode24, []) := by decide
theorem test_decode_bmpEncode32 : decode .cmd [0x05, 0x00, 0x00, 0x00] = .ok (.bmpEncode32, []) := by decide
theorem test_decode_ack : decode .cmd [0x06, 0x00, 0x00, 0x00] = .ok (.ack, []) := by decide
theorem test_decode_abort : decode .cmd [0x07, 0x00, 0x00, 0x00] = .ok (.abort, []) := by decide
/-- Opcode 9, and bit 4 of the word set beside opcode 1 (R93). -/
theorem test_decode_reservedCmd :
    decode .cmd [0x09, 0x00, 0x00, 0x00] = .ok (.reservedCmd 0x00000009#32, []) ∧
      decode .cmd [0x11, 0x00, 0x00, 0x80] = .ok (.reservedCmd 0x80000011#32, []) := by decide
/-- `FE 0A 14 1E` and the `C0` after it (R241). -/
theorem test_decode_rgb : decode .chunk [0xFE, 0x0A, 0x14, 0x1E, 0xC0] = .ok (.rgb 10 20 30, [0xC0]) := by decide
theorem test_decode_rgba : decode .chunk [0xFF, 0x0A, 0x14, 0x1E, 0x00] = .ok (.rgba 10 20 30 0, []) := by decide
theorem test_decode_index : decode .chunk [0b00001001] = .ok (.index 9, []) := by decide
/-- `DIFF -2, 1, 0` is `0x4E` (R113), `DIFF 1,1,-1` is `7D` (R241). -/
theorem test_decode_diff :
    decode .chunk [0b01001110] = .ok (.diff (-2) 1 0, []) ∧ decode .chunk [0x7D] = .ok (.diff 1 1 (-1), []) := by decide
/-- `BD 8A` is `LUMA 29,0,2` (R241), `80 00` is `LUMA -32,-8,-8` (R256). -/
theorem test_decode_luma :
    decode .chunk [0b10111101, 0b10001010] = .ok (.luma 29 0 2, []) ∧
      decode .chunk [0x80, 0x00] = .ok (.luma (-32) (-8) (-8), []) := by decide
theorem test_decode_run : decode .chunk [0b11111101] = .ok (.run 62, []) ∧ decode .chunk [0xC0] = .ok (.run 1, []) := by
  decide

theorem test_reject_empty : decode .chunk [] = .error .empty ∧ decode .cmd [] = .error .empty := by decide
theorem test_reject_truncated :
    decode .chunk [0xFE, 0x01, 0x02] = .error .truncated ∧ decode .chunk [0x80] = .error .truncated ∧
      decode .chunk [0xFF, 0, 0, 0] = .error .truncated ∧ decode .cmd [1, 0, 0] = .error .truncated := by decide

theorem test_tableWord :
    decodeTableWord 32 0x00000003 = some .qoiDecompress ∧ decodeTableWord 32 0x1E140AFE = some (.rgb 10 20 30) ∧
      decodeTableWord 40 0x001E140AFF = some (.rgba 10 20 30 0) ∧ decodeTableWord 16 0x8ABD = some (.luma 29 0 2) ∧
      decodeTableWord 8 0x4E = some (.diff (-2) 1 0) ∧ decodeTableWord 32 0x00000008 = some (.reservedCmd 8) := by decide

/-! ## One step of every chunk, from the start state (the examples of 44_qoi_decompress.md) -/

/-- A running decompressor with the given bytes as its input, and `w` pixels to produce. -/
def decompressing (w : BitVec 16) (bytes : List Byte) : State :=
  { State.reset with
    busy := true
    op := 3
    outFree := false
    inMem := Memory.writeAll [] 0 bytes
    lat := { Latches.zero with opl := 3, w := w, h := 1, len := BitVec.ofNat 32 bytes.length, n := w.setWidth 32 }
    work := { Work.zero with qoi := qoiStartRegs 0 } }

/-- The state a step leads to. -/
def after (o : Host.Outcome State Fault Refusal) : Option State :=
  match o with
  | .next t => some t
  | .fault _ => none
  | .refused _ => none

/-- OUT and the cursor after one step. -/
def outAfter (s : State) : Option (List Nat × Nat) :=
  (after (step s)).map fun t => (t.outMem.map (·.2.toNat), t.inPos.toNat)

theorem test_step_rgb : outAfter (decompressing 9 [0xFE, 0xC8, 0x64, 0x32]) = some ([0xC8, 0x64, 0x32, 0xFF], 4) := by decide
/-- `RGB` sets `CACHE[31]` (R257). -/
theorem test_step_rgb_cache :
    (after (step (decompressing 9 [0xFE, 0xC8, 0x64, 0x32]))).map (fun t => cacheRead t.work.qoi.cache 31)
      = some ⟨0xC8, 0x64, 0x32, 0xFF⟩ := by decide
theorem test_step_rgba :
    outAfter (decompressing 9 [0xFF, 0xC8, 0x64, 0x32, 0x80]) = some ([0xC8, 0x64, 0x32, 0x80], 5) := by decide
theorem test_step_index : outAfter (decompressing 9 [0x05]) = some ([0, 0, 0, 0], 1) := by decide
theorem test_step_diff : outAfter (decompressing 9 [0x4B]) = some ([0xFE, 0x00, 0x01, 0xFF], 1) := by decide
theorem test_step_luma : outAfter (decompressing 9 [0x80, 0x00]) = some ([0xD8, 0xE0, 0xD8, 0xFF], 2) := by decide
theorem test_step_run :
    outAfter (decompressing 9 [0xC1]) = some ([0x00, 0x00, 0x00, 0xFF, 0x00, 0x00, 0x00, 0xFF], 1) := by decide
/-- `C2` with `N = 2` is `DecodeError(0)` (R266 d). -/
theorem test_step_run_overshoot :
    (after (step (decompressing 2 [0xC2]))).map (fun t => (t.err, t.faultInfo, t.busy, t.outLen)) = some (4, 0, false, 0) := by
  decide
/-- `FE 01 02` with `N = 1` is `DecodeError(3)` (R266 c). -/
theorem test_step_truncated :
    (after (step (decompressing 1 [0xFE, 0x01, 0x02]))).map (fun t => (t.err, t.faultInfo)) = some (4, 3) := by decide
/-- The last chunk completes the operation (R143, R252). -/
theorem test_step_completes :
    (after (step (decompressing 1 [0x05, 0x07]))).map (fun t => (t.busy, t.done, t.inPos, t.outLen))
      = some (false, true, 1, 4) := by decide

/-- A row's word placed after reset runs as the first instruction. -/
theorem test_fetch_word_chunk :
    outAfter (State.reset.withFetchWord 40 0x801E140AFF) = some ([0x0A, 0x14, 0x1E, 0x80], 5) := by decide
theorem test_fetch_word_command :
    (after (step (State.reset.withFetchWord 32 0x00000009))).map (fun t => (t.err, t.faultInfo)) = some (1, 9) := by decide

/-! ## One step of every command -/

theorem test_nop_while_busy : exec .nop (decompressing 1 [0x05]) = .next (decompressing 1 [0x05]) := by rfl

/-- `LZWCFG = 2`, no input (R181): `NEXT = 6`, `CSIZE = 3`. -/
theorem test_lzwCompress_starts :
    (after (exec .lzwCompress { State.reset with colorBits := 2 })).map
        (fun t => (t.busy, t.op, t.work.lzw.next, t.work.lzw.csize)) = some (true, 1, 6, 3) := by decide
/-- `COLORBITS = 9` is sub-code 1 (R283). -/
theorem test_lzwCompress_colorBits_9 :
    (after (exec .lzwCompress { State.reset with colorBits := 9 })).map (fun t => (t.busy, t.err, t.faultInfo, t.op))
      = some (false, 2, 1, 1) := by decide

/-- `W = 65535`, `H = 65535`: the product does not fit `LEN` (R132). -/
theorem test_qoiCompress_large :
    (after (exec .qoiCompress { State.reset with dim := 0xFFFFFFFF, inLen := 0xFFF80004 })).map (fun t => (t.err, t.faultInfo))
      = some (2, 2) := by decide
theorem test_qoiCompress_starts :
    (after (exec .qoiCompress { State.reset with dim := 0x00020001, inLen := 8, deltaEn := false })).map
        (fun t => (t.busy, t.lat.n, t.lat.den, t.work.qoi.prevpx)) = some (true, 2, false, ⟨0, 0, 0, 255⟩) := by decide
/-- `4*W*H = 1028 > OUT_CAP = 1024` is sub-code 4 (R283). -/
theorem test_qoiDecompress_no_room :
    (after (exec .qoiDecompress { State.reset with dim := 0x00010101 })).map (fun t => (t.err, t.faultInfo)) = some (2, 4) := by
  decide
theorem test_qoiDecompress_starts :
    (after (exec .qoiDecompress { State.reset with dim := 0x00010100, inLen := 1024 })).map (fun t => (t.busy, t.lat.n))
      = some (true, 0x100) := by decide
theorem test_bmpEncode24_starts :
    (after (exec .bmpEncode24 { State.reset with dim := 0x00010003, inLen := 12 })).map
        (fun t => (t.busy, t.work.bmp.padn, t.work.bmp.row)) = some (true, 3, 0) := by decide
theorem test_bmpEncode32_starts :
    (after (exec .bmpEncode32 { State.reset with dim := 0x00040003, inLen := 48 })).map
        (fun t => (t.busy, t.work.bmp.padn, t.work.bmp.row)) = some (true, 0, 3) := by decide
/-- `ACK` keeps `OUT_LEN`, `IN_POS`, `ALLT`, `OP` (R139). -/
theorem test_ack_done :
    (after (exec .ack { State.reset with done := true, allt := true, op := 4, outLen := 58, inPos := 4 })).map
        (fun t => (t.statusWord, t.outLen, t.inPos)) = some (0x404, 58, 4) := by decide
theorem test_ack_faulted :
    (after (exec .ack { State.reset with err := 5, op := 4, faultInfo := 7 })).map (fun t => (t.statusWord, t.faultInfo))
      = some (0x400, 0) := by decide
theorem test_abort_busy :
    (after (exec .abort { decompressing 9 [0x05] with ie := true, inPos := 1, allt := true })).map
        (fun t => (t.statusWord, t.inPos, t.ie)) = some (0x300, 0, true) := by decide
theorem test_reservedCmd_busy :
    (after (exec (.reservedCmd 0xFFFFFFFF) (decompressing 9 [0x05]))).map (fun t => (t.busy, t.err)) = some (true, 0) := by
  decide

/-- A reserved word written at `REG_BASE`, a byte at the last address of the IN window, and one behind every window. -/
theorem test_bus_write :
    (after (step { State.reset with host := [.busWrite 0 4 9] })).map (fun t => (t.err, t.faultInfo)) = some (1, 9) ∧
      (after (step { State.reset with host := [.busWrite 0x13FF 1 7] })).map (fun t => t.inMem) = some [(1023, 7)] ∧
      after (step { State.reset with host := [.busWrite 0x1800 1 7] }) = none := by decide
/-- `QOICFG` read at `REG_BASE + 0x14` (R29). -/
theorem test_bus_read :
    (after (step { State.reset with host := [.busRead 0x14 4] })).map (fun t => t.rdata) = some 1 := by decide

/-! ## One step of the other units -/

/-- A running `QOI_COMPRESS` of one row of pixels. -/
def compressing (w : BitVec 16) (bytes : List Byte) : State :=
  { decompressing w bytes with
    op := 2
    lat := { (decompressing w bytes).lat with opl := 2, den := true } }

/-- The first pixel of R241 is `RGB 10,20,30`. -/
theorem test_compress_rgb : outAfter (compressing 1 [10, 20, 30, 255]) = some ([0xFE, 0x0A, 0x14, 0x1E], 4) := by decide
/-- A first zero pixel is `INDEX 0` (R240 c). -/
theorem test_compress_index : outAfter (compressing 1 [0, 0, 0, 0]) = some ([0x00], 4) := by decide
/-- A pending run goes first: `C0`, then `7D` for differences 1,1,-1 (R241, pixel 3). -/
theorem test_compress_run_diff :
    outAfter { compressing 1 [11, 21, 29, 255] with
      work := { Work.zero with qoi := { qoiStartRegs 1 with prevpx := ⟨10, 20, 30, 255⟩ } } } = some ([0xC0, 0x7D], 4) := by
  decide
/-- No pixel: the padding alone (R240 a). -/
theorem test_compress_end : outAfter (compressing 0 []) = some ([0, 0, 0, 0, 0, 0, 0, 1], 0) := by decide

/-- A running `LZW_COMPRESS`. -/
def packing (cb : BitVec 4) (bytes : List Byte) : State :=
  { decompressing 0 bytes with
    op := 1
    lat := { Latches.zero with opl := 1, cb := cb, len := BitVec.ofNat 32 bytes.length }
    work := { Work.zero with lzw := lzwStartRegs cb Work.zero.lzw } }

/-- The start step writes the leading byte and packs `CLEAR` (R183). -/
theorem test_lzw_start_step :
    (after (step (packing 8 [65]))).map (fun t => (t.outMem, t.work.lzw.acc, t.work.lzw.nbits, t.work.lzw.blk[0]))
      = some ([(0, 8)], 1, 1, 0) := by decide +kernel
/-- After the start step of `CB = 2` with no input: `02 01 2C` (R196). -/
theorem test_lzw_end_step :
    outAfter { packing 2 [] with
      outMem := [(0, 2)]
      outLen := 1
      work := { Work.zero with lzw := { lzwStartRegs 2 Work.zero.lzw with acc := 4, nbits := 3 } } }
      = some ([0x02, 0x01, 0x2C], 0) := by decide +kernel
/-- A symbol that is not below `CLEAR = 4` at address 0 (R185). -/
theorem test_lzw_symbol_error :
    (after (step { packing 2 [4] with outMem := [(0, 2)], outLen := 1 })).map (fun t => (t.err, t.faultInfo))
      = some (3, 0) := by decide
/-- The codes of `BABAABAAA`, nine bits each, and the stream (R199). -/
theorem test_lzw_known_codes :
    Functions.lzwCodes 4095 8 [66, 65, 66, 65, 65, 66, 65, 65, 65]
      = [(256, 9), (66, 9), (65, 9), (258, 9), (259, 9), (65, 9), (262, 9), (257, 9)] := by decide
theorem test_lzw_known_stream :
    Functions.lzwStream 4095 8 [66, 65, 66, 65, 65, 66, 65, 65, 65]
      = [0x08, 0x09, 0x00, 0x85, 0x04, 0x11, 0x38, 0x30, 0x88, 0xC1, 0x80] := by decide +kernel

/-- A running `BMP_ENCODE24`, past its headers, at column `col` of its only row. -/
def drawing (w col : BitVec 16) (bytes : List Byte) : State :=
  { decompressing w bytes with
    op := 4
    allt := true
    outLen := 54
    lat := { (decompressing w bytes).lat with opl := 4 }
    work := { Work.zero with bmp := { row := 0, col := col, padn := w.setWidth 2 } } }

/-- The middle pixel of R166: `06 05 04`. -/
theorem test_bmp_pixel :
    outAfter (drawing 3 1 [1, 2, 3, 0, 4, 5, 6, 0, 7, 8, 9, 0]) = some ([6, 5, 4], 0) := by decide
/-- The padding of R166, then completion with `IN_POS = LEN` and `ALLT = 1`. -/
theorem test_bmp_padding :
    (after (step (drawing 3 3 [1, 2, 3, 0, 4, 5, 6, 0, 7, 8, 9, 0]))).map (fun t => (t.statusWord, t.inPos, t.outLen))
      = some (0x406, 12, 57) := by decide
/-- The pixel array of R166. -/
theorem test_bmp_rows :
    Functions.bmpRows .bmp24 3 (fun k => [⟨1, 2, 3, 0⟩, ⟨4, 5, 6, 0⟩, ⟨7, 8, 9, 0⟩].getD k ⟨0, 0, 0, 0⟩) 1
      = [3, 2, 1, 6, 5, 4, 9, 8, 7, 0, 0, 0] := by decide

/-! ## Valid states for the statements about valid states -/

/-- An idle block with an input in place and its registers written. -/
def ready (cap : Word) (dim : Word) (cb : BitVec 4) (bytes : List Byte) : State :=
  { State.reset with
    cfg := { Config.standard with outCap := cap }
    dim := dim
    colorBits := cb
    inLen := BitVec.ofNat 32 bytes.length
    inMem := Memory.writeAll [] 0 bytes }

theorem memory_of_bytes (bytes : List Byte) (h : bytes.length ≤ 1024) :
    (Memory.writeAll [] 0 bytes).wf ∧ ∀ c ∈ Memory.writeAll [] 0 bytes, c.1 < 1024 := by
  refine ⟨Memory.writeAll_wf (by simp) 0 bytes, fun c hc => ?_⟩
  rcases Memory.mem_writeAll hc with h' | h'
  · omega
  · cases h'

theorem ready_inv (cap dim : Word) (cb : BitVec 4) (bytes : List Byte) (hc : 1 ≤ cap.toNat) (h : bytes.length ≤ 1024) :
    (ready cap dim cb bytes).Inv where
  config := ⟨(by decide : 1 ≤ 1024), hc, .inl rfl, .inl (by decide : 0 + 4096 ≤ 0x1000), .inl (by decide : 0 + 4096 ≤ 0x1400),
    .inl (by decide : 0x1000 + 1024 ≤ 0x1400)⟩
  memory :=
    { inWf := (memory_of_bytes bytes h).1
      outWf := by simp [ready, State.reset, State.resetWith]
      inBound := (memory_of_bytes bytes h).2
      outBound := by simp [ready, State.reset, State.resetWith]
      outKnown := by simp [ready, State.reset, State.resetWith]
      outFits := by simp [ready, State.reset, State.resetWith] }
  status := by constructor <;> simp [ready, State.reset, State.resetWith]
  operation := by simp [ready, State.reset, State.resetWith]

theorem decompressing_inv (raced : Bool) (w : BitVec 16) (bytes : List Byte) (hw : w.toNat ≤ 256) (h : bytes.length ≤ 1024) :
    { decompressing w bytes with inRaced := raced }.Inv where
  config := (by decide : Config.standard.wf)
  memory :=
    { inWf := (memory_of_bytes bytes h).1
      outWf := by simp [decompressing, State.reset, State.resetWith]
      inBound := (memory_of_bytes bytes h).2
      outBound := by simp [decompressing, State.reset, State.resetWith]
      outKnown := by simp [decompressing, State.reset, State.resetWith]
      outFits := by simp [decompressing, State.reset, State.resetWith] }
  status := by constructor <;> simp [decompressing, State.reset, State.resetWith]
  operation := fun _ =>
    { opcode := ⟨rfl, (by decide : 1 ≤ 3), (by decide : 3 ≤ 5)⟩
      count := by simp [decompressing]; omega
      input := by
        simp only [decompressing, State.reset, State.resetWith, Config.standard, BitVec.toNat_ofNat]
        omega
      cursor := Nat.zero_le _
      pixelInput := by intro h; exact absurd h (by simp [decompressing])
      lzw := by intro h; exact absurd h (by simp [decompressing])
      compress := by intro h; exact absurd h (by simp [decompressing])
      decompress := fun _ =>
        { fits := by
            simp only [decompressing, State.reset, State.resetWith, Config.standard, BitVec.toNat_setWidth,
              BitVec.toNat_ofNat]
            omega
          pixels := Nat.zero_le _
          output := rfl
          cache := .inr ⟨rfl, rfl⟩ }
      bmp := by intro h; exact absurd h (by simp [decompressing]) }

/-! ## Witnesses: for every statement with hypotheses, values that meet them, each clause at a boundary -/

theorem witness_DecodeOfEncodeIsIdentity :
    (Instr.diff (-2) 1 0).WellFormed ∧ (Instr.luma 31 (-8) 7).WellFormed ∧ (Instr.run 62).WellFormed ∧
      (Instr.reservedCmd 0x80000000#32).WellFormed := by decide

theorem witness_EncodeOfDecodeIsIdentity :
    decode .chunk [0xFD, 0x01] = .ok (.run 62, [0x01]) ∧ decode .cmd [0x08, 0, 0, 0] = .ok (.reservedCmd 8, []) := by decide

theorem witness_EveryTagByteStartsAChunk :
    ([] : List Byte).length = payloadLength 0x00 ∧ ([] : List Byte).length = payloadLength 0x3F ∧
      ([] : List Byte).length = payloadLength 0x40 ∧ ([] : List Byte).length = payloadLength 0x7F ∧
      ([0] : List Byte).length = payloadLength 0x80 ∧ ([0] : List Byte).length = payloadLength 0xBF ∧
      ([] : List Byte).length = payloadLength 0xC0 ∧ ([] : List Byte).length = payloadLength 0xFD ∧
      ([0, 0, 0] : List Byte).length = payloadLength 0xFE ∧ ([0, 0, 0, 0] : List Byte).length = payloadLength 0xFF := by decide

/-- The state in which the host's next access is a write to `CMD`. -/
def writing (s : State) (v : Word) : State := { s with host := [.regWrite offCmd 4 v] }

theorem witness_ReservedWordsRaiseOrAreIgnored :
    isReservedCmd 0x00000008#32 ∧ isReservedCmd 0x00000010#32 ∧ ¬ isReservedCmd 0x00000007#32 ∧
      (writing State.reset 8).host = [.regWrite offCmd 4 8] ∧ (writing State.reset 8).busy = false ∧
      (writing (decompressing 1 []) 8).host = [.regWrite offCmd 4 8] ∧ (writing (decompressing 1 []) 8).busy = true := by decide

theorem witness_StepRunsWrittenCommand : (writing State.reset 3).host = .regWrite offCmd 4 3 :: [] := by decide

theorem witness_StepRunsFetchedChunk :
    let s := decompressing 1 [0xFE, 0x01, 0x02, 0x03]
    s.host = [] ∧ s.busy = true ∧ s.inRaced = false ∧ s.lat.opl = 3#4 ∧ s.work.qoi.pixn.toNat < s.lat.n.toNat ∧
      s.inPos.toNat + 4 ≤ s.lat.len.toNat ∧
      decode .chunk ((List.range 4).map (fun j => inByte s (s.inPos.toNat + j))) = .ok (.rgb 1 2 3, []) := by decide

theorem witness_AckLeavesDoneOrFaulted :
    let done := { State.reset with done := true }
    let faulted := { State.reset with err := 5#4 }
    (done.busy = false ∧ (done.done = true ∨ done.err ≠ 0#4)) ∧
      (faulted.busy = false ∧ (faulted.done = true ∨ faulted.err ≠ 0#4)) ∧
      (State.reset.busy = false ∧ State.reset.done = false ∧ State.reset.err = 0#4) ∧
      (decompressing 1 []).busy = true := by decide

theorem witness_ReservedCommandRaisesCmdError : State.reset.busy = false := by decide

theorem witness_BusyIgnoresCommands :
    Instr.ack.format = .cmd ∧ Instr.ack ≠ .abort ∧ (decompressing 1 []).busy = true := by decide

theorem witness_LzwCompressStarts :
    let s := { State.reset with colorBits := 1#4, inLen := 1024#32 }
    let t := { State.reset with colorBits := 8#4 }
    (s.busy = false ∧ 1 ≤ s.colorBits.toNat ∧ s.colorBits.toNat ≤ 8 ∧ s.inLen.toNat ≤ s.cfg.inSize) ∧
      (t.busy = false ∧ 1 ≤ t.colorBits.toNat ∧ t.colorBits.toNat ≤ 8 ∧ t.inLen.toNat ≤ t.cfg.inSize) := by decide

/-- `4 * 256 * 1 = 1024`, the input, the IN space and the OUT space alike. -/
def fullPicture : State := { State.reset with dim := 0x00010100#32, inLen := 1024#32 }

theorem witness_QoiCommandsStart :
    fullPicture.busy = false ∧ fullPicture.inLen.toNat ≤ fullPicture.cfg.inSize ∧
      dimBytes fullPicture = fullPicture.inLen.toNat ∧ dimBytes fullPicture ≤ fullPicture.cfg.outCap.toNat := by decide

theorem witness_BmpCommandsStart :
    fullPicture.busy = false ∧ fullPicture.inLen.toNat ≤ fullPicture.cfg.inSize ∧
      dimBytes fullPicture = fullPicture.inLen.toNat := by decide

theorem witness_FirstFailingCheckRaisesCfgError :
    let zero := State.reset
    let nine := { State.reset with colorBits := 9#4 }
    let long := { State.reset with colorBits := 8#4, inLen := 1025#32, dim := 0x00010101#32 }
    let longPicture := { State.reset with inLen := 1028#32, dim := 0x00010101#32 }
    let small := { State.reset with inLen := 1024#32, dim := 0x00010101#32 }
    zero.busy = false ∧ ¬ (1 ≤ zero.colorBits.toNat ∧ zero.colorBits.toNat ≤ 8) ∧
      ¬ (1 ≤ nine.colorBits.toNat ∧ nine.colorBits.toNat ≤ 8) ∧
      (1 ≤ long.colorBits.toNat ∧ long.colorBits.toNat ≤ 8 ∧ long.cfg.inSize < long.inLen.toNat) ∧
      dimBytes long ≠ long.inLen.toNat ∧
      (dimBytes longPicture = longPicture.inLen.toNat ∧ longPicture.cfg.inSize < longPicture.inLen.toNat) ∧
      (small.inLen.toNat ≤ small.cfg.inSize ∧ small.cfg.outCap.toNat < dimBytes small) := by decide

theorem witness_StartTakesEffectAtTheWrite : Instr.bmpEncode32 = .bmpEncode32 ∧ State.reset.busy = false := by decide

theorem witness_IrqFollowsOutcomeAndEnable :
    (decompressing 1 []).Inv ∧ (decompressing 1 []).busy = true ∧
      { State.reset with done := true }.done = true ∧ { State.reset with err := 1#4 }.err ≠ 0#4 ∧
      (0xFFFFFFFE#32).getLsbD 0 = false ∧
      (∃ t, exec .qoiDecompress State.reset = .next t ∧ t.busy = true) :=
  ⟨decompressing_inv false 1 [] (by decide) (by decide), rfl, rfl, by decide, by decide, _, rfl, by decide⟩

theorem witness_HardwareResetClearsRegisters : { decompressing 1 [] with host := [.hwReset] }.host = .hwReset :: [] := by decide

/-- A running decompressor whose OUT has `room` bytes left of 1024. -/
def nearlyFull (room : Nat) (w : BitVec 16) (bytes : List Byte) : State :=
  { decompressing w bytes with outLen := BitVec.ofNat 32 (1024 - room) }

theorem witness_EmitAppendsOneByteOrRaises :
    (nearlyFull 0 1 []).cfg.outCap.toNat ≤ (nearlyFull 0 1 []).outLen.toNat ∧
      (nearlyFull 1 1 []).outLen.toNat < (nearlyFull 1 1 []).cfg.outCap.toNat := by decide

/-- The hypothesis of the five statements about a chunk that writes one pixel, with exactly four bytes left. -/
theorem witness_RgbAndRgbaWriteTheirPixel : (nearlyFull 4 1 []).outLen.toNat + 4 ≤ (nearlyFull 4 1 []).cfg.outCap.toNat := by
  decide
theorem witness_IndexWritesTheCachedPixel : (nearlyFull 4 1 []).outLen.toNat + 4 ≤ (nearlyFull 4 1 []).cfg.outCap.toNat := by
  decide
theorem witness_DiffMovesPixelModulo256 : (nearlyFull 4 1 []).outLen.toNat + 4 ≤ (nearlyFull 4 1 []).cfg.outCap.toNat := by
  decide
theorem witness_LumaMovesPixelModulo256 : (nearlyFull 4 1 []).outLen.toNat + 4 ≤ (nearlyFull 4 1 []).cfg.outCap.toNat := by
  decide
theorem witness_WrotePixelUpdatesOutputAndCache :
    (nearlyFull 4 1 []).outLen.toNat + 4 ≤ (nearlyFull 4 1 []).cfg.outCap.toNat := by decide

theorem witness_RunRepeatsPreviousPixel :
    let s := nearlyFull 12 3 []
    (s.work.qoi.pixn.toNat + 3 ≤ s.lat.n.toNat ∧ s.outLen.toNat + 4 * 3 ≤ s.cfg.outCap.toNat) ∧
      s.lat.n.toNat < s.work.qoi.pixn.toNat + 4 := by decide

theorem witness_ChunkWithoutRoomRaisesOutFull :
    let s := nearlyFull 3 62 []
    s.outLen.toNat ≤ s.cfg.outCap.toNat ∧
      (Instr.rgb 1 2 3).format = .chunk ∧ s.cfg.outCap.toNat < s.outLen.toNat + 4 ∧
      (Instr.run 62).format = .chunk ∧ s.work.qoi.pixn.toNat + 62 ≤ s.lat.n.toNat ∧
      s.cfg.outCap.toNat < s.outLen.toNat + 4 * 62 := by decide

theorem witness_TruncatedChunkRaisesDecodeError :
    let s := decompressing 1 []
    let t := decompressing 1 [0xFF, 0, 0, 0]
    (s.host = [] ∧ s.busy = true ∧ s.inRaced = false ∧ s.lat.opl = 3#4 ∧ s.work.qoi.pixn.toNat < s.lat.n.toNat ∧
      s.inPos = s.lat.len) ∧
    (t.host = [] ∧ t.busy = true ∧ t.inRaced = false ∧ t.lat.opl = 3#4 ∧ t.work.qoi.pixn.toNat < t.lat.n.toNat ∧
      t.inPos.toNat < t.lat.len.toNat ∧
      t.lat.len.toNat < t.inPos.toNat + 1 + payloadLength (inByte t t.inPos.toNat)) := by decide

/-- A running compressor with a pending run. -/
def pendingRun (run : BitVec 6) (bytes : List Byte) : State :=
  { compressing 1 bytes with work := { Work.zero with qoi := qoiStartRegs run } }

/-- The hypotheses shared by the statements about a compressor's step. -/
def stepsCompressor (s : State) : Prop := s.host = [] ∧ s.busy = true ∧ s.inRaced = false ∧ s.lat.opl = 2#4

theorem witness_EqualPixelExtendsRun :
    let s := pendingRun 60 [0, 0, 0, 255]
    let t := pendingRun 61 [0, 0, 0, 255]
    (stepsCompressor s ∧ s.work.qoi.pixn.toNat < s.lat.n.toNat ∧ inPixel s s.inPos.toNat = s.work.qoi.prevpx ∧
      s.work.qoi.run.toNat < 61) ∧
    (stepsCompressor t ∧ t.work.qoi.pixn.toNat < t.lat.n.toNat ∧ inPixel t t.inPos.toNat = t.work.qoi.prevpx ∧
      t.work.qoi.run.toNat = 61 ∧ t.outLen.toNat < t.cfg.outCap.toNat) := by
  unfold stepsCompressor; decide

theorem witness_DifferentPixelIsCoded :
    let s := { pendingRun 61 [0, 0, 0, 0] with outLen := 1022#32 }
    let t := { pendingRun 61 [0, 0, 0, 0] with outLen := 1023#32 }
    (stepsCompressor s ∧ s.work.qoi.pixn.toNat < s.lat.n.toNat ∧ inPixel s s.inPos.toNat ≠ s.work.qoi.prevpx ∧
      s.work.qoi.run.toNat ≤ 61 ∧ s.outLen.toNat ≤ s.cfg.outCap.toNat ∧
      s.outLen.toNat + ([0xFC#8] ++ encode (.index 0)).length ≤ s.cfg.outCap.toNat) ∧
    (stepsCompressor t ∧ t.outLen.toNat ≤ t.cfg.outCap.toNat ∧
      t.cfg.outCap.toNat < t.outLen.toNat + ([0xFC#8] ++ encode (.index 0)).length) ∧
    chooseChunk s.lat.den s.work.qoi.prevpx (cacheRead s.work.qoi.cache (qhash (inPixel s 0))) (inPixel s 0) = .index 0 := by
  unfold stepsCompressor; decide

/-- Each chunk at an edge of its range, with an empty slot: differences -2 and 1; green -32 with sides -8 and 7; green 32;
alpha changed; and the slot that holds the pixel. -/
theorem witness_ChunkChoiceFollowsPriority :
    chooseChunk true ⟨10, 10, 10, 9⟩ ⟨0, 0, 0, 0⟩ ⟨8, 11, 10, 9⟩ = .diff (-2) 1 0 ∧
      chooseChunk true ⟨100, 100, 100, 9⟩ ⟨0, 0, 0, 0⟩ ⟨60, 68, 75, 9⟩ = .luma (-32) (-8) 7 ∧
      chooseChunk true ⟨10, 10, 10, 9⟩ ⟨0, 0, 0, 0⟩ ⟨42, 42, 42, 9⟩ = .rgb 42 42 42 ∧
      chooseChunk true ⟨10, 10, 10, 9⟩ ⟨0, 0, 0, 0⟩ ⟨10, 10, 10, 8⟩ = .rgba 10 10 10 8 ∧
      chooseChunk true ⟨10, 10, 10, 9⟩ ⟨0, 0, 0, 1⟩ ⟨0, 0, 0, 1⟩ = .index 11 := by decide

theorem witness_CompressEndStepWritesPadding :
    let s := pendingRun 61 []
    let t := { s with work := { s.work with qoi := { s.work.qoi with pixn := 1#32 } }, outLen := 1015#32 }
    stepsCompressor t ∧ t.lat.n.toNat ≤ t.work.qoi.pixn.toNat ∧ t.work.qoi.run.toNat ≤ 61 ∧
      t.outLen.toNat + 9 ≤ t.cfg.outCap.toNat := by
  unfold stepsCompressor; decide

/-- A running LZW unit past its start step, with a pending code and a table of one entry. -/
def matching (next : BitVec 13) (blkn : BitVec 8) (bytes : List Byte) : State :=
  { packing 2 bytes with
    outMem := [(0, 2)]
    outLen := 1
    work := { Work.zero with
      lzw := { lzwStartRegs 2 Work.zero.lzw with
        prevv := true, prev := 1, next := next, csize := 12, tab := [⟨1, 2, 6⟩], acc := 4, nbits := 7, blkn := blkn } } }

theorem matching_lzwOk (next : BitVec 13) (blkn : BitVec 8) (bytes : List Byte) (h1 : 7 ≤ next.toNat)
    (h2 : next.toNat ≤ 4095) (h3 : blkn.toNat ≤ 254) : LzwOk (matching next blkn bytes) where
  cbRange := (by decide : 1 ≤ 2 ∧ 2 ≤ 8)
  nextRange := ⟨Nat.le_trans (by decide : lzwEnd 2 + 1 ≤ 7) h1, h2⟩
  widthRange := (by decide : 2 + 1 ≤ 12 ∧ 12 ≤ 12)
  nextFits := Nat.le_trans h2 (by decide : 4095 ≤ 2 ^ 12)
  tabRange := by
    intro e he
    obtain rfl : e = ⟨1, 2, 6⟩ := by simpa [matching] using he
    exact ⟨(by decide : lzwEnd 2 + 1 ≤ 6), Nat.lt_of_lt_of_le (by decide : 6 < 7) h1⟩
  tabInjective := by simp [matching]
  tabKeys := by simp [matching]
  prevRange := fun _ => ⟨Nat.lt_of_lt_of_le (by decide : 1 < 7) h1, (by decide : 1 ≠ lzwClear 2), (by decide : 1 ≠ lzwEnd 2)⟩
  bitsRange := (by decide : 7 ≤ 7)
  accClear := (by decide : 4 < 2 ^ 7)
  blockRange := h3

/-- The hypotheses shared by the statements about an LZW symbol step. -/
def stepsLzw (s : State) : Prop :=
  s.host = [] ∧ s.busy = true ∧ s.inRaced = false ∧ s.lat.opl = 1#4 ∧ s.outLen ≠ 0#32 ∧ s.inPos.toNat < s.lat.len.toNat

theorem witness_LzwSymbolOutOfRangeFaults :
    let s := matching 7 0 [4]
    stepsLzw s ∧ 2 ^ s.lat.cb.toNat ≤ (inByte s s.inPos.toNat).toNat := by
  unfold stepsLzw; decide

theorem witness_LzwMatchGrowsSilently :
    let s := { matching 7 0 [3] with work := Work.zero }
    let t := matching 7 0 [2]
    (stepsLzw s ∧ (inByte s s.inPos.toNat).toNat < 2 ^ s.lat.cb.toNat ∧ s.work.lzw.prevv = false) ∧
    (stepsLzw t ∧ (inByte t t.inPos.toNat).toNat < 2 ^ t.lat.cb.toNat ∧ t.work.lzw.prevv = true ∧
      ⟨1, 2, 6⟩ ∈ t.work.lzw.tab ∧ 1#12 = t.work.lzw.prev ∧ 2#8 = inByte t t.inPos.toNat ∧ LzwOk t) :=
  ⟨by unfold stepsLzw; decide, by unfold stepsLzw; decide, by decide, by decide, by decide, by decide, by decide,
    matching_lzwOk 7 0 [2] (by decide) (by decide) (by decide)⟩

/-- The last free code value, and a full table. -/
theorem witness_LzwMissEmitsThenInserts :
    let s := matching 4094 0 [3]
    let t := matching 4095 0 [3]
    (stepsLzw s ∧ (inByte s s.inPos.toNat).toNat < 2 ^ s.lat.cb.toNat ∧ s.work.lzw.prevv = true ∧
      (∀ e ∈ s.work.lzw.tab, ¬ (e.code = s.work.lzw.prev ∧ e.sym = inByte s s.inPos.toNat)) ∧
      s.work.lzw.next.toNat < s.cfg.lzwLimit) ∧
    (∃ u, emitCode s.work.lzw.prev { s with inPos := s.inPos + 1#32 } = .ok u) ∧
    (stepsLzw t ∧ t.cfg.lzwLimit ≤ t.work.lzw.next.toNat) ∧
    (∃ u, emitCode t.work.lzw.prev { t with inPos := t.inPos + 1#32 } = .ok u) :=
  ⟨by unfold stepsLzw; decide, ⟨_, rfl⟩, by unfold stepsLzw; decide, ⟨_, rfl⟩⟩

/-- Seven pending bits and a 12-bit code make two bytes: with 252 staged they are 254, with 253 a full sub-block. -/
theorem witness_EmitCodePacksBitsInOrder :
    (LzwOk (matching 7 252 []) ∧ LzwOk (matching 7 253 [])) ∧
      (matching 7 253 []).outLen.toNat + 256 ≤ (matching 7 253 []).cfg.outCap.toNat ∧
      (0xFFF#12).toNat < 2 ^ (matching 7 253 []).work.lzw.csize.toNat :=
  ⟨⟨matching_lzwOk 7 252 [] (by decide) (by decide) (by decide), matching_lzwOk 7 253 [] (by decide) (by decide) (by decide)⟩,
    by decide, by decide⟩

theorem witness_LzwCodeSequenceIsBracketedAndFitsWidths :
    1 ≤ (1#4).toNat ∧ (1#4).toNat ≤ 8 ∧ (∀ x ∈ ([0, 1, 1, 0] : List Byte), x.toNat < 2 ^ (1#4).toNat) ∧
      1 ≤ (8#4).toNat ∧ (8#4).toNat ≤ 8 ∧ (∀ x ∈ ([255] : List Byte), x.toNat < 2 ^ (8#4).toNat) := by decide

theorem witness_BmpHeaderFieldsAtTheirOffsets : 0 < 2 ^ 16 ∧ 65535 < 2 ^ 16 := by decide

/-- The last pixel of a row, the padding of the last row with just enough room, and the padding of an earlier row. -/
theorem witness_BmpStepsFollowRowOrder :
    let s := drawing 3 2 [1, 2, 3, 0, 4, 5, 6, 0, 7, 8, 9, 0]
    let t := { drawing 3 3 [] with outLen := 1021#32 }
    let u := { drawing 3 3 [] with work := { Work.zero with bmp := { row := 1, col := 3, padn := 3 } } }
    (s.host = [] ∧ s.busy = true ∧ s.inRaced = false ∧ s.lat.opl = 4#4 ∧ s.outLen ≠ 0#32 ∧
      s.work.bmp.col.toNat < s.lat.w.toNat ∧ s.outLen.toNat + 3 ≤ s.cfg.outCap.toNat) ∧
    (t.host = [] ∧ t.busy = true ∧ t.inRaced = false ∧ t.lat.opl = 4#4 ∧ t.outLen ≠ 0#32 ∧
      t.lat.w.toNat ≤ t.work.bmp.col.toNat ∧ t.outLen.toNat + t.work.bmp.padn.toNat ≤ t.cfg.outCap.toNat ∧
      t.work.bmp.row = 0#16) ∧
    u.work.bmp.row ≠ 0#16 := by decide

/-- One pixel `(1, 2, 3, 0)`, with room for `cap` bytes of output. -/
def onePixel (cap : Word) : State := ready cap 0x00010001#32 1#4 [1, 2, 3, 0]

/-- The hypotheses of the statements about whole pixel operations. -/
def pixelsReady (i : Instr) (s : State) : Prop :=
  s.Inv ∧ s.busy = false ∧ s.host = [] ∧ dimBytes s = s.inLen.toNat ∧ s.inLen.toNat ≤ s.cfg.inSize ∧ ∃ t, exec i s = .next t

theorem onePixel_ready (i : Instr) (cap : Word) (hc : 1 ≤ cap.toNat) (h : ∃ t, exec i (onePixel cap) = .next t) :
    pixelsReady i (onePixel cap) :=
  ⟨ready_inv cap _ _ _ hc (by decide), rfl, rfl,
    (by decide : dimBytes (onePixel 1) = (onePixel 1).inLen.toNat), (by decide : 4 ≤ 1024), h⟩

/-- A file of 58 bytes, in an OUT of 58 bytes and in one of 57; and BMP32. -/
theorem witness_BmpOperationWritesTheFile :
    pixelsReady .bmpEncode24 (onePixel 58) ∧ pixelsReady .bmpEncode24 (onePixel 57) ∧
      pixelsReady .bmpEncode32 (onePixel 126) ∧
      (Functions.bmpFile (onePixel 58).cfg .bmp24 1 1 (fun k => inPixel (onePixel 58) (4 * k))).length = 58 :=
  ⟨onePixel_ready _ 58 (by decide) ⟨_, rfl⟩, onePixel_ready _ 57 (by decide) ⟨_, rfl⟩,
    onePixel_ready _ 126 (by decide) ⟨_, rfl⟩, by decide⟩

/-- A stream of 13 bytes, in an OUT of 13 bytes and in one of 12. -/
theorem witness_QoiCompressWritesTheStream :
    pixelsReady .qoiCompress (onePixel 13) ∧ pixelsReady .qoiCompress (onePixel 12) ∧
      (Functions.qoiCompress true (inPixels (onePixel 13) 1)).length = 13 :=
  ⟨onePixel_ready _ 13 (by decide) ⟨_, rfl⟩, onePixel_ready _ 12 (by decide) ⟨_, rfl⟩, by decide⟩

/-- One `INDEX` for one pixel, and an empty stream for one pixel (R266 b). -/
theorem witness_QoiDecompressComputesItsFunction :
    let s := ready 4 0x00010001#32 0#4 [0x05]
    let t := ready 4 0x00010001#32 0#4 []
    (s.Inv ∧ s.busy = false ∧ s.host = [] ∧ s.inLen.toNat ≤ s.cfg.inSize ∧ dimBytes s ≤ s.cfg.outCap.toNat ∧
      (∃ u, exec .qoiDecompress s = .next u) ∧
      Functions.qoiDecompress 1 (inBytes s s.inLen.toNat) = .ok [⟨0, 0, 0, 0⟩] 1) ∧
    (t.Inv ∧ t.busy = false ∧ t.host = [] ∧ t.inLen.toNat ≤ t.cfg.inSize ∧ dimBytes t ≤ t.cfg.outCap.toNat ∧
      (∃ u, exec .qoiDecompress t = .next u) ∧
      Functions.qoiDecompress 1 (inBytes t t.inLen.toNat) = .decodeError 0) :=
  ⟨⟨ready_inv _ _ _ _ (by decide) (by decide), rfl, rfl, by decide, by decide, ⟨_, rfl⟩, by decide⟩,
    ready_inv _ _ _ _ (by decide) (by decide), rfl, rfl, by decide, by decide, ⟨_, rfl⟩, by decide⟩

theorem witness_QoiRoundTripRestoresPixels : Functions.qoiDecompress 1 [0xC0] = .ok [⟨0, 0, 0, 255⟩] 1 := by decide

/-- One symbol 3 with `CB = 2`: a stream of 4 bytes (R201 a), in an OUT of 4 bytes and in one of 3. -/
theorem witness_LzwCompressWritesTheStream :
    let s := ready 4 0#32 2#4 [3]
    let t := ready 3 0#32 2#4 [3]
    (s.Inv ∧ s.busy = false ∧ s.host = [] ∧ 1 ≤ s.colorBits.toNat ∧ s.colorBits.toNat ≤ 8 ∧
      s.inLen.toNat ≤ s.cfg.inSize ∧ (∀ a, a < s.inLen.toNat → (inByte s a).toNat < 2 ^ s.colorBits.toNat) ∧
      (∃ u, exec .lzwCompress s = .next u) ∧
      Functions.lzwStream s.cfg.lzwLimit s.colorBits (inBytes s s.inLen.toNat) = [0x02, 0x02, 0x5C, 0x01]) ∧
    (t.Inv ∧ ∃ u, exec .lzwCompress t = .next u) :=
  ⟨⟨ready_inv _ _ _ _ (by decide) (by decide), rfl, rfl, by decide, by decide, by decide, by decide, ⟨_, rfl⟩, by decide⟩,
    ready_inv _ _ _ _ (by decide) (by decide), _, rfl⟩

/-- A valid busy state, left to itself. -/
theorem decompressing_valid (w : BitVec 16) (bytes : List Byte) (hw : w.toNat ≤ 256) (h : bytes.length ≤ 1024) :
    (decompressing w bytes).Inv ∧ (decompressing w bytes).busy = true ∧ (decompressing w bytes).host = [] ∧
      (decompressing w bytes).inRaced = false :=
  ⟨decompressing_inv false w bytes hw h, rfl, rfl, rfl⟩

theorem witness_EveryStepKeepsValidity :
    (decompressing 1 [0x05]).Inv ∧ ∃ t, step (decompressing 1 [0x05]) = .next t :=
  ⟨(decompressing_valid 1 [0x05] (by decide) (by decide)).1, _, rfl⟩

theorem witness_EveryOperationEnds :
    (decompressing 1 [0x05]).Inv ∧ (decompressing 1 [0x05]).busy = true ∧ (decompressing 1 [0x05]).host = [] :=
  ⟨(decompressing_valid 1 [0x05] (by decide) (by decide)).1, rfl, rfl⟩

/-- A memory that differs from IN at the first address beyond the input. -/
theorem witness_InputBeyondLengthIsNeverRead :
    (decompressing 1 [0x05]).Inv ∧ (decompressing 1 [0x05]).busy = true ∧
      ∀ a, a < (decompressing 1 [0x05]).lat.len.toNat →
        Memory.read [(0, 0x05), (1, 0xFF)] a = (decompressing 1 [0x05]).inMem.read a :=
  ⟨(decompressing_valid 1 [0x05] (by decide) (by decide)).1, rfl, by decide⟩

theorem witness_ConfigWritesDoNotDisturbOperation : (decompressing 1 [0x05]).busy = true := by decide

theorem witness_EngineNeverWritesInput : ∃ t, engineTurn (decompressing 1 [0x05]) = .next t := ⟨_, rfl⟩

theorem witness_OutputIsAppendOnly :
    (decompressing 1 [0x05]).Inv ∧ (decompressing 1 [0x05]).busy = true ∧ (decompressing 1 [0x05]).inRaced = false ∧
      ∃ t, engineTurn (decompressing 1 [0x05]) = .next t ∧ t.err = 0#4 :=
  ⟨(decompressing_valid 1 [0x05] (by decide) (by decide)).1, rfl, rfl, _, rfl, by decide⟩

theorem witness_RacingInputWriteIsContained :
    { decompressing 1 [0x05] with inRaced := true }.Inv ∧ { decompressing 1 [0x05] with inRaced := true }.busy = true ∧
      { decompressing 1 [0x05] with inRaced := true }.inRaced = true :=
  ⟨decompressing_inv true 1 [0x05] (by decide) (by decide), rfl, rfl⟩

theorem witness_RegisterWritesStoreNamedBits :
    (offStatus ≠ offCmd ∧ offStatus % 4 = 0 ∧ offStatus + 4 ≤ 4096) ∧ (offInLen ≠ offCmd ∧ offInLen % 4 = 0) ∧
      ((0xFFC : Nat) ≠ offCmd ∧ 0xFFC % 4 = 0 ∧ 0xFFC + 4 ≤ 4096) := by decide

theorem witness_RegisterReadsHaveNoSideEffect :
    (offCmd % 4 = 0 ∧ offCmd + 4 ≤ 4096) ∧ (0x28 % 4 = 0 ∧ 0x28 ≤ 0x28) ∧ (0xFFC % 4 = 0 ∧ 0xFFC + 4 ≤ 4096) ∧
      State.reset.busy = false := by decide

/-- The last address of IN, and the one after it. -/
theorem witness_HostWriteStoresOneInputByte :
    { State.reset with host := [.inWrite 1023 7] }.host = .inWrite 1023 7 :: [] ∧ 1023 < State.reset.cfg.inSize ∧
      { State.reset with host := [.inWrite 1024 7] }.host = .inWrite 1024 7 :: [] ∧ State.reset.cfg.inSize ≤ 1024 := by decide

/-- A done block with two bytes of output, whose host reads the last of them, or an address that does not exist. -/
def outputDone (a : Nat) : State :=
  { State.reset with done := true, outFree := false, outMem := [(0, 8), (1, 9)], outLen := 2, host := [.outRead a] }

theorem outputDone_holds (a : Nat) : (outputDone a).holdsOutput [8, 9] := by
  refine ⟨rfl, rfl, fun i hi => ?_⟩
  have : i = 0 ∨ i = 1 := by simp at hi; omega
  rcases this with rfl | rfl <;> rfl

theorem witness_HostReadsTheOutput :
    ((outputDone 1).host = .outRead 1 :: [] ∧ (outputDone 1).busy = false ∧ (outputDone 1).holdsOutput [8, 9] ∧
      ([8, 9] : List Byte).length ≤ (outputDone 1).cfg.outCap.toNat ∧ 1 < ([8, 9] : List Byte).length) ∧
    (outputDone 1024).host = .outRead 1024 :: [] ∧ (outputDone 1024).cfg.outCap.toNat ≤ 1024 :=
  ⟨⟨rfl, rfl, outputDone_holds 1, by decide, by decide⟩, rfl, by decide⟩

end Sys2Proof.Tests
end

section
/-! ## Steps that only append to OUT

What a step of a unit that meets no fault can do to the block outside the unit's own registers, and what of a valid state
survives it. The steps of the three units are compared with the invariants of `State.Inv` through these rules. -/

namespace Sys2Proof.Machine

/-- A result of two computations in sequence comes from a result of the first. -/
theorem Res.bind_ok {α β : Type} {x : Res α} {f : α → Res β} {b : β} (h : x.bind f = .ok b) :
    ∃ a, x = .ok a ∧ f a = .ok b := by
  cases x with
  | error e => cases h
  | ok a => exact ⟨a, rfl, h⟩

theorem Res.map_ok {α β : Type} {x : Res α} {f : α → β} {b : β} (h : x.map f = .ok b) :
    ∃ a, x = .ok a ∧ f a = b := by
  cases x with
  | error e => cases h
  | ok a => exact ⟨a, rfl, Except.ok.inj h⟩

/-- `t` is `s` with bytes appended to OUT within the capacity (R62, R66); beside them only `ALLT`, the cursor and the working
registers may differ. -/
def Appends (s t : State) : Prop :=
  ∃ bs, s.outLen.toNat + bs.length ≤ s.cfg.outCap.toNat ∧
    t = { s.appended bs with allt := t.allt, inPos := t.inPos, work := t.work }

namespace Appends

variable {s t u : State}

theorem cfg_eq (h : Appends s t) : t.cfg = s.cfg := by obtain ⟨bs, -, e⟩ := h; rw [e]; rfl
theorem busy_eq (h : Appends s t) : t.busy = s.busy := by obtain ⟨bs, -, e⟩ := h; rw [e]; rfl
theorem done_eq (h : Appends s t) : t.done = s.done := by obtain ⟨bs, -, e⟩ := h; rw [e]; rfl
theorem err_eq (h : Appends s t) : t.err = s.err := by obtain ⟨bs, -, e⟩ := h; rw [e]; rfl
theorem op_eq (h : Appends s t) : t.op = s.op := by obtain ⟨bs, -, e⟩ := h; rw [e]; rfl
theorem faultInfo_eq (h : Appends s t) : t.faultInfo = s.faultInfo := by obtain ⟨bs, -, e⟩ := h; rw [e]; rfl
theorem lat_eq (h : Appends s t) : t.lat = s.lat := by obtain ⟨bs, -, e⟩ := h; rw [e]; rfl
theorem inMem_eq (h : Appends s t) : t.inMem = s.inMem := by obtain ⟨bs, -, e⟩ := h; rw [e]; rfl
theorem inGen_eq (h : Appends s t) : t.inGen = s.inGen := by obtain ⟨bs, -, e⟩ := h; rw [e]; rfl
theorem inRaced_eq (h : Appends s t) : t.inRaced = s.inRaced := by obtain ⟨bs, -, e⟩ := h; rw [e]; rfl
theorem outFree_eq (h : Appends s t) : t.outFree = s.outFree := by obtain ⟨bs, -, e⟩ := h; rw [e]; rfl

/-- The bytes appended, with `OUT_LEN` counted without overflow. -/
theorem output (h : Appends s t) :
    ∃ bs, t.outLen.toNat = s.outLen.toNat + bs.length ∧ t.outLen.toNat ≤ s.cfg.outCap.toNat ∧
      t.outMem = s.outMem.writeAll s.outLen.toNat bs := by
  obtain ⟨bs, hfit, e⟩ := h
  have hcap := s.cfg.outCap.isLt
  have hlen : t.outLen.toNat = s.outLen.toNat + bs.length := by
    rw [e]; exact s.appended_outLen_toNat bs (by omega)
  exact ⟨bs, hlen, by omega, by rw [e]; rfl⟩

theorem fits (h : Appends s t) : t.outLen.toNat ≤ t.cfg.outCap.toNat := by
  obtain ⟨bs, -, hle, -⟩ := h.output
  rwa [h.cfg_eq]

/-- The pixel at an address of IN is the same. -/
theorem inPixel_eq (h : Appends s t) (a : Nat) : inPixel t a = inPixel s a := by
  simp only [inPixel, inByte, h.inMem_eq, h.inGen_eq]

theorem of_fits {bs : List Byte} (h : s.outLen.toNat + bs.length ≤ s.cfg.outCap.toNat) : Appends s (s.appended bs) :=
  ⟨bs, h, rfl⟩

theorem refl (h : s.outLen.toNat ≤ s.cfg.outCap.toNat) : Appends s s := by
  simpa [State.appended_nil] using of_fits (s := s) (bs := []) (by simpa using h)

/-- What is not written to OUT does not count. -/
theorem touch (h : Appends s t) (allt : Bool) (inPos : Word) (work : Work) :
    Appends s { t with allt := allt, inPos := inPos, work := work } := by
  obtain ⟨bs, hfit, e⟩ := h
  exact ⟨bs, hfit, by rw [e]⟩

theorem setLzw (h : Appends s t) (r : LzwRegs) : Appends s (t.setLzw r) := h.touch _ _ _
theorem setQoi (h : Appends s t) (r : QoiRegs) : Appends s (t.setQoi r) := h.touch _ _ _
theorem setBmp (h : Appends s t) (r : BmpRegs) : Appends s (t.setBmp r) := h.touch _ _ _
theorem advanced (h : Appends s t) (k : Nat) : Appends s (t.advanced k) := h.touch _ _ _

theorem trans (h : Appends s t) (k : Appends t u) : Appends s u := by
  obtain ⟨bs, hfit, e⟩ := h
  obtain ⟨cs, hfit', e'⟩ := k
  have hcap := s.cfg.outCap.isLt
  have hlen := s.appended_outLen_toNat bs (by omega)
  have htwo := State.appended_append s bs cs (by omega)
  rw [e] at hfit' e'
  refine ⟨bs ++ cs, ?_, ?_⟩
  · have : (s.appended bs).outLen.toNat + cs.length ≤ s.cfg.outCap.toNat := hfit'
    simp only [List.length_append]
    omega
  · rw [← htwo]
    exact e'

theorem of_emitAll {bs : List Byte} (hle : s.outLen.toNat ≤ s.cfg.outCap.toNat) (h : emitAll bs s = .ok t) :
    Appends s t ∧ t.work = s.work ∧ t.inPos = s.inPos := by
  obtain ⟨hfit, rfl⟩ := emitAll_ok hle h
  exact ⟨of_fits hfit, rfl, rfl⟩

/-- The bytes emitted are counted without overflow. -/
theorem outLen_of_emitAll {bs : List Byte} (hle : s.outLen.toNat ≤ s.cfg.outCap.toNat) (h : emitAll bs s = .ok t) :
    t.outLen.toNat = s.outLen.toNat + bs.length := by
  obtain ⟨hfit, rfl⟩ := emitAll_ok hle h
  have hcap := s.cfg.outCap.isLt
  exact s.appended_outLen_toNat bs (by omega)

end Appends

/-! ### The parts of validity the units share -/

theorem MemoryOk.of_appends {s t : State} (h : MemoryOk s) (k : Appends s t) : MemoryOk t := by
  obtain ⟨bs, hlen, hle, hmem⟩ := k.output
  constructor
  case inWf => rw [k.inMem_eq]; exact h.inWf
  case outWf => rw [hmem]; exact Memory.writeAll_wf h.outWf _ _
  case inBound => rw [k.inMem_eq, k.cfg_eq]; exact h.inBound
  case outBound =>
    intro c hc
    rw [hmem] at hc
    rcases Memory.mem_writeAll hc with hnew | hold
    · omega
    · have := h.outBound c hold; omega
  case outKnown =>
    intro hfree a ha
    rw [k.outFree_eq] at hfree
    rw [hmem, Memory.read_writeAll]
    split
    · rw [List.getElem?_eq_getElem (by omega)]; rfl
    · exact h.outKnown hfree a (by omega)
  case outFits => exact k.fits

theorem StatusOk.of_appends {s t : State} (h : StatusOk s) (hb : s.busy = true) (k : Appends s t) : StatusOk t := by
  have herr : t.err = 0#4 := by rw [k.err_eq, h.busyNoErr hb]
  constructor
  case busyNotDone => rw [k.busy_eq, k.done_eq]; exact h.busyNotDone
  case busyNoErr => exact fun _ => herr
  case doneNoErr => exact fun _ => herr
  case errRange => rw [herr]; decide
  case infoClear => rw [k.err_eq, k.faultInfo_eq]; exact h.infoClear
  case faultNoOutput => exact fun hne => absurd herr hne
  case racedBusy => rw [k.inRaced_eq, k.busy_eq]; exact h.racedBusy

/-- An operation goes on when its cursor is inside the input and its unit's own invariant holds. -/
theorem OperationOk.of_appends {s t : State} (h : OperationOk s) (k : Appends s t)
    (cursor : t.inPos.toNat ≤ s.lat.len.toNat) (lzw : s.lat.opl = 1#4 → LzwOk t)
    (compress : s.lat.opl = 2#4 → CompressOk t) (decompress : s.lat.opl = 3#4 → DecompressOk t)
    (bmp : s.lat.opl = 4#4 ∨ s.lat.opl = 5#4 → BmpOk t) : OperationOk t := by
  constructor
  case opcode => rw [k.lat_eq, k.op_eq]; exact h.opcode
  case count => rw [k.lat_eq]; exact h.count
  case input => rw [k.lat_eq, k.cfg_eq]; exact h.input
  case cursor => rw [k.lat_eq]; exact cursor
  case pixelInput => rw [k.lat_eq]; exact h.pixelInput
  case lzw => rw [k.lat_eq]; exact lzw
  case compress => rw [k.lat_eq]; exact compress
  case decompress => rw [k.lat_eq]; exact decompress
  case bmp => rw [k.lat_eq]; exact bmp

namespace State.Inv

variable {s t : State}

theorem outFits (h : s.Inv) : s.outLen.toNat ≤ s.cfg.outCap.toNat := h.memory.outFits

/-- A step after which the operation goes on. -/
theorem continues (h : s.Inv) (hb : s.busy = true) (k : Appends s t) (hop : OperationOk t) : t.Inv where
  config := k.cfg_eq ▸ h.config
  memory := h.memory.of_appends k
  status := h.status.of_appends hb k
  operation := fun _ => hop

/-- A step that ends the operation (R143). -/
theorem completes (h : s.Inv) (hb : s.busy = true) (hr : s.inRaced = false) (k : Appends s t) : t.complete.Inv where
  config := k.cfg_eq ▸ h.config
  memory := by
    obtain ⟨h1, h2, h3, h4, h5, h6⟩ := h.memory.of_appends k
    exact ⟨h1, h2, h3, h4, h5, h6⟩
  status := by
    have hs := h.status.of_appends hb k
    have herr : t.err = 0#4 := hs.busyNoErr (k.busy_eq.trans hb)
    have hraced : t.inRaced = false := k.inRaced_eq.trans hr
    constructor
    case errRange => exact hs.errRange
    case infoClear => exact hs.infoClear
    all_goals simp [herr, hraced]
  operation := by simp

/-- Fault entry (R288). -/
theorem raised (h : s.Inv) (f : Raised) : (raise f s).Inv where
  config := h.config
  memory :=
    { inWf := h.memory.inWf
      outWf := List.Pairwise.nil
      inBound := h.memory.inBound
      outBound := by simp
      outKnown := by simp
      outFits := Nat.zero_le _ }
  status := by
    have hcode : f.kind.code ≠ 0#4 ∧ f.kind.code.toNat ≤ 5 := by cases f.kind <;> decide
    constructor <;> simp [hcode]
  operation := by simp

/-- A step of a unit leaves a valid state when it does so where it meets no fault. -/
theorem settled {r : Res State} (h : s.Inv) (hok : ∀ t, r = .ok t → t.Inv) : (settle s r).Inv := by
  cases r with
  | ok t => exact hok t rfl
  | error f => exact h.raised f

end State.Inv

end Sys2Proof.Machine
end

section
/-! ## The LZW unit keeps its invariant

`LzwOk` in two parts: the packer's registers (10_state.md R35, R37; 42_lzw.md R192 to R195), and the code table with the
registers that name codes (R36, R44; R186 to R191). -/

namespace Sys2Proof.Machine

/-- Less than a byte waits in the accumulator, which is clear above it, and the staging buffer is not full. -/
structure PackerOk (l : LzwRegs) : Prop where
  bitsRange : l.nbits.toNat ≤ 7
  accClear : l.acc.toNat < 2 ^ l.nbits.toNat
  blockRange : l.blkn.toNat ≤ 254

/-- The clauses of `LzwOk` about the code table, the next code, the code width and the pending code. -/
structure CodesOk (limit : Nat) (cb : BitVec 4) (l : LzwRegs) : Prop where
  cbRange : 1 ≤ cb.toNat ∧ cb.toNat ≤ 8
  nextRange : lzwEnd cb + 1 ≤ l.next.toNat ∧ l.next.toNat ≤ limit
  widthRange : cb.toNat + 1 ≤ l.csize.toNat ∧ l.csize.toNat ≤ 12
  nextFits : l.next.toNat ≤ 2 ^ l.csize.toNat
  tabRange : ∀ e ∈ l.tab, lzwEnd cb + 1 ≤ e.val.toNat ∧ e.val.toNat < l.next.toNat
  tabInjective : l.tab.Pairwise (fun e f => e.val ≠ f.val)
  tabKeys : l.tab.Pairwise (fun e f => ¬ (e.code = f.code ∧ e.sym = f.sym))
  prevRange : l.prevv = true →
    l.prev.toNat < l.next.toNat ∧ l.prev.toNat ≠ lzwClear cb ∧ l.prev.toNat ≠ lzwEnd cb

theorem lzwOk_iff (s : State) :
    LzwOk s ↔ CodesOk s.cfg.lzwLimit s.lat.cb s.work.lzw ∧ PackerOk s.work.lzw := by
  constructor
  · rintro ⟨h1, h2, h3, h4, h5, h6, h7, h8, h9, h10, h11⟩
    exact ⟨⟨h1, h2, h3, h4, h5, h6, h7, h8⟩, ⟨h9, h10, h11⟩⟩
  · rintro ⟨⟨h1, h2, h3, h4, h5, h6, h7, h8⟩, ⟨h9, h10, h11⟩⟩
    exact ⟨h1, h2, h3, h4, h5, h6, h7, h8, h9, h10, h11⟩

/-! ### The packer -/

theorem flushBlock_ok {s t : State} (hle : s.outLen.toNat ≤ s.cfg.outCap.toNat) (h : flushBlock s = .ok t) :
    Appends s t ∧ t.work.lzw = { s.work.lzw with blkn := 0#8 } := by
  rcases flushBlock_cases hle with ⟨hfit, e⟩ | ⟨-, e⟩ <;> rw [e] at h
  · cases h
    exact ⟨(Appends.of_fits (by rw [List.length_cons, stagedBytes_length]; omega)).setLzw _, rfl⟩
  · cases h

/-- A staged byte leaves the accumulator alone, and never a full buffer (R193). -/
theorem putByte_ok {v : Byte} {s t : State} (hle : s.outLen.toNat ≤ s.cfg.outCap.toNat)
    (hblk : s.work.lzw.blkn.toNat ≤ 254) (h : putByte v s = .ok t) :
    Appends s t ∧ t.work.lzw.blkn.toNat ≤ 254 ∧ t.work.lzw.acc = s.work.lzw.acc ∧
      t.work.lzw.nbits = s.work.lzw.nbits := by
  have hstaged : Appends s (s.staged v) := (Appends.refl hle).setLzw _
  rcases putByte_cases v hblk with ⟨hlt, e⟩ | ⟨-, e⟩ <;> rw [e] at h
  · cases h
    refine ⟨hstaged, ?_, rfl, rfl⟩
    simp only [State.staged, State.setLzw_work, BitVec.toNat_add, BitVec.toNat_ofNat]
    omega
  · obtain ⟨happ, hlzw⟩ := flushBlock_ok (s := s.staged v) hle h
    exact ⟨hstaged.trans happ, by rw [hlzw]; exact Nat.zero_le _, by rw [hlzw]; rfl, by rw [hlzw]; rfl⟩

/-- The state with the low byte of the accumulator gone (R192). -/
def State.drained (s : State) : State :=
  s.setLzw { s.work.lzw with acc := s.work.lzw.acc >>> (8 : Nat), nbits := s.work.lzw.nbits - 8#5 }

theorem drainAcc_succ (fuel : Nat) (s : State) :
    drainAcc (fuel + 1) s =
      if 8 ≤ s.work.lzw.nbits.toNat then
        (putByte (s.work.lzw.acc.extractLsb' 0 8) s).bind fun s1 => drainAcc fuel s1.drained
      else .ok s := rfl

theorem State.drained_nbits {s : State} (h : 8 ≤ s.work.lzw.nbits.toNat) :
    s.drained.work.lzw.nbits.toNat = s.work.lzw.nbits.toNat - 8 :=
  BitVec.toNat_sub_of_le (BitVec.le_def.2 h)

theorem State.drained_acc_lt {s : State} (h : 8 ≤ s.work.lzw.nbits.toNat)
    (hacc : s.work.lzw.acc.toNat < 2 ^ s.work.lzw.nbits.toNat) :
    s.drained.work.lzw.acc.toNat < 2 ^ s.drained.work.lzw.nbits.toNat := by
  rw [State.drained_nbits h]
  simp only [State.drained, State.setLzw_work, BitVec.toNat_ushiftRight, Nat.shiftRight_eq_div_pow]
  rwa [Nat.div_lt_iff_lt_mul (by norm_num), ← Nat.pow_add, Nat.sub_add_cancel h]

/-- Enough rounds leave less than a byte in the accumulator. -/
theorem drainAcc_ok {fuel : Nat} {s t : State} (hle : s.outLen.toNat ≤ s.cfg.outCap.toNat)
    (hblk : s.work.lzw.blkn.toNat ≤ 254) (hacc : s.work.lzw.acc.toNat < 2 ^ s.work.lzw.nbits.toNat)
    (hbits : s.work.lzw.nbits.toNat < 8 * (fuel + 1)) (h : drainAcc fuel s = .ok t) :
    Appends s t ∧ PackerOk t.work.lzw := by
  induction fuel generalizing s with
  | zero => cases h; exact ⟨Appends.refl hle, ⟨by omega, hacc, hblk⟩⟩
  | succ fuel ih =>
    rw [drainAcc_succ] at h
    split at h
    case isFalse hlt => cases h; exact ⟨Appends.refl hle, ⟨by omega, hacc, hblk⟩⟩
    case isTrue hge =>
      obtain ⟨u, hput, hrest⟩ := Res.bind_ok h
      obtain ⟨happ, hblk', hacc', hbits'⟩ := putByte_ok hle hblk hput
      rw [← hbits'] at hge hacc hbits
      rw [← hacc'] at hacc
      obtain ⟨happ', hok⟩ := ih (s := u.drained) happ.fits hblk' (State.drained_acc_lt hge hacc)
        (by rw [State.drained_nbits hge]; omega) hrest
      exact ⟨(happ.setLzw _).trans happ', hok⟩

/-- The state with a code in the accumulator, above the bits that wait (R192). -/
def State.packed (s : State) (c : BitVec 12) : State :=
  s.setLzw
    { s.work.lzw with
      acc := s.work.lzw.acc ||| (c.setWidth 19 <<< s.work.lzw.nbits.toNat)
      nbits := s.work.lzw.nbits + s.work.lzw.csize.setWidth 5 }

theorem emitCode_eq (c : BitVec 12) (s : State) : emitCode c s = drainAcc 4 (s.packed c) := rfl

/-- The bits of a code go above those that wait (R192). -/
theorem packed_lt {acc : BitVec 19} {c : BitVec 12} {n w : Nat} (hacc : acc.toNat < 2 ^ n) (hc : c.toNat < 2 ^ w) :
    (acc ||| (c.setWidth 19 <<< n)).toNat < 2 ^ (n + w) := by
  rw [BitVec.toNat_or, BitVec.toNat_shiftLeft]
  refine Nat.or_lt_two_pow (hacc.trans_le (Nat.pow_le_pow_right (by norm_num) (by omega))) ?_
  refine (Nat.mod_le _ _).trans_lt ?_
  rw [BitVec.toNat_setWidth, Nat.shiftLeft_eq, Nat.pow_add, Nat.mul_comm]
  exact Nat.mul_lt_mul_of_pos_left ((Nat.mod_le _ _).trans_lt hc) (by positivity)

/-- A code that fits the current width is packed, and the packer stays ready for the next. -/
theorem emitCode_ok {c : BitVec 12} {s t : State} (hle : s.outLen.toNat ≤ s.cfg.outCap.toNat)
    (hp : PackerOk s.work.lzw) (hw : s.work.lzw.csize.toNat ≤ 12) (hc : c.toNat < 2 ^ s.work.lzw.csize.toNat)
    (h : emitCode c s = .ok t) : Appends s t ∧ PackerOk t.work.lzw := by
  obtain ⟨hbits, hacc, hblk⟩ := hp
  have hsum : (s.packed c).work.lzw.nbits.toNat = s.work.lzw.nbits.toNat + s.work.lzw.csize.toNat := by
    simp only [State.packed, State.setLzw_work, BitVec.toNat_add, BitVec.toNat_setWidth]; omega
  rw [emitCode_eq] at h
  obtain ⟨happ, hok⟩ := drainAcc_ok (s := s.packed c) hle hblk (by rw [hsum]; exact packed_lt hacc hc) (by omega) h
  exact ⟨((Appends.refl hle).setLzw _).trans happ, hok⟩

theorem lzwFlushBits_ok {s t : State} (hle : s.outLen.toNat ≤ s.cfg.outCap.toNat)
    (hblk : s.work.lzw.blkn.toNat ≤ 254) (h : lzwFlushBits s = .ok t) : Appends s t := by
  rw [lzwFlushBits] at h
  split at h
  · obtain ⟨u, hput, rfl⟩ := Res.map_ok h
    exact (putByte_ok hle hblk hput).1.setLzw _
  · cases h; exact Appends.refl hle

/-! ### The codes -/

namespace CodesOk

variable {limit : Nat} {cb : BitVec 4} {l : LzwRegs}

/-- The packer's registers do not count. -/
theorem of_packerOnly {s t : State} (h : CodesOk limit cb s.work.lzw) (k : PackerOnly s t) :
    CodesOk limit cb t.work.lzw := by
  obtain ⟨h1, h2, h3, h4, h5, h6, h7, h8⟩ := h
  rw [PackerOnly] at k
  rw [k]
  exact ⟨h1, h2, h3, h4, h5, h6, h7, h8⟩

theorem end_lt_width (h : CodesOk limit cb l) : lzwEnd cb < 2 ^ l.csize.toNat := by
  have := h.nextRange.1
  have := h.nextFits
  omega

/-- A code below the next one fits the current width. -/
theorem prev_lt_width (h : CodesOk limit cb l) (hv : l.prevv = true) : l.prev.toNat < 2 ^ l.csize.toNat :=
  (h.prevRange hv).1.trans_le h.nextFits

/-- A symbol below `CLEAR` is a code of its own (R186). -/
theorem start_prev (h : CodesOk limit cb l) {x : Byte} (hx : x.toNat < lzwClear cb) :
    CodesOk limit cb { l with prev := x.setWidth 12, prevv := true } := by
  obtain ⟨h1, h2, h3, h4, h5, h6, h7, -⟩ := h
  refine ⟨h1, h2, h3, h4, h5, h6, h7, fun _ => ?_⟩
  have hval : (x.setWidth 12).toNat = x.toNat := by simp; omega
  simp only [hval]
  have hend : lzwEnd cb = lzwClear cb + 1 := rfl
  omega

/-- The code of a pair in the table becomes the pending one (R187). -/
theorem follow_prev (h : CodesOk limit cb l) {c v : BitVec 12} {x : Byte} (hv : tabLookup l.tab c x = some v) :
    CodesOk limit cb { l with prev := v } := by
  obtain ⟨h1, h2, h3, h4, h5, h6, h7, -⟩ := h
  refine ⟨h1, h2, h3, h4, h5, h6, h7, fun _ => ?_⟩
  obtain ⟨e, he, -, -, rfl⟩ := tabLookup_some hv
  have hrange := h5 e he
  have hend : lzwEnd cb = lzwClear cb + 1 := rfl
  simp only
  omega

/-- A pair that is no key yet gets the next code value (R189 to R191). -/
theorem insert (h : CodesOk limit cb l) (hlimit : limit ≤ 4096) {c : BitVec 12} {x : Byte}
    (hnew : tabLookup l.tab c x = none) : CodesOk limit cb (lzwInsert limit c x l) := by
  by_cases hroom : l.next.toNat < limit
  case neg => rwa [lzwInsert_full (by omega)]
  obtain ⟨h1, h2, h3, h4, h5, h6, h7, h8⟩ := h
  have hnext : (l.next + 1#13).toNat = l.next.toNat + 1 := by
    simp only [BitVec.toNat_add, BitVec.toNat_ofNat]; omega
  have hval : (l.next.setWidth 12).toNat = l.next.toNat := by simp; omega
  rw [lzwInsert_room hroom]
  constructor
  case cbRange => exact h1
  case nextRange => simp only [hnext]; omega
  case widthRange =>
    simp only
    split
    case isFalse => exact h3
    case isTrue hgrow =>
      have hlt : l.csize.toNat < 12 := by
        by_contra h12
        have : l.csize.toNat = 12 := by omega
        rw [this] at hgrow
        omega
      simp only [BitVec.toNat_add, BitVec.toNat_ofNat]
      omega
  case nextFits =>
    simp only [hnext]
    split
    case isFalse hkeep => have : 0 < 2 ^ l.csize.toNat := by positivity
                          omega
    case isTrue hgrow =>
      have hsum : (l.csize + 1#4).toNat = l.csize.toNat + 1 := by
        simp only [BitVec.toNat_add, BitVec.toNat_ofNat]; omega
      have : 0 < 2 ^ l.csize.toNat := by positivity
      rw [hsum, Nat.pow_succ]
      omega
  case tabRange =>
    simp only [List.forall_mem_cons, hval, hnext]
    exact ⟨by omega, fun e he => ⟨(h5 e he).1, by have := (h5 e he).2; omega⟩⟩
  case tabInjective =>
    refine List.pairwise_cons.2 ⟨fun e he heq => ?_, h6⟩
    have := (h5 e he).2
    rw [← heq, hval] at this
    omega
  case tabKeys =>
    refine List.pairwise_cons.2 ⟨fun e he heq => ?_, h7⟩
    exact tabLookup_none.1 hnew e he ⟨heq.1.symm, heq.2.symm⟩
  case prevRange =>
    intro hv
    have := h8 hv
    simp only [hnext]
    omega

end CodesOk

/-! ### The steps -/

section Steps

variable {s t : State} (hle : s.outLen.toNat ≤ s.cfg.outCap.toNat)
  (hcodes : CodesOk s.cfg.lzwLimit s.lat.cb s.work.lzw) (hpack : PackerOk s.work.lzw)
include hle hcodes hpack

/-- A packed code changes neither the table nor the codes named. -/
theorem emitCode_keeps_codes {c : BitVec 12} (hc : c.toNat < 2 ^ s.work.lzw.csize.toNat) (h : emitCode c s = .ok t) :
    Appends s t ∧ PackerOnly s t ∧ CodesOk s.cfg.lzwLimit s.lat.cb t.work.lzw ∧ PackerOk t.work.lzw := by
  obtain ⟨happ, hp⟩ := emitCode_ok hle hpack hcodes.widthRange.2 hc h
  have honly := PackerOnly.of_emitCode h
  exact ⟨happ, honly, hcodes.of_packerOnly honly, hp⟩

theorem lzwStartStep_keeps (h : lzwStartStep s = .ok t) :
    Appends s t ∧ t.inPos = s.inPos ∧ CodesOk s.cfg.lzwLimit s.lat.cb t.work.lzw ∧ PackerOk t.work.lzw := by
  obtain ⟨u, hemit, hcode⟩ := Res.bind_ok h
  have hall : emitAll [s.lat.cb.setWidth 8] s = .ok u := by rw [emitAll, hemit]; rfl
  obtain ⟨happ, hwork, hpos⟩ := Appends.of_emitAll hle hall
  have hclear : (BitVec.ofNat 12 (lzwClear s.lat.cb)).toNat < 2 ^ u.work.lzw.csize.toNat := by
    have := hcodes.end_lt_width
    have hend : lzwEnd s.lat.cb = lzwClear s.lat.cb + 1 := rfl
    have := Nat.mod_le (lzwClear s.lat.cb) (2 ^ 12)
    rw [BitVec.toNat_ofNat, hwork]
    omega
  obtain ⟨happ', honly, hcodes', hpack'⟩ := emitCode_keeps_codes happ.fits
    (by rw [happ.cfg_eq, happ.lat_eq, hwork]; exact hcodes) (by rw [hwork]; exact hpack) hclear hcode
  refine ⟨happ.trans happ', ?_, by rwa [happ.cfg_eq, happ.lat_eq] at hcodes', hpack'⟩
  rw [PackerOnly] at honly
  rw [honly]
  exact hpos

/-- A symbol in range (R186 to R188). -/
theorem lzwSymbol_keeps (hlimit : s.cfg.lzwLimit ≤ 4096) {x : Byte} (hx : x.toNat < lzwClear s.lat.cb)
    (h : lzwSymbol x s = .ok t) :
    Appends s t ∧ t.inPos = s.inPos ∧ CodesOk s.cfg.lzwLimit s.lat.cb t.work.lzw ∧ PackerOk t.work.lzw := by
  rw [lzwSymbol] at h
  simp only at h
  split at h
  case isFalse =>
    cases h
    obtain ⟨h1, h2, h3⟩ := hpack
    exact ⟨(Appends.refl hle).setLzw _, rfl, hcodes.start_prev hx, ⟨h1, h2, h3⟩⟩
  case isTrue hv =>
    cases hlook : tabLookup s.work.lzw.tab s.work.lzw.prev x with
    | some code =>
      rw [hlook] at h
      cases h
      obtain ⟨h1, h2, h3⟩ := hpack
      exact ⟨(Appends.refl hle).setLzw _, rfl, hcodes.follow_prev hlook, ⟨h1, h2, h3⟩⟩
    | none =>
      rw [hlook] at h
      obtain ⟨u, hcode, rfl⟩ := Res.map_ok h
      obtain ⟨happ, honly, hcodes', hpack'⟩ := emitCode_keeps_codes hle hcodes hpack (hcodes.prev_lt_width hv) hcode
      have htab : u.work.lzw.tab = s.work.lzw.tab := by rw [PackerOnly] at honly; rw [honly]
      have hprevv : u.work.lzw.prevv = true := by rw [PackerOnly] at honly; rw [honly]; exact hv
      have hpos : u.inPos = s.inPos := by rw [PackerOnly] at honly; rw [honly]
      have hins := (hcodes'.insert hlimit (x := x) (by rw [htab]; exact hlook)).start_prev hx
      obtain ⟨h1, h2, h3⟩ := hpack'
      refine ⟨happ.setLzw _, hpos, ?_, ⟨by simpa using h1, by simpa using h2, by simpa using h3⟩⟩
      rw [happ.cfg_eq]
      simpa [hprevv] using hins

end Steps

end Sys2Proof.Machine
end

section
/-! ## A step of a unit keeps validity -/

namespace Sys2Proof.Machine

/-! ### LZW_COMPRESS -/

section Lzw

variable {s t : State}

theorem State.Inv.lzw_continues (h : s.Inv) (hb : s.busy = true) (hopl : s.lat.opl = 1#4) (k : Appends s t)
    (hpos : t.inPos.toNat ≤ s.lat.len.toNat) (hcodes : CodesOk s.cfg.lzwLimit s.lat.cb t.work.lzw)
    (hpack : PackerOk t.work.lzw) : t.Inv := by
  refine h.continues hb k ((h.operation hb).of_appends k hpos (fun _ => ?_) ?_ ?_ ?_)
  · rw [lzwOk_iff, k.cfg_eq, k.lat_eq]
    exact ⟨hcodes, hpack⟩
  all_goals simp [hopl]

/-- The end step only appends, and completes (R195, R196). -/
theorem lzwEndStep_ok (hle : s.outLen.toNat ≤ s.cfg.outCap.toNat)
    (hcodes : CodesOk s.cfg.lzwLimit s.lat.cb s.work.lzw) (hpack : PackerOk s.work.lzw)
    (h : lzwEndStep s = .ok t) : ∃ u, Appends s u ∧ t = u.complete := by
  obtain ⟨s1, hpending, h⟩ := Res.bind_ok h
  obtain ⟨s2, hend, h⟩ := Res.bind_ok h
  obtain ⟨s3, hbits, h⟩ := Res.bind_ok h
  obtain ⟨s4, hblock, rfl⟩ := Res.map_ok h
  have h1 : Appends s s1 ∧ CodesOk s.cfg.lzwLimit s.lat.cb s1.work.lzw ∧ PackerOk s1.work.lzw := by
    split at hpending
    case isTrue hv =>
      obtain ⟨happ, -, hcodes', hpack'⟩ := emitCode_keeps_codes hle hcodes hpack (hcodes.prev_lt_width hv) hpending
      exact ⟨happ, hcodes', hpack'⟩
    case isFalse => cases hpending; exact ⟨Appends.refl hle, hcodes, hpack⟩
  obtain ⟨happ1, hcodes1, hpack1⟩ := h1
  rw [← happ1.cfg_eq, ← happ1.lat_eq] at hcodes1
  have hendc : (BitVec.ofNat 12 (lzwEnd s1.lat.cb)).toNat < 2 ^ s1.work.lzw.csize.toNat :=
    (Nat.mod_le _ _).trans_lt hcodes1.end_lt_width
  obtain ⟨happ2, -, -, hpack2⟩ := emitCode_keeps_codes happ1.fits hcodes1 hpack1 hendc hend
  have happ3 := lzwFlushBits_ok happ2.fits hpack2.blockRange hbits
  have happ4 : Appends s3 s4 := by
    split at hblock
    case isTrue => exact (flushBlock_ok happ3.fits hblock).1
    case isFalse => cases hblock; exact Appends.refl happ3.fits
  exact ⟨s4, ((happ1.trans happ2).trans happ3).trans happ4, rfl⟩

theorem lzwStep_keeps_inv (h : s.Inv) (hb : s.busy = true) (hr : s.inRaced = false) (hopl : s.lat.opl = 1#4)
    (hstep : lzwStep s = .ok t) : t.Inv := by
  have hop := h.operation hb
  obtain ⟨hcodes, hpack⟩ := (lzwOk_iff s).1 (hop.lzw hopl)
  rw [lzwStep] at hstep
  split_ifs at hstep with hstart hmore
  · obtain ⟨happ, hpos, hcodes', hpack'⟩ := lzwStartStep_keeps h.outFits hcodes hpack hstep
    exact h.lzw_continues hb hopl happ (by rw [hpos]; exact hop.cursor) hcodes' hpack'
  · rw [lzwSymbolStep, next_ok hmore] at hstep
    simp only [Except.bind] at hstep
    split at hstep
    case isTrue => cases hstep
    case isFalse hx =>
      have hlimit : s.cfg.lzwLimit ≤ 4096 := by
        obtain ⟨-, -, hlim, -⟩ := h.config
        omega
      obtain ⟨happ, hpos, hcodes', hpack'⟩ :=
        lzwSymbol_keeps (s := s.advanced 1) h.outFits hcodes hpack hlimit (not_le.1 hx) hstep
      have hlen := s.lat.len.isLt
      have hcursor := s.advanced_toNat 1 (by omega)
      exact h.lzw_continues hb hopl (((Appends.refl h.outFits).advanced 1).trans happ)
        (by rw [hpos, hcursor]; exact hmore) hcodes' hpack'
  · obtain ⟨u, happ, rfl⟩ := lzwEndStep_ok h.outFits hcodes hpack hstep
    exact h.completes hb hr happ

end Lzw

/-! ### QOI_COMPRESS -/

section QoiCompress

variable {s t : State}

theorem flushRun_ok (hle : s.outLen.toNat ≤ s.cfg.outCap.toNat) (h : flushRun s = .ok t) :
    Appends s t ∧ t.inPos = s.inPos ∧ t.work.qoi = { s.work.qoi with run := 0#6 } := by
  rcases flushRun_cases hle with ⟨hfit, e⟩ | ⟨-, e⟩ <;> rw [e] at h <;> cases h
  exact ⟨(Appends.of_fits hfit).setQoi _, rfl, rfl⟩

/-- A run grows, or is written and starts anew (R224, R225). -/
theorem qoiExtendRun_ok (hle : s.outLen.toNat ≤ s.cfg.outCap.toNat) (hrun : s.work.qoi.run.toNat ≤ 61)
    (h : qoiExtendRun s = .ok t) :
    Appends s t ∧ t.inPos = s.inPos ∧ ∃ r, t.work.qoi = { s.work.qoi with run := r } ∧
      (r = 0#6 ∨ r.toNat = s.work.qoi.run.toNat + 1 ∧ r.toNat ≤ 61) := by
  have hsum : (s.work.qoi.run + 1#6).toNat = s.work.qoi.run.toNat + 1 := by
    simp only [BitVec.toNat_add, BitVec.toNat_ofNat]; omega
  rw [qoiExtendRun] at h
  simp only [State.setQoi_work, hsum, Config.qoiRunMax] at h
  split at h
  case isTrue =>
    obtain ⟨happ, hpos, hqoi⟩ := flushRun_ok (by exact hle) h
    exact ⟨((Appends.refl hle).setQoi _).trans happ, hpos, 0#6, hqoi, .inl rfl⟩
  case isFalse hne =>
    cases h
    exact ⟨(Appends.refl hle).setQoi _, rfl, _, rfl, .inr ⟨hsum, by rw [hsum]; omega⟩⟩

/-- A coded pixel ends the run and goes into its slot of the cache (R226 to R233). -/
theorem qoiCodePixel_ok {p : Pixel} (hle : s.outLen.toNat ≤ s.cfg.outCap.toNat) (h : qoiCodePixel p s = .ok t) :
    Appends s t ∧ t.inPos = s.inPos ∧
      t.work.qoi = { s.work.qoi with run := 0#6, cache := cacheWrite s.work.qoi.cache (qhash p) p, prevpx := p } := by
  obtain ⟨u, hflush, h⟩ := Res.bind_ok h
  obtain ⟨v, hemit, rfl⟩ := Res.map_ok h
  obtain ⟨happ, hpos, hqoi⟩ := flushRun_ok hle hflush
  obtain ⟨happ', hwork, hpos'⟩ := Appends.of_emitAll happ.fits hemit
  exact ⟨(happ.trans happ').setQoi _, hpos'.trans hpos, by rw [State.setQoi_work, hwork, hqoi]⟩

/-- A pixel in its own slot of the cache is what R45 asks for. -/
theorem cacheOk_of_written (q : QoiRegs) (c : Vector Pixel 64) (p : Pixel)
    (h : q.cache = cacheWrite c (qhash p) p) (hp : q.prevpx = p) : CacheOk q :=
  .inl (by rw [h, hp, cacheRead_cacheWrite, if_pos rfl])

/-- The state with the next pixel taken from the input (R65, R223). -/
def State.pixelTaken (s : State) : State :=
  (s.advanced 4).setQoi { s.work.qoi with pixn := s.work.qoi.pixn + 1#32 }

theorem qoiPixelStep_eq (s : State) :
    qoiPixelStep s =
      if inPixel s s.inPos.toNat = s.work.qoi.prevpx then qoiExtendRun s.pixelTaken
      else qoiCodePixel (inPixel s s.inPos.toNat) s.pixelTaken := rfl

/-- The compressor's invariant after a pixel: the cursor and the count have moved; what is left to show is about the run and
the cache. -/
theorem CompressOk.of_pixel (h : CompressOk s) (hmore : s.work.qoi.pixn.toNat < s.lat.n.toNat)
    (hlen : 4 * s.lat.n.toNat = s.lat.len.toNat) (k : Appends s t) (hpos : t.inPos = s.inPos + 4#32)
    (hpixn : t.work.qoi.pixn = s.work.qoi.pixn + 1#32)
    (runRange : t.work.qoi.run.toNat ≤ 61 ∧ t.work.qoi.run.toNat ≤ s.work.qoi.pixn.toNat + 1)
    (runPixels : s.inRaced = false → ∀ j, j < t.work.qoi.run.toNat →
      inPixel s (4 * (s.work.qoi.pixn.toNat - j)) = t.work.qoi.prevpx)
    (cache : CacheOk t.work.qoi) : t.inPos.toNat ≤ s.lat.len.toNat ∧ CompressOk t := by
  have hn := s.lat.n.isLt
  have hl := s.lat.len.isLt
  have hcur := h.cursor
  have hpixn' : t.work.qoi.pixn.toNat = s.work.qoi.pixn.toNat + 1 := by
    rw [hpixn, BitVec.toNat_add]; simp only [BitVec.toNat_ofNat]; omega
  have hpos' : t.inPos.toNat = s.inPos.toNat + 4 := by
    rw [hpos, BitVec.toNat_add]; simp only [BitVec.toNat_ofNat]; omega
  refine ⟨by omega, ?_⟩
  constructor
  case cursor => omega
  case pixels => rw [k.lat_eq]; omega
  case runRange => rw [hpixn']; exact runRange
  case runPixels =>
    rw [k.inRaced_eq, hpixn']
    intro hr j hj
    rw [k.inPixel_eq, Nat.add_sub_cancel]
    exact runPixels hr j hj
  case cache => exact cache

theorem qoiPixelStep_ok (h : CompressOk s) (hle : s.outLen.toNat ≤ s.cfg.outCap.toNat)
    (hmore : s.work.qoi.pixn.toNat < s.lat.n.toNat) (hlen : 4 * s.lat.n.toNat = s.lat.len.toNat)
    (hstep : qoiPixelStep s = .ok t) : Appends s t ∧ t.inPos.toNat ≤ s.lat.len.toNat ∧ CompressOk t := by
  have htaken : Appends s s.pixelTaken := ((Appends.refl hle).advanced 4).setQoi _
  have hcur := h.cursor
  rw [qoiPixelStep_eq] at hstep
  split at hstep
  case isTrue hsame =>
    obtain ⟨happ, hpos, r, hqoi, hr⟩ := qoiExtendRun_ok (s := s.pixelTaken) hle h.runRange.1 hstep
    have hrun : t.work.qoi.run = r := by rw [hqoi]
    have hprev : t.work.qoi.prevpx = s.work.qoi.prevpx := by rw [hqoi]; rfl
    have hold := h.runRange
    rw [show s.pixelTaken.work.qoi.run = s.work.qoi.run from rfl] at hr
    refine ⟨htaken.trans happ, h.of_pixel hmore hlen (htaken.trans happ) hpos (by rw [hqoi]; rfl) ?_ ?_ ?_⟩
    · rw [hrun]
      rcases hr with rfl | hr
      · exact ⟨by decide, by simp⟩
      · omega
    · rw [hrun, hprev]
      intro hraced j hj
      rcases hr with rfl | ⟨hr, -⟩
      · simp at hj
      · cases j with
        | zero => rw [Nat.sub_zero, ← hcur]; exact hsame
        | succ j =>
          rw [show s.work.qoi.pixn.toNat - (j + 1) = s.work.qoi.pixn.toNat - 1 - j by omega]
          exact h.runPixels hraced j (by omega)
    · rw [hqoi]
      exact h.cache
  case isFalse =>
    obtain ⟨happ, hpos, hqoi⟩ := qoiCodePixel_ok (s := s.pixelTaken) hle hstep
    have hrun : t.work.qoi.run = 0#6 := by rw [hqoi]
    refine ⟨htaken.trans happ, h.of_pixel hmore hlen (htaken.trans happ) hpos (by rw [hqoi]; rfl) ?_ ?_ ?_⟩
    · rw [hrun]; exact ⟨by decide, by simp⟩
    · rw [hrun]; intro _ j hj; simp at hj
    · exact cacheOk_of_written _ _ _ (by rw [hqoi]) (by rw [hqoi])

theorem qoiEndStep_ok (hle : s.outLen.toNat ≤ s.cfg.outCap.toNat) (h : qoiEndStep s = .ok t) :
    ∃ u, Appends s u ∧ t = u.complete := by
  obtain ⟨u, hflush, h⟩ := Res.bind_ok h
  obtain ⟨v, hemit, rfl⟩ := Res.map_ok h
  obtain ⟨happ, -, -⟩ := flushRun_ok hle hflush
  exact ⟨v, happ.trans (Appends.of_emitAll happ.fits hemit).1, rfl⟩

theorem qoiCompressStep_keeps_inv (h : s.Inv) (hb : s.busy = true) (hr : s.inRaced = false) (hopl : s.lat.opl = 2#4)
    (hstep : qoiCompressStep s = .ok t) : t.Inv := by
  have hop := h.operation hb
  rw [qoiCompressStep] at hstep
  split at hstep
  case isTrue hmore =>
    obtain ⟨happ, hpos, hok⟩ :=
      qoiPixelStep_ok (hop.compress hopl) h.outFits hmore (hop.pixelInput (.inl hopl)) hstep
    refine h.continues hb happ (hop.of_appends happ hpos ?_ (fun _ => hok) ?_ ?_)
    all_goals simp [hopl]
  case isFalse =>
    obtain ⟨u, happ, rfl⟩ := qoiEndStep_ok h.outFits hstep
    exact h.completes hb hr happ

end QoiCompress

/-! ### QOI_DECOMPRESS -/

section QoiDecompress

variable {s t : State}

/-- What a chunk that is executed without a fault leaves: a pixel, or a run, written within OUT and within the picture. -/
def ChunkWrote (s t : State) : Prop :=
  (∃ p, s.outLen.toNat + 4 ≤ s.cfg.outCap.toNat ∧ t = s.wrotePixel p) ∨
    ∃ n, s.work.qoi.pixn.toNat + n ≤ s.lat.n.toNat ∧ s.outLen.toNat + 4 * n ≤ s.cfg.outCap.toNat ∧ t = s.wroteRun n

theorem writeOne_ok {p : Pixel} (hle : s.outLen.toNat ≤ s.cfg.outCap.toNat) (h : writeOne p s = .ok t) :
    ChunkWrote s t := by
  rcases writeOne_cases (p := p) hle with ⟨hfit, e⟩ | ⟨-, e⟩ <;> rw [e] at h <;> cases h
  exact .inl ⟨p, hfit, rfl⟩

theorem writeRun_ok {n : Nat} (hle : s.outLen.toNat ≤ s.cfg.outCap.toNat) (h : writeRun n s = .ok t) :
    ChunkWrote s t := by
  rcases writeRun_cases (n := n) hle with ⟨hn, hfit, e⟩ | ⟨-, -, e⟩ | ⟨-, e⟩ <;> rw [e] at h <;> cases h
  exact .inr ⟨n, hn, hfit, rfl⟩

/-- All that executing a chunk can do: take a fault, or write a pixel or a run. -/
theorem exec_chunk_cases {i : Instr} (hi : i.format = .chunk) (hle : s.outLen.toNat ≤ s.cfg.outCap.toNat) :
    ∃ r, exec i s = .next (settle s r) ∧ ∀ t, r = .ok t → ChunkWrote s t := by
  cases i with
  | rgb r g b => exact ⟨_, execRgb_eq r g b s, fun _ => writeOne_ok hle⟩
  | rgba r g b a => exact ⟨_, execRgba_eq r g b a s, fun _ => writeOne_ok hle⟩
  | index idx => exact ⟨_, execIndex_eq idx s, fun _ => writeOne_ok hle⟩
  | diff dr dg db => exact ⟨_, execDiff_eq dr dg db s, fun _ => writeOne_ok hle⟩
  | luma dg drDg dbDg => exact ⟨_, execLuma_eq dg drDg dbDg s, fun _ => writeOne_ok hle⟩
  | run n => exact ⟨_, execRun_eq n s, fun _ => writeRun_ok hle⟩
  | nop | lzwCompress | qoiCompress | qoiDecompress | bmpEncode24 | bmpEncode32 | ack | abort | reservedCmd => cases hi

theorem ChunkWrote.appends (h : ChunkWrote s t) : Appends s t := by
  rcases h with ⟨p, hfit, rfl⟩ | ⟨n, -, hfit, rfl⟩
  · exact (Appends.of_fits (by rwa [pixelBytesOf_length])).setQoi _
  · exact (Appends.of_fits (by rwa [repeatPixel_length])).setQoi _

theorem ChunkWrote.inPos_eq (h : ChunkWrote s t) : t.inPos = s.inPos := by
  rcases h with ⟨p, -, rfl⟩ | ⟨n, -, -, rfl⟩ <;> rfl

/-- A chunk writes four bytes a pixel, not more pixels than remain (R250, R259, R260). -/
theorem DecompressOk.of_chunkWrote (h : DecompressOk s) (hmore : s.work.qoi.pixn.toNat < s.lat.n.toNat)
    (k : ChunkWrote s t) : DecompressOk t := by
  obtain ⟨hfits, hpixels, houtput, hcache⟩ := h
  have hn := s.lat.n.isLt
  have hcap := s.cfg.outCap.isLt
  rcases k with ⟨p, hroom, rfl⟩ | ⟨n, hpix, hroom, rfl⟩
  · have hlen : (s.wrotePixel p).outLen.toNat = s.outLen.toNat + 4 :=
      s.appended_outLen_toNat (pixelBytesOf p) (by rw [pixelBytesOf_length]; omega)
    have hpixn : (s.wrotePixel p).work.qoi.pixn.toNat = s.work.qoi.pixn.toNat + 1 := by
      simp only [State.wrotePixel, State.setQoi_work, BitVec.toNat_add, BitVec.toNat_ofNat]; omega
    exact ⟨hfits, by rw [hpixn]; exact hmore, by omega, cacheOk_of_written _ _ _ rfl rfl⟩
  · have hlen : (s.wroteRun n).outLen.toNat = s.outLen.toNat + 4 * n := by
      have := s.appended_outLen_toNat (repeatPixel n s.work.qoi.prevpx) (by rw [repeatPixel_length]; omega)
      rwa [repeatPixel_length] at this
    have hpixn : (s.wroteRun n).work.qoi.pixn.toNat = s.work.qoi.pixn.toNat + n := by
      simp only [State.wroteRun, State.setQoi_work, BitVec.toNat_add, BitVec.toNat_ofNat]; omega
    exact ⟨hfits, by rw [hpixn]; exact hpix, by omega, hcache⟩

theorem State.Inv.decompress_continues (h : s.Inv) (hb : s.busy = true) (hopl : s.lat.opl = 3#4) (k : Appends s t)
    (hpos : t.inPos.toNat ≤ s.lat.len.toNat) (hok : DecompressOk t) : t.Inv := by
  refine h.continues hb k ((h.operation hb).of_appends k hpos ?_ ?_ (fun _ => hok) ?_)
  all_goals simp [hopl]

theorem finishDecompress_keeps_inv (h : t.Inv) (hr : t.inRaced = false) : (finishDecompress t).Inv := by
  rw [finishDecompress]
  split
  case isTrue hend => exact h.completes hend.1 hr (Appends.refl h.outFits)
  case isFalse => exact h

theorem chunkStep_keeps_inv (h : s.Inv) (hb : s.busy = true) (hr : s.inRaced = false) (hopl : s.lat.opl = 3#4)
    (hmore : s.work.qoi.pixn.toNat < s.lat.n.toNat) (hstep : chunkStep s = .next t) : t.Inv := by
  have hop := h.operation hb
  have hlen := s.lat.len.isLt
  rcases fetchChunk_cases hop.cursor with ⟨k, -, hk, hfetch⟩ | hfetch
  · obtain ⟨i, hdec, hi⟩ := fetchChunk_decodes hop.cursor hfetch
    have hcursor := s.advanced_toNat k (by omega)
    have hinv : (s.advanced k).Inv := by
      obtain ⟨h1, h2, h3, h4⟩ := hop.decompress hopl
      exact h.decompress_continues hb hopl ((Appends.refl h.outFits).advanced k) (by omega) ⟨h1, h2, h3, h4⟩
    obtain ⟨r, hexec, hwrote⟩ := exec_chunk_cases hi hinv.outFits
    simp only [chunkStep, hfetch, hdec, hexec] at hstep
    cases hstep
    have hr' : (settle (s.advanced k) r).inRaced = false := by
      cases r with
      | ok u => exact (hwrote u rfl).appends.inRaced_eq.trans hr
      | error f => rfl
    refine finishDecompress_keeps_inv (hinv.settled fun u hu => ?_) hr'
    have hw := hwrote u hu
    exact hinv.decompress_continues hb hopl hw.appends (by rw [hw.inPos_eq]; exact hcursor.trans_le hk)
      (((hinv.operation hb).decompress hopl).of_chunkWrote hmore hw)
  · simp only [chunkStep, hfetch] at hstep
    cases hstep
    exact h.raised _

theorem qoiDecompressStep_keeps_inv (h : s.Inv) (hb : s.busy = true) (hr : s.inRaced = false) (hopl : s.lat.opl = 3#4)
    (hstep : qoiDecompressStep s = .next t) : t.Inv := by
  rw [qoiDecompressStep] at hstep
  split at hstep
  case isTrue hmore => exact chunkStep_keeps_inv h hb hr hopl hmore hstep
  case isFalse => cases hstep; exact h.completes hb hr (Appends.refl h.outFits)

end QoiDecompress

end Sys2Proof.Machine
end

section
/-! ### BMP_ENCODE24 and BMP_ENCODE32 -/

namespace Sys2Proof.Machine

section Bmp

variable {s t : State}

theorem leBytes_length (n v : Nat) : (leBytes n v).length = n := by
  induction n generalizing v with
  | zero => rfl
  | succ n ih => simp [leBytes, ih]
theorem le16_length (v : Nat) : (le16 v).length = 2 := leBytes_length 2 v
theorem le32_length (v : Nat) : (le32 v).length = 4 := leBytes_length 4 v
theorem bmpInfoHeader_length (v : BmpVersion) (c : Config) (w h : Nat) :
    (bmpInfoHeader v c w h).length = bmpInfoSize v := by
  cases v
  case bmp24 =>
    unfold bmpInfoHeader bmpInfoHeader24
    simp only [List.length_append, le16_length, le32_length, bmpInfoSize]
  case bmp32 =>
    unfold bmpInfoHeader bmpInfoHeader32
    simp only [List.length_append, le16_length, le32_length, List.length_replicate, bmpInfoSize]

theorem bmpHeaders_length (v : BmpVersion) (c : Config) (w h : Nat) :
    (bmpFileHeader v w h ++ bmpInfoHeader v c w h).length = bmpDataOffset v := by
  rw [List.length_append, bmpInfoHeader_length]
  rfl
theorem bmpPixel_length (v : BmpVersion) (p : Pixel) : (bmpPixel v p).length = bmpPixelBytes v := by
  cases v <;> rfl

/-! What each step does, with the bytes counted (R154 to R160). -/

theorem bmpHeaderStep_ok (hle : s.outLen.toNat ≤ s.cfg.outCap.toNat) (h : bmpHeaderStep s = .ok t) :
    ∃ u, Appends s u ∧ u.inPos = s.inPos ∧ u.work = s.work ∧
      u.outLen.toNat = s.outLen.toNat + bmpDataOffset (bmpVersion s.lat.opl) ∧
      t = if u.lat.h = 0#16 then bmpFinish u else u := by
  obtain ⟨u, hemit, rfl⟩ := Res.map_ok h
  obtain ⟨happ, hwork, hpos⟩ := Appends.of_emitAll hle hemit
  have hlen := Appends.outLen_of_emitAll hle hemit
  rw [bmpHeaders_length] at hlen
  exact ⟨{ u with allt := true }, happ.touch true u.inPos u.work, hpos, hwork, hlen, rfl⟩

theorem bmpPixelStep_ok (hle : s.outLen.toNat ≤ s.cfg.outCap.toNat) (h : bmpPixelStep s = .ok t) :
    Appends s t ∧ t.inPos = s.inPos ∧ t.work.bmp = { s.work.bmp with col := s.work.bmp.col + 1#16 } ∧
      t.outLen.toNat = s.outLen.toNat + bmpPixelBytes (bmpVersion s.lat.opl) := by
  obtain ⟨u, hemit, rfl⟩ := Res.map_ok h
  obtain ⟨happ, hwork, hpos⟩ := Appends.of_emitAll (by exact hle) hemit
  have hlen := Appends.outLen_of_emitAll (by exact hle) hemit
  rw [bmpPixel_length] at hlen
  refine ⟨(((Appends.refl hle).touch _ s.inPos s.work).trans happ).setBmp _, hpos, ?_, hlen⟩
  rw [State.setBmp_work, hwork]

theorem bmpPadStep_ok (hle : s.outLen.toNat ≤ s.cfg.outCap.toNat) (h : bmpPadStep s = .ok t) :
    ∃ u, Appends s u ∧ u.inPos = s.inPos ∧ u.work = s.work ∧
      u.outLen.toNat = s.outLen.toNat + s.work.bmp.padn.toNat ∧
      t = if u.work.bmp.row = 0#16 then bmpFinish u
        else u.setBmp { u.work.bmp with row := u.work.bmp.row - 1#16, col := 0#16 } := by
  obtain ⟨u, hemit, rfl⟩ := Res.map_ok h
  obtain ⟨happ, hwork, hpos⟩ := Appends.of_emitAll hle hemit
  have hlen := Appends.outLen_of_emitAll hle hemit
  rw [List.length_replicate] at hlen
  exact ⟨u, happ, hpos, hwork, hlen, rfl⟩

/-! What they keep. -/

theorem State.Inv.bmp_continues (h : s.Inv) (hb : s.busy = true) (hopl : s.lat.opl = 4#4 ∨ s.lat.opl = 5#4)
    (k : Appends s t) (hpos : t.inPos = s.inPos) (hok : BmpOk t) : t.Inv := by
  refine h.continues hb k
    ((h.operation hb).of_appends k (by rw [hpos]; exact (h.operation hb).cursor) ?_ ?_ ?_ (fun _ => hok))
  all_goals rcases hopl with e | e <;> simp [e]

/-- The end of the operation (R143, R157). -/
theorem State.Inv.bmp_finishes (h : s.Inv) (hb : s.busy = true) (hr : s.inRaced = false) (k : Appends s t) :
    (bmpFinish t).Inv :=
  h.completes hb hr (k.touch t.allt t.lat.len t.work)

/-- `BmpOk` of a state with output: the registers in range, and the output grown by what `bmpProgress` counts. -/
theorem BmpOk.of_progress (h : BmpOk s) (hh : s.lat.h ≠ 0#16) (k : Appends s t) (hne : t.outLen.toNat ≠ 0)
    (hpad : t.work.bmp.padn = s.work.bmp.padn) (hcol : t.work.bmp.col.toNat ≤ s.lat.w.toNat)
    (hrow : t.work.bmp.row.toNat < s.lat.h.toNat) (hprogress : t.outLen.toNat = bmpProgress t) : BmpOk t := by
  constructor
  case padding => rw [hpad, k.lat_eq]; exact h.padding
  case column => rw [k.lat_eq]; exact hcol
  case row => rw [k.lat_eq]; exact fun _ => hrow
  case started => exact fun e => absurd (congrArg BitVec.toNat e) hne
  case progress => exact fun _ => ⟨by rw [k.lat_eq]; exact hh, hprogress⟩

/-- The headers are the output before the first pixel, and there is a first pixel unless `H = 0` (R154 to R157). -/
theorem bmpHeaderStep_keeps_inv (h : s.Inv) (hb : s.busy = true) (hr : s.inRaced = false)
    (hopl : s.lat.opl = 4#4 ∨ s.lat.opl = 5#4) (hstart : s.outLen = 0#32) (hstep : bmpHeaderStep s = .ok t) : t.Inv := by
  have hok := (h.operation hb).bmp hopl
  obtain ⟨u, happ, hpos, hwork, hlen, rfl⟩ := bmpHeaderStep_ok h.outFits hstep
  obtain ⟨hrow, hcol⟩ := hok.started hstart
  split
  case isTrue => exact h.bmp_finishes hb hr happ
  case isFalse hh =>
    rw [happ.lat_eq] at hh
    have hrowNat : s.work.bmp.row.toNat = s.lat.h.toNat - 1 := by
      have hpos : s.lat.h.toNat ≠ 0 := fun e => hh (BitVec.eq_of_toNat_eq e)
      rw [hrow]
      exact BitVec.toNat_sub_of_le (BitVec.le_def.2 (Nat.one_le_iff_ne_zero.2 hpos))
    have hprogress : bmpProgress u = bmpDataOffset (bmpVersion s.lat.opl) := by
      simp [bmpProgress, happ.lat_eq, hwork, hrowNat, hcol]
    rw [hstart] at hlen
    simp only [BitVec.toNat_ofNat, Nat.zero_mod, Nat.zero_add] at hlen
    refine h.bmp_continues hb hopl happ hpos (hok.of_progress hh happ ?_ (by rw [hwork]) ?_ ?_ ?_)
    · rw [hlen, bmpDataOffset]; omega
    · rw [hwork]; exact hok.column
    · rw [hwork]; exact hok.row hh
    · rw [hlen, hprogress]

theorem bmpPixelStep_keeps_inv (h : s.Inv) (hb : s.busy = true) (hopl : s.lat.opl = 4#4 ∨ s.lat.opl = 5#4)
    (hstarted : s.outLen ≠ 0#32) (hcol : s.work.bmp.col.toNat < s.lat.w.toNat) (hstep : bmpPixelStep s = .ok t) :
    t.Inv := by
  have hok := (h.operation hb).bmp hopl
  obtain ⟨hh, hsofar⟩ := hok.progress hstarted
  obtain ⟨happ, hpos, hbmp, hlen⟩ := bmpPixelStep_ok h.outFits hstep
  have hnext : (s.work.bmp.col + 1#16).toNat = s.work.bmp.col.toNat + 1 := by
    have hw := s.lat.w.isLt
    simp only [BitVec.toNat_add, BitVec.toNat_ofNat]; omega
  have hprogress : bmpProgress t = bmpProgress s + bmpPixelBytes (bmpVersion s.lat.opl) := by
    simp only [bmpProgress, happ.lat_eq, hbmp, hnext, Nat.add_mul, Nat.one_mul, Nat.add_assoc]
  have hpositive : bmpPixelBytes (bmpVersion s.lat.opl) ≠ 0 := by cases bmpVersion s.lat.opl <;> decide
  refine h.bmp_continues hb hopl happ hpos (hok.of_progress hh happ ?_ (by rw [hbmp]) ?_ ?_ ?_)
  · omega
  · rw [hbmp]; exact hnext.trans_le hcol
  · rw [hbmp]; exact hok.row hh
  · omega

theorem bmpPadStep_keeps_inv (h : s.Inv) (hb : s.busy = true) (hr : s.inRaced = false)
    (hopl : s.lat.opl = 4#4 ∨ s.lat.opl = 5#4) (hstarted : s.outLen ≠ 0#32)
    (hcol : s.lat.w.toNat ≤ s.work.bmp.col.toNat) (hstep : bmpPadStep s = .ok t) : t.Inv := by
  have hok := (h.operation hb).bmp hopl
  obtain ⟨hh, hsofar⟩ := hok.progress hstarted
  obtain ⟨u, happ, hpos, hwork, hlen, rfl⟩ := bmpPadStep_ok h.outFits hstep
  split
  case isTrue => exact h.bmp_finishes hb hr happ
  case isFalse hrow =>
    rw [hwork] at hrow ⊢
    have hcolEq : s.work.bmp.col.toNat = s.lat.w.toNat := Nat.le_antisymm hok.column hcol
    have hrowPos : s.work.bmp.row.toNat ≠ 0 := fun e => hrow (BitVec.eq_of_toNat_eq e)
    have hrowLt := hok.row hh
    have hprev : (s.work.bmp.row - 1#16).toNat = s.work.bmp.row.toNat - 1 :=
      BitVec.toNat_sub_of_le (BitVec.le_def.2 (Nat.one_le_iff_ne_zero.2 hrowPos))
    have hrows : s.lat.h.toNat - 1 - (s.work.bmp.row.toNat - 1) = s.lat.h.toNat - 1 - s.work.bmp.row.toNat + 1 := by omega
    have hstart : s.outLen.toNat ≠ 0 := fun e => hstarted (BitVec.eq_of_toNat_eq e)
    refine h.bmp_continues hb hopl (happ.setBmp _) hpos
      (hok.of_progress hh (happ.setBmp _) ?_ rfl (Nat.zero_le _) ?_ ?_)
    · rw [State.setBmp_outLen]; omega
    · exact hprev.trans_lt (by omega)
    · rw [State.setBmp_outLen, hlen, hsofar]
      simp only [bmpProgress, State.setBmp_work, State.setBmp_lat, happ.lat_eq, hprev, hrows, hcolEq, BitVec.toNat_ofNat,
        Nat.zero_mod, Nat.zero_mul, Nat.add_mul, Nat.one_mul, Nat.mul_comm s.lat.w.toNat]
      omega

theorem bmpStep_keeps_inv (h : s.Inv) (hb : s.busy = true) (hr : s.inRaced = false)
    (hopl : s.lat.opl = 4#4 ∨ s.lat.opl = 5#4) (hstep : bmpStep s = .ok t) : t.Inv := by
  rw [bmpStep] at hstep
  split_ifs at hstep with hstart hcol
  · exact bmpHeaderStep_keeps_inv h hb hr hopl hstart hstep
  · exact bmpPixelStep_keeps_inv h hb hopl hstart hcol hstep
  · exact bmpPadStep_keeps_inv h hb hr hopl hstart (not_lt.1 hcol) hstep

end Bmp

end Sys2Proof.Machine
end

section
/-! ## The engine's turn, the host's turn and the step keep validity -/

namespace Sys2Proof.Machine

section Engine

variable {s t : State}

/-- The end of an operation whose input the host wrote (R316 a). -/
theorem raceStep_keeps_inv (h : s.Inv) (hb : s.busy = true) : (raceStep s).Inv := by
  rw [raceStep]
  split
  case h_2 => exact h.raised _
  case h_1 outLen inPos allt _ =>
    have herr : s.err = 0#4 := h.status.busyNoErr hb
    exact
      { config := h.config
        memory :=
          { inWf := h.memory.inWf
            outWf := List.Pairwise.nil
            inBound := h.memory.inBound
            outBound := by simp
            outKnown := by simp
            outFits := by
              simp only
              split
              case isTrue hle => exact BitVec.le_def.1 hle
              case isFalse => exact le_rfl }
        status := by
          constructor
          case infoClear => exact h.status.infoClear
          all_goals simp [herr]
        operation := by simp }

theorem opStep_keeps_inv (h : s.Inv) (hb : s.busy = true) (hr : s.inRaced = false) (hstep : opStep s = .next t) :
    t.Inv := by
  rw [opStep] at hstep
  split_ifs at hstep with h1 h2 h3 h45
  · cases hstep; exact h.settled fun _ => lzwStep_keeps_inv h hb hr h1
  · cases hstep; exact h.settled fun _ => qoiCompressStep_keeps_inv h hb hr h2
  · exact qoiDecompressStep_keeps_inv h hb hr h3 hstep
  · cases hstep; exact h.settled fun _ => bmpStep_keeps_inv h hb hr h45
  · cases hstep; exact h

theorem engineTurn_keeps_inv (h : s.Inv) (hstep : engineTurn s = .next t) : t.Inv := by
  rw [engineTurn] at hstep
  split_ifs at hstep with hb hr
  · cases hstep; exact raceStep_keeps_inv h hb
  · exact opStep_keeps_inv h hb (by simpa using hr) hstep
  · cases hstep; exact h

end Engine

/-! ### Commands -/

section Commands

variable {s t : State}

/-- Validity of a block that is not busy asks nothing of its operation. -/
theorem State.Inv.of_idle (hb : s.busy = false) (config : s.cfg.wf) (memory : MemoryOk s) (status : StatusOk s) : s.Inv :=
  ⟨config, memory, status, fun h => absurd (hb.symm.trans h) (by decide)⟩

/-- Memory rules of a state in which OUT has no byte: all that is left is IN. -/
theorem MemoryOk.of_emptyOut (inWf : s.inMem.wf) (inBound : ∀ c ∈ s.inMem, c.1 < s.cfg.inSize) (hout : s.outMem = [])
    (hlen : s.outLen = 0#32) : MemoryOk s := by
  constructor
  case inWf => exact inWf
  case inBound => exact inBound
  all_goals simp [hout, hlen]

theorem latchStart_memoryOk (h : MemoryOk s) (opc : BitVec 4) : MemoryOk (latchStart opc s) :=
  .of_emptyOut h.inWf h.inBound rfl rfl

/-- The block between the latching and the checks of a start command (R131). -/
theorem State.Inv.latched (h : s.Inv) (hb : s.busy = false) (opc : BitVec 4) : (latchStart opc s).Inv :=
  .of_idle hb h.config (latchStart_memoryOk h.memory opc) (by constructor <;> simp)

/-- An accepted start (R131). -/
theorem State.Inv.started (h : s.Inv) {opc : BitVec 4} (work : Work)
    (hop : OperationOk { startedState opc s with work := work }) : { startedState opc s with work := work }.Inv where
  config := h.config
  memory := .of_emptyOut h.memory.inWf h.memory.inBound rfl rfl
  status := by constructor <;> simp [startedState]
  operation := fun _ => hop

/-- The latched pixel count is the product of the latched sides: 32 bits hold it (R33). -/
theorem started_count {opc : BitVec 4} (hlat : t.lat = (startedState opc s).lat) :
    t.lat.n.toNat = t.lat.w.toNat * t.lat.h.toNat := by
  have hlt : (s.dim.extractLsb' 0 16).toNat * (s.dim.extractLsb' 16 16).toNat < 2 ^ 16 * 2 ^ 16 :=
    Nat.mul_lt_mul'' (s.dim.extractLsb' 0 16).isLt (s.dim.extractLsb' 16 16).isLt
  rw [hlat]
  simp only [startedState, BitVec.toNat_ofNat]
  exact Nat.mod_eq_of_lt hlt

/-- The latches of an accepted start give an operation to go on with, when the unit's registers are those of its start. -/
theorem started_operationOk {opc : BitVec 4} (hlat : t.lat = (startedState opc s).lat) (hopOf : t.op = opc)
    (hcfg : t.cfg = s.cfg) (hpos : t.inPos = 0#32) (hopc : 1 ≤ opc.toNat ∧ opc.toNat ≤ 5)
    (hlen : s.inLen.toNat ≤ s.cfg.inSize)
    (pixelInput : opc = 2#4 ∨ opc = 4#4 ∨ opc = 5#4 → dimBytes s = s.inLen.toNat)
    (lzw : opc = 1#4 → LzwOk t) (compress : opc = 2#4 → CompressOk t) (decompress : opc = 3#4 → DecompressOk t)
    (bmp : opc = 4#4 ∨ opc = 5#4 → BmpOk t) : OperationOk t := by
  have hopl : t.lat.opl = opc := by rw [hlat]; rfl
  have hcount := started_count hlat
  constructor
  case opcode => exact ⟨hopl.trans hopOf.symm, hopOf ▸ hopc⟩
  case count => exact hcount
  case input => rw [hlat, hcfg]; exact hlen
  case cursor => rw [hpos]; exact Nat.zero_le _
  case pixelInput =>
    intro e
    rw [hopl] at e
    rw [hcount, hlat, ← Nat.mul_assoc]
    exact pixelInput e
  case lzw => rw [hopl]; exact lzw
  case compress => rw [hopl]; exact compress
  case decompress => rw [hopl]; exact decompress
  case bmp => rw [hopl]; exact bmp

end Commands

end Sys2Proof.Machine
end

section
/-! ## The commands, the host's accesses and the step keep validity -/

namespace Sys2Proof.Machine

section Turns

variable {s t : State}

/-! ### Start commands -/

/-- A start command keeps validity when its start does, where its checks hold (R131, R132). -/
theorem startCommand_keeps_inv {opc : BitVec 4} {checks : State → List (Bool × Word)} {init : State → State} (h : s.Inv)
    (hstart : s.busy = false → (∀ c ∈ checks (latchStart opc s), c.1 = true) →
      { init (latchStart opc s) with busy := true }.Inv) : (startCommand opc checks init s).Inv := by
  rcases startCommand_cases opc checks init s with ⟨-, e⟩ | ⟨hb, code, -, e⟩ | ⟨hb, hchecks, e⟩ <;> rw [e]
  · exact h
  · exact (h.latched hb opc).raised _
  · exact hstart hb (firstFailing_eq_none.1 hchecks)

/-- The LZW registers a start sets (R181). -/
theorem lzwStart_codesOk {limit : Nat} {cb : BitVec 4} (hcb : 1 ≤ cb.toNat ∧ cb.toNat ≤ 8) (hlimit : 4095 ≤ limit)
    (l : LzwRegs) : CodesOk limit cb (lzwStartRegs cb l) := by
  have hend : lzwEnd cb = 2 ^ cb.toNat + 1 := by rw [lzwEnd, lzwClear, Nat.one_shiftLeft]
  have hlow : 2 ^ 1 ≤ 2 ^ cb.toNat := Nat.pow_le_pow_right (by norm_num) hcb.1
  have hhigh : 2 ^ cb.toNat ≤ 2 ^ 8 := Nat.pow_le_pow_right (by norm_num) hcb.2
  have hnext : (lzwStartRegs cb l).next.toNat = 2 ^ cb.toNat + 2 := by
    simp only [lzwStartRegs, hend, BitVec.toNat_ofNat]
    omega
  have hcsize : (lzwStartRegs cb l).csize.toNat = cb.toNat + 1 := by
    simp only [lzwStartRegs, BitVec.toNat_add, BitVec.toNat_ofNat]
    omega
  constructor
  case cbRange => exact hcb
  case nextRange => omega
  case widthRange => omega
  case nextFits => rw [hnext, hcsize, Nat.pow_succ]; omega
  all_goals simp [lzwStartRegs]

theorem lzwStart_packerOk (cb : BitVec 4) (l : LzwRegs) : PackerOk (lzwStartRegs cb l) :=
  ⟨Nat.zero_le _, Nat.one_pos, Nat.zero_le _⟩

theorem execLzwCompress_keeps_inv (h : s.Inv) : (startCommand 1#4 checksLzw initLzw s).Inv := by
  refine startCommand_keeps_inv h fun _ hchecks => h.started (opc := 1#4) _ ?_
  simp only [checksLzw, List.forall_mem_cons, decide_eq_true_eq] at hchecks
  obtain ⟨hcb, hlen, -⟩ := hchecks
  have hlimit : 4095 ≤ s.cfg.lzwLimit := by
    obtain ⟨-, -, hlim, -⟩ := h.config
    omega
  refine started_operationOk (opc := 1#4) rfl rfl rfl rfl (by decide) hlen (by simp) (fun _ => ?_) (by simp) (by simp)
    (by simp)
  exact (lzwOk_iff _).2 ⟨lzwStart_codesOk hcb hlimit _, lzwStart_packerOk _ _⟩

/-- The checks of the pixel commands: the input is the whole picture and lies in IN (R132). -/
theorem checksPixels_hold {opc : BitVec 4} (h : ∀ c ∈ checksPixels (latchStart opc s), c.1 = true) :
    dimBytes s = s.inLen.toNat ∧ s.inLen.toNat ≤ s.cfg.inSize := by
  simp only [checksPixels, List.forall_mem_cons, decide_eq_true_eq, beq_iff_eq] at h
  exact ⟨h.1, h.2.1⟩

theorem execQoiCompress_keeps_inv (h : s.Inv) :
    (startCommand 2#4 checksPixels (fun t => t.setQoi (qoiStartRegs 0#6)) s).Inv := by
  refine startCommand_keeps_inv h fun _ hchecks => h.started (opc := 2#4) _ ?_
  obtain ⟨hpixels, hlen⟩ := checksPixels_hold hchecks
  refine started_operationOk (opc := 2#4) rfl rfl rfl rfl (by decide) hlen (fun _ => hpixels) (by simp) (fun _ => ?_)
    (by simp) (by simp)
  exact ⟨rfl, Nat.zero_le _, ⟨Nat.zero_le _, Nat.zero_le _⟩, fun _ k hk => absurd hk (Nat.not_lt_zero k), .inr ⟨rfl, rfl⟩⟩

theorem execQoiDecompress_keeps_inv (h : s.Inv) :
    (startCommand 3#4 checksDecompress (fun t => t.setQoi (qoiStartRegs t.work.qoi.run)) s).Inv := by
  refine startCommand_keeps_inv h fun _ hchecks => h.started (opc := 3#4) _ ?_
  simp only [checksDecompress, List.forall_mem_cons, decide_eq_true_eq] at hchecks
  obtain ⟨hlen, hfits, -⟩ := hchecks
  refine started_operationOk (opc := 3#4) rfl rfl rfl rfl (by decide) hlen (by simp) (by simp) (by simp) (fun _ => ?_)
    (by simp)
  refine ⟨?_, Nat.zero_le _, rfl, .inr ⟨rfl, rfl⟩⟩
  rw [started_count (s := s) (opc := 3#4) rfl, ← Nat.mul_assoc]
  exact hfits

/-- The start of both BMP operations (R312); `v` is the version the opcode selects. -/
theorem startBmp_keeps_inv (h : s.Inv) {opc : BitVec 4} (hopc : opc = 4#4 ∨ opc = 5#4) {v : BmpVersion}
    (hv : bmpVersion opc = v) : (startCommand opc checksPixels (initBmp v) s).Inv := by
  refine startCommand_keeps_inv h fun _ hchecks => h.started (opc := opc) _ ?_
  obtain ⟨hpixels, hlen⟩ := checksPixels_hold hchecks
  have hrange : 1 ≤ opc.toNat ∧ opc.toNat ≤ 5 := by rcases hopc with rfl | rfl <;> decide
  have hother : opc ≠ 1#4 ∧ opc ≠ 2#4 ∧ opc ≠ 3#4 := by rcases hopc with rfl | rfl <;> decide
  refine started_operationOk (opc := opc) rfl rfl rfl rfl hrange hlen (fun _ => hpixels) (fun e => absurd e hother.1)
    (fun e => absurd e hother.2.1) (fun e => absurd e hother.2.2) (fun _ => ?_)
  have hpad : bmpPadding v (s.dim.extractLsb' 0 16).toNat < 4 := by
    cases v
    · exact Nat.mod_lt _ (by norm_num)
    · exact Nat.zero_lt_succ 3
  constructor
  case padding =>
    change (BitVec.ofNat 2 (bmpPadding v (s.dim.extractLsb' 0 16).toNat)).toNat =
      bmpPadding (bmpVersion opc) (s.dim.extractLsb' 0 16).toNat
    rw [hv, BitVec.toNat_ofNat]
    exact Nat.mod_eq_of_lt hpad
  case column => exact Nat.zero_le _
  case row =>
    intro hh
    have hpos : (s.dim.extractLsb' 16 16).toNat ≠ 0 := fun e => hh (BitVec.eq_of_toNat_eq e)
    have hsub : (s.dim.extractLsb' 16 16 - 1#16).toNat = (s.dim.extractLsb' 16 16).toNat - 1 :=
      BitVec.toNat_sub_of_le (BitVec.le_def.2 (Nat.one_le_iff_ne_zero.2 hpos))
    exact hsub.trans_lt (Nat.sub_one_lt hpos)
  case started => exact fun _ => ⟨rfl, rfl⟩
  case progress => exact fun e => absurd rfl e

/-! ### The other commands -/

/-- Leaving done or faulted by `ACK` (R139). -/
theorem State.Inv.cleared (h : s.Inv) (hb : s.busy = false) : (clearOutcome s).Inv := by
  refine .of_idle hb h.config { h.memory with } ?_
  have hraced := h.status.racedBusy
  constructor
  case racedBusy => exact hraced
  all_goals simp

/-- Leaving any state by `ABORT` (R140). -/
theorem State.Inv.abandoned (h : s.Inv) : (abandon s).Inv :=
  .of_idle rfl h.config (.of_emptyOut h.memory.inWf h.memory.inBound rfl rfl) (by constructor <;> simp)

/-- Hardware reset (R310). -/
theorem State.Inv.hardReset (h : s.Inv) : (hardwareReset s).Inv :=
  .of_idle rfl h.config (.of_emptyOut List.Pairwise.nil (by simp [hardwareReset, State.resetWith]) rfl rfl)
    (by constructor <;> simp [hardwareReset, State.resetWith])

/-- What is written to `CMD` is a command, never a chunk (R91). -/
theorem decodeCmd_format (v : Word) : (decodeCmd v).format = .cmd := by
  rw [decodeCmd]
  split
  · split <;> rfl
  · rfl

/-- Every command keeps validity, whenever it is written. -/
theorem exec_cmd_keeps_inv {i : Instr} (hi : i.format = .cmd) (h : s.Inv) (he : exec i s = .next t) : t.Inv := by
  cases i with
  | nop => cases he; exact h
  | lzwCompress => cases he; exact execLzwCompress_keeps_inv h
  | qoiCompress => cases he; exact execQoiCompress_keeps_inv h
  | qoiDecompress => cases he; exact execQoiDecompress_keeps_inv h
  | bmpEncode24 => cases he; exact startBmp_keeps_inv h (.inl rfl) rfl
  | bmpEncode32 => cases he; exact startBmp_keeps_inv h (.inr rfl) rfl
  | ack =>
    simp only [exec, execAck] at he
    split_ifs at he with hb
    · cases he; exact h
    · cases he; exact h.cleared (by simpa using hb)
    · cases he; exact h
  | abort => cases he; exact h.abandoned
  | reservedCmd v =>
    simp only [exec, execReservedCmd] at he
    split_ifs at he
    · cases he; exact h
    · cases he; exact h.raised _
  | rgb | rgba | index | diff | luma | run => cases hi

/-! ### The host's accesses -/

/-- Validity does not speak of `ALLT`, the configuration registers, the value read, the counter of free values and the
accesses to come. -/
theorem State.Inv.host_side (h : s.Inv) (allt ie : Bool) (dim : Word) (colorBits : BitVec 4) (deltaEn : Bool)
    (inLen : Word) (freeCnt : Nat) (rdata : Word) (host : List HostAct) :
    { s with
      allt := allt, ie := ie, dim := dim, colorBits := colorBits, deltaEn := deltaEn, inLen := inLen, freeCnt := freeCnt
      rdata := rdata, host := host }.Inv where
  config := h.config
  memory := { h.memory with }
  status := { h.status with }
  operation := fun hb =>
    have hop := h.operation hb
    { hop with
      lzw := fun e => { hop.lzw e with }
      compress := fun e => { hop.compress e with }
      decompress := fun e => { hop.decompress e with }
      bmp := fun e => { hop.bmp e with } }

theorem storeReg_keeps_inv (h : s.Inv) (off : Nat) (v : Word) : (s.storeReg off v).Inv := by
  rw [State.storeReg]
  split_ifs
  case neg => exact h
  all_goals exact h.host_side _ _ _ _ _ _ _ _ _

theorem hostRegWrite_keeps_inv {off size : Nat} {v : Word} (h : s.Inv) (he : hostRegWrite off size v s = .next t) :
    t.Inv := by
  rw [hostRegWrite] at he
  split_ifs at he
  · exact exec_cmd_keeps_inv (decodeCmd_format v) h he
  · cases he; exact storeReg_keeps_inv h off v

theorem hostRegRead_keeps_inv {off size : Nat} (h : s.Inv) (he : hostRegRead off size s = .next t) : t.Inv := by
  rw [hostRegRead] at he
  split_ifs at he
  cases he
  exact h.host_side _ _ _ _ _ _ _ _ _

/-- A byte written to IN behind a pixel leaves the pixel (R60, R63). -/
theorem inPixel_write_above {a b : Nat} (v : Byte) (raced : Bool) (hab : b + 3 < a) :
    inPixel { s with inMem := s.inMem.write a v, inRaced := raced } b = inPixel s b := by
  simp only [inPixel, inByte]
  rw [Memory.read_write_other _ v (by omega), Memory.read_write_other _ v (by omega),
    Memory.read_write_other _ v (by omega), Memory.read_write_other _ v (by omega)]

/-- A write to IN below `LEN` during an operation is noted, and any other is not of the pixels consumed (R316 a, b). -/
theorem hostInWrite_keeps_inv {a : Nat} {v : Byte} (h : s.Inv) (he : hostInWrite a v s = .next t) : t.Inv := by
  rw [hostInWrite] at he
  split at he
  case isFalse => cases he
  case isTrue ha =>
    cases he
    refine ⟨h.config, ?_, ?_, fun hb => ?_⟩
    · refine { h.memory with inWf := Memory.write_wf h.memory.inWf a v, inBound := fun c hc => ?_ }
      rcases Memory.mem_write hc with rfl | hc
      · exact ha
      · exact h.memory.inBound c hc
    · refine { h.status with racedBusy := fun hr => ?_ }
      simp only [Bool.or_eq_true, Bool.and_eq_true] at hr
      exact hr.elim h.status.racedBusy And.left
    · have hop := h.operation hb
      refine
        { hop with
          lzw := fun e => { hop.lzw e with }
          compress := fun e => { hop.compress e with runPixels := fun hr k hk => ?_ }
          decompress := fun e => { hop.decompress e with }
          bmp := fun e => { hop.bmp e with } }
      have hc := hop.compress e
      have hlen := hop.pixelInput (.inl e)
      have hbusy : s.busy = true := hb
      simp only [hbusy, Bool.true_and, Bool.or_eq_false_iff, decide_eq_false_iff_not, not_lt] at hr
      obtain ⟨hraced, hbeyond⟩ := hr
      have hrun : k < s.work.qoi.run.toNat := hk
      have hle := hc.runRange.2
      have hpix := hc.pixels
      exact (inPixel_write_above v _ (by simp only; omega)).trans (hc.runPixels hraced k hrun)

theorem hostOutRead_keeps_inv {a : Nat} (h : s.Inv) (he : hostOutRead a s = .next t) : t.Inv := by
  rw [hostOutRead] at he
  split at he <;> cases he
  exact h.host_side _ _ _ _ _ _ _ _ _

/-- A host write to OUT makes the output unspecified, and nothing else (R316 e). -/
theorem hostOutWrite_keeps_inv {a : Nat} {v : Byte} (h : s.Inv) (he : hostOutWrite a v s = .next t) : t.Inv := by
  rw [hostOutWrite] at he
  split at he <;> cases he
  refine ⟨h.config, { h.memory with outKnown := by simp }, { h.status with }, fun hb => ?_⟩
  have hop := h.operation hb
  exact
    { hop with
      lzw := fun e => { hop.lzw e with }
      compress := fun e => { hop.compress e with }
      decompress := fun e => { hop.decompress e with }
      bmp := fun e => { hop.bmp e with } }

theorem hostTurn_keeps_inv {act : HostAct} (h : s.Inv) (he : hostTurn act s = .next t) : t.Inv := by
  cases act with
  | regWrite off size v => exact hostRegWrite_keeps_inv h he
  | regRead off size => exact hostRegRead_keeps_inv h he
  | inWrite a v => exact hostInWrite_keeps_inv h he
  | outRead a => exact hostOutRead_keeps_inv h he
  | outWrite a v => exact hostOutWrite_keeps_inv (v := v) h he
  | busWrite addr size v =>
    simp only [hostTurn] at he
    rcases hostBusWrite_cases addr size v s with ⟨off, e⟩ | ⟨a, w, e⟩ | ⟨a, w, e⟩ | e <;> rw [e] at he
    · exact hostRegWrite_keeps_inv h he
    · exact hostInWrite_keeps_inv h he
    · exact hostOutWrite_keeps_inv (v := w) h he
    · cases he
  | busRead addr size =>
    simp only [hostTurn] at he
    rcases hostBusRead_cases addr size s with ⟨off, e⟩ | ⟨a, e⟩ | e <;> rw [e] at he
    · exact hostRegRead_keeps_inv h he
    · exact hostOutRead_keeps_inv h he
    · cases he
  | wait => cases he; exact h
  | pass => cases he; exact h
  | hwReset => cases he; exact h.hardReset

end Turns

/-! ### The step -/

/-- All that a step can be: the engine's turn, or the host's next access on the state without it (log entry 7). -/
theorem step_cases (s : State) :
    (∃ rest, step s = engineTurn { s with host := rest }) ∨
      ∃ act rest, s.host = act :: rest ∧ step s = hostTurn act { s with host := rest } := by
  rw [step, takeTurn]
  split
  case h_1 => exact .inl ⟨s.host, rfl⟩
  case h_2 rest _ => exact .inl ⟨rest, rfl⟩
  case h_3 rest hhost =>
    split
    · exact .inl ⟨s.host, rfl⟩
    · exact .inr ⟨.wait, rest, hhost, rfl⟩
  case h_4 act rest _ _ hhost => exact .inr ⟨act, rest, hhost, rfl⟩

/-- Settles O50: whoever moves, the turn is taken from a state that differs in the accesses to come only. -/
theorem everyStepKeepsValidity : Obligations.EveryStepKeepsValidity := by
  intro s t h hstep
  have hrest (rest : List HostAct) : { s with host := rest }.Inv := h.host_side _ _ _ _ _ _ _ _ rest
  rcases step_cases s with ⟨rest, e⟩ | ⟨act, rest, -, e⟩ <;> rw [e] at hstep
  · exact engineTurn_keeps_inv (hrest rest) hstep
  · exact hostTurn_keeps_inv (hrest rest) hstep

end Sys2Proof.Machine
end

section
/-! ## The engine does not see the configuration registers (10_state.md R33, 70_reset_and_hazards.md R316 d)

Each operation of the engine answers for a block with other configuration registers what it answers for the block itself, with
those registers in the state it leaves. -/

namespace Sys2Proof.Machine

/-- Values of the five configuration registers (R26 to R30). -/
structure ConfigRegs where
  dim : Word
  inLen : Word
  colorBits : BitVec 4
  deltaEn : Bool
  ie : Bool

/-- The state with other configuration registers. -/
def State.withRegs (r : ConfigRegs) (s : State) : State :=
  { s with dim := r.dim, inLen := r.inLen, colorBits := r.colorBits, deltaEn := r.deltaEn, ie := r.ie }

/-- An outcome with other configuration registers in the next state. -/
def outcomeWithRegs (r : ConfigRegs) : Host.Outcome State Fault Refusal → Host.Outcome State Fault Refusal
  | .next t => .next (t.withRegs r)
  | .fault f => .fault f
  | .refused f => .refused f

section Results

variable {r : ConfigRegs} {P : Prop} [Decidable P]

/-! ### Results put together -/

theorem bind_withRegs {x x' : Res State} {f f' : State → Res State} (hx : x' = x.map (State.withRegs r))
    (hf : ∀ s, f' (s.withRegs r) = (f s).map (State.withRegs r)) : x'.bind f' = (x.bind f).map (State.withRegs r) := by
  subst hx
  cases x with
  | error e => rfl
  | ok s => exact hf s

theorem map_withRegs {x x' : Res State} {f f' : State → State} (hx : x' = x.map (State.withRegs r))
    (hf : ∀ s, f' (s.withRegs r) = (f s).withRegs r) : x'.map f' = (x.map f).map (State.withRegs r) := by
  subst hx
  cases x with
  | error e => rfl
  | ok s => exact congrArg Except.ok (hf s)

theorem ite_withRegs {x x' y y' : Res State} (hx : x' = x.map (State.withRegs r)) (hy : y' = y.map (State.withRegs r)) :
    (if P then x' else y') = (if P then x else y).map (State.withRegs r) := by
  split
  · exact hx
  · exact hy

theorem ite_outcomeWithRegs {x x' y y' : Host.Outcome State Fault Refusal} (hx : x' = outcomeWithRegs r x)
    (hy : y' = outcomeWithRegs r y) : (if P then x' else y') = outcomeWithRegs r (if P then x else y) := by
  split
  · exact hx
  · exact hy

theorem ite_state_withRegs {s s' t t' : State} (hs : s' = s.withRegs r) (ht : t' = t.withRegs r) :
    (if P then s' else t') = (if P then s else t).withRegs r := by
  split
  · exact hs
  · exact ht

theorem settle_withRegs {s : State} {x x' : Res State} (hx : x' = x.map (State.withRegs r)) :
    settle (s.withRegs r) x' = (settle s x).withRegs r := by
  subst hx
  cases x <;> rfl

end Results

section Operations

variable (r : ConfigRegs) (s : State)

/-! ### OUT and IN -/

theorem emit_withRegs (v : Byte) : emit v (s.withRegs r) = (emit v s).map (State.withRegs r) :=
  ite_withRegs rfl rfl

theorem emitAll_withRegs (bs : List Byte) : emitAll bs (s.withRegs r) = (emitAll bs s).map (State.withRegs r) := by
  induction bs generalizing s with
  | nil => rfl
  | cons v vs ih => exact bind_withRegs (emit_withRegs r s v) ih

/-- Bytes read from IN, with the state behind them. -/
def readWithRegs {α : Type} (x : Res (α × State)) : Res (α × State) := x.map fun p => (p.1, p.2.withRegs r)

theorem next_withRegs : next (s.withRegs r) = readWithRegs r (next s) := by
  simp only [next]
  change (if s.lat.len.toNat ≤ s.inPos.toNat then _ else _) = _
  split <;> rfl

theorem nextBytes_withRegs (n : Nat) : nextBytes n (s.withRegs r) = readWithRegs r (nextBytes n s) := by
  induction n generalizing s with
  | zero => rfl
  | succ n ih =>
    rw [nextBytes, nextBytes, next_withRegs]
    cases next s with
    | error f => rfl
    | ok p =>
      simp only [readWithRegs, Except.map, ih]
      cases nextBytes n p.2 <;> rfl

theorem fetchChunk_withRegs : fetchChunk (s.withRegs r) = readWithRegs r (fetchChunk s) := by
  rw [fetchChunk, fetchChunk, next_withRegs]
  cases next s with
  | error f => rfl
  | ok p =>
    simp only [readWithRegs, Except.map, Except.bind, nextBytes_withRegs]
    cases nextBytes (payloadLength p.1) p.2 <;> rfl

/-! ### LZW_COMPRESS -/

theorem flushBlock_withRegs : flushBlock (s.withRegs r) = (flushBlock s).map (State.withRegs r) :=
  map_withRegs (emitAll_withRegs r s _) fun _ => rfl

theorem putByte_withRegs (v : Byte) : putByte v (s.withRegs r) = (putByte v s).map (State.withRegs r) := by
  rw [putByte_eq, putByte_eq]
  exact ite_withRegs (flushBlock_withRegs r (s.staged v)) rfl

theorem drainAcc_withRegs (fuel : Nat) : drainAcc fuel (s.withRegs r) = (drainAcc fuel s).map (State.withRegs r) := by
  induction fuel generalizing s with
  | zero => rfl
  | succ fuel ih =>
    rw [drainAcc_succ, drainAcc_succ]
    exact ite_withRegs (bind_withRegs (putByte_withRegs r s _) fun s1 => ih s1.drained) rfl

theorem emitCode_withRegs (c : BitVec 12) : emitCode c (s.withRegs r) = (emitCode c s).map (State.withRegs r) :=
  drainAcc_withRegs r (s.packed c) 4

theorem lzwStartStep_withRegs : lzwStartStep (s.withRegs r) = (lzwStartStep s).map (State.withRegs r) :=
  bind_withRegs (emit_withRegs r s _) fun s1 => emitCode_withRegs r s1 _

theorem lzwSymbol_withRegs (x : Byte) : lzwSymbol x (s.withRegs r) = (lzwSymbol x s).map (State.withRegs r) := by
  refine ite_withRegs ?_ rfl
  change (match tabLookup s.work.lzw.tab s.work.lzw.prev x with | some code => _ | none => _) = _
  cases tabLookup s.work.lzw.tab s.work.lzw.prev x with
  | some code => rfl
  | none => exact map_withRegs (emitCode_withRegs r s _) fun _ => rfl

theorem lzwSymbolStep_withRegs : lzwSymbolStep (s.withRegs r) = (lzwSymbolStep s).map (State.withRegs r) := by
  rw [lzwSymbolStep, lzwSymbolStep, next_withRegs]
  cases next s with
  | error f => rfl
  | ok p => exact ite_withRegs rfl (lzwSymbol_withRegs r p.2 p.1)

theorem lzwFlushBits_withRegs : lzwFlushBits (s.withRegs r) = (lzwFlushBits s).map (State.withRegs r) :=
  ite_withRegs (map_withRegs (putByte_withRegs r s _) fun _ => rfl) rfl

theorem lzwEndStep_withRegs : lzwEndStep (s.withRegs r) = (lzwEndStep s).map (State.withRegs r) :=
  bind_withRegs (ite_withRegs (emitCode_withRegs r s _) rfl) fun s1 =>
    bind_withRegs (emitCode_withRegs r s1 _) fun s2 =>
      bind_withRegs (lzwFlushBits_withRegs r s2) fun s3 =>
        map_withRegs (ite_withRegs (flushBlock_withRegs r s3) rfl) fun _ => rfl

theorem lzwStep_withRegs : lzwStep (s.withRegs r) = (lzwStep s).map (State.withRegs r) :=
  ite_withRegs (lzwStartStep_withRegs r s) (ite_withRegs (lzwSymbolStep_withRegs r s) (lzwEndStep_withRegs r s))

/-! ### QOI_COMPRESS -/

theorem flushRun_withRegs : flushRun (s.withRegs r) = (flushRun s).map (State.withRegs r) :=
  ite_withRegs (map_withRegs (emitAll_withRegs r s _) fun _ => rfl) rfl

theorem qoiExtendRun_withRegs : qoiExtendRun (s.withRegs r) = (qoiExtendRun s).map (State.withRegs r) :=
  ite_withRegs (flushRun_withRegs r (s.setQoi _)) rfl

theorem qoiCodePixel_withRegs (p : Pixel) :
    qoiCodePixel p (s.withRegs r) = (qoiCodePixel p s).map (State.withRegs r) :=
  bind_withRegs (flushRun_withRegs r s) fun s1 => map_withRegs (emitAll_withRegs r s1 _) fun _ => rfl

theorem qoiCompressStep_withRegs : qoiCompressStep (s.withRegs r) = (qoiCompressStep s).map (State.withRegs r) := by
  refine ite_withRegs ?_ (bind_withRegs (flushRun_withRegs r s) fun s1 =>
    map_withRegs (emitAll_withRegs r s1 _) fun _ => rfl)
  rw [qoiPixelStep_eq, qoiPixelStep_eq]
  exact ite_withRegs (qoiExtendRun_withRegs r s.pixelTaken) (qoiCodePixel_withRegs r s.pixelTaken _)

/-! ### QOI_DECOMPRESS -/

theorem writeOne_withRegs (p : Pixel) : writeOne p (s.withRegs r) = (writeOne p s).map (State.withRegs r) :=
  map_withRegs (emitAll_withRegs r s _) fun _ => rfl

theorem writeRun_withRegs (n : Nat) : writeRun n (s.withRegs r) = (writeRun n s).map (State.withRegs r) :=
  ite_withRegs rfl (map_withRegs (emitAll_withRegs r s _) fun _ => rfl)

/-- The decoder of the chunk stream answers chunks only, never a command (R94). -/
theorem decodeChunk_format {bs rest : List Byte} {i : Instr} (h : decodeChunk bs = .ok (i, rest)) :
    i.format = .chunk := by
  cases bs with
  | nil => cases h
  | cons t bs =>
    simp only [decodeChunk] at h
    split_ifs at h with hrgb hrgba hindex hdiff hluma
    · split at h
      · cases h; rfl
      · cases h
    · split at h
      · cases h; rfl
      · cases h
    · cases h; rfl
    · cases h; rfl
    · split at h
      · cases h; rfl
      · cases h
    · cases h; rfl

theorem exec_chunk_withRegs {i : Instr} (hi : i.format = .chunk) :
    exec i (s.withRegs r) = outcomeWithRegs r (exec i s) := by
  cases i with
  | rgb | rgba | index | diff | luma => exact congrArg Host.Outcome.next (settle_withRegs (writeOne_withRegs r s _))
  | run n => exact congrArg Host.Outcome.next (settle_withRegs (writeRun_withRegs r s n))
  | nop | lzwCompress | qoiCompress | qoiDecompress | bmpEncode24 | bmpEncode32 | ack | abort | reservedCmd => cases hi

theorem chunkStep_withRegs : chunkStep (s.withRegs r) = outcomeWithRegs r (chunkStep s) := by
  rw [chunkStep, chunkStep, fetchChunk_withRegs]
  cases fetchChunk s with
  | error f => rfl
  | ok p =>
    simp only [readWithRegs, Except.map]
    cases hdec : decode .chunk p.1 with
    | error e => rfl
    | ok q =>
      simp only [exec_chunk_withRegs r p.2 (decodeChunk_format hdec)]
      cases exec q.1 p.2 with
      | next t => exact congrArg Host.Outcome.next (ite_state_withRegs rfl rfl)
      | fault f => rfl
      | refused f => rfl

/-! ### BMP_ENCODE24 and BMP_ENCODE32 -/

theorem bmpHeaderStep_withRegs : bmpHeaderStep (s.withRegs r) = (bmpHeaderStep s).map (State.withRegs r) :=
  map_withRegs (emitAll_withRegs r s _) fun _ => ite_state_withRegs rfl rfl

theorem bmpPixelStep_withRegs : bmpPixelStep (s.withRegs r) = (bmpPixelStep s).map (State.withRegs r) :=
  map_withRegs (emitAll_withRegs r { s with allt := _ } _) fun _ => rfl

theorem bmpPadStep_withRegs : bmpPadStep (s.withRegs r) = (bmpPadStep s).map (State.withRegs r) :=
  map_withRegs (emitAll_withRegs r s _) fun _ => ite_state_withRegs rfl rfl

theorem bmpStep_withRegs : bmpStep (s.withRegs r) = (bmpStep s).map (State.withRegs r) :=
  ite_withRegs (bmpHeaderStep_withRegs r s) (ite_withRegs (bmpPixelStep_withRegs r s) (bmpPadStep_withRegs r s))

/-! ### The engine's turn -/

theorem opStep_withRegs : opStep (s.withRegs r) = outcomeWithRegs r (opStep s) := by
  refine ite_outcomeWithRegs (congrArg Host.Outcome.next (settle_withRegs (lzwStep_withRegs r s))) ?_
  refine ite_outcomeWithRegs (congrArg Host.Outcome.next (settle_withRegs (qoiCompressStep_withRegs r s))) ?_
  refine ite_outcomeWithRegs (ite_outcomeWithRegs (chunkStep_withRegs r s) rfl) ?_
  exact ite_outcomeWithRegs (congrArg Host.Outcome.next (settle_withRegs (bmpStep_withRegs r s))) rfl

theorem raceStep_withRegs : raceStep (s.withRegs r) = (raceStep s).withRegs r := by
  rw [raceStep, raceStep]
  change (match Config.raceOutcome s.freeCnt with | .completes _ _ _ => _ | .faults _ _ => _) = _
  cases Config.raceOutcome s.freeCnt <;> rfl

theorem engineTurn_withRegs : engineTurn (s.withRegs r) = outcomeWithRegs r (engineTurn s) :=
  ite_outcomeWithRegs
    (ite_outcomeWithRegs (congrArg Host.Outcome.next (raceStep_withRegs r s)) (opStep_withRegs r s)) rfl

end Operations

/-- Settles O53: each operation of the engine passes other values of the five registers through unread. -/
theorem configWritesDoNotDisturbOperation : Obligations.ConfigWritesDoNotDisturbOperation := by
  intro s dim inLen colorBits deltaEn ie _
  refine (engineTurn_withRegs ⟨dim, inLen, colorBits, deltaEn, ie⟩ s).trans ?_
  cases engineTurn s <;> rfl

end Sys2Proof.Machine
end

section
/-! ## The host's registers and its view of OUT -/

namespace Sys2Proof.Machine

/-! ### What a register reads as (10_state.md R22 to R32) -/

theorem regValue_cmd (s : State) : s.regValue offCmd = 0#32 := rfl
theorem regValue_status (s : State) : s.regValue offStatus = s.statusWord := rfl
theorem regValue_ctrl (s : State) : s.regValue offCtrl = 0#31 ++ BitVec.ofBool s.ie := rfl
theorem regValue_dim (s : State) : s.regValue offDim = s.dim := rfl
theorem regValue_lzwCfg (s : State) : s.regValue offLzwCfg = 0#28 ++ s.colorBits := rfl
theorem regValue_qoiCfg (s : State) : s.regValue offQoiCfg = 0#31 ++ BitVec.ofBool s.deltaEn := rfl
theorem regValue_inLen (s : State) : s.regValue offInLen = s.inLen := rfl
theorem regValue_faultInfo (s : State) : s.regValue offFaultInfo = s.faultInfo := rfl

theorem regValue_inPos {s : State} (hb : s.busy = false) : s.regValue offInPos = s.inPos := by
  change (if s.busy then Config.freeInPos s.freeCnt else s.inPos) = s.inPos
  rw [hb]
  rfl

theorem regValue_outLen {s : State} (hb : s.busy = false) : s.regValue offOutLen = s.outLen := by
  change (if s.busy then Config.freeOutLen s.freeCnt else s.outLen) = s.outLen
  rw [hb]
  rfl

theorem regValue_reserved (s : State) {off : Nat} (h : 0x28 ≤ off) : s.regValue off = 0#32 := by
  have hne {k : Nat} (hk : k < 0x28) : ¬ off = k := by omega
  rw [State.regValue, if_neg (hne (by decide)), if_neg (hne (by decide)), if_neg (hne (by decide)),
    if_neg (hne (by decide)), if_neg (hne (by decide)), if_neg (hne (by decide)), if_neg (hne (by decide)),
    if_neg (hne (by decide)), if_neg (hne (by decide))]

/-- `STATUS` bit by bit (R25). -/
theorem statusWord_getLsbD (s : State) (i : Nat) :
    s.statusWord.getLsbD i =
      if i = 0 then s.busy else if i = 1 then s.done else if i = 2 then s.allt else if i = 3 then false
      else if i < 8 then s.err.getLsbD (i - 4) else if i < 12 then s.op.getLsbD (i - 8) else false := by
  rw [State.statusWord, BitVec.getLsbD_append, BitVec.getLsbD_append, BitVec.getLsbD_append, BitVec.getLsbD_append,
    BitVec.getLsbD_append, BitVec.getLsbD_append]
  match i with
  | 0 | 1 | 2 | 3 => simp
  | i + 4 =>
    have herr : i + 4 < 8 ↔ i < 4 := by omega
    have hop : i + 4 < 12 ↔ i - 4 < 4 := by omega
    simp [herr, hop]

/-- The fields of `STATUS` stand at the bits of R25, and every other bit is 0. -/
theorem statusWord_fields (s : State) :
    s.statusWord.getLsbD 0 = s.busy ∧ s.statusWord.getLsbD 1 = s.done ∧ s.statusWord.getLsbD 2 = s.allt ∧
      s.statusWord.getLsbD 3 = false ∧ s.statusWord.extractLsb' 4 4 = s.err ∧ s.statusWord.extractLsb' 8 4 = s.op ∧
      s.statusWord.extractLsb' 12 20 = 0#20 := by
  refine ⟨statusWord_getLsbD s 0, statusWord_getLsbD s 1, statusWord_getLsbD s 2, statusWord_getLsbD s 3, ?_, ?_, ?_⟩
  all_goals
    apply BitVec.eq_of_getLsbD_eq
    intro i hi
    rw [BitVec.getLsbD_extractLsb', statusWord_getLsbD, if_neg (by omega), if_neg (by omega), if_neg (by omega),
      if_neg (by omega)]
  · rw [if_pos (by omega), Nat.add_sub_cancel_left]
    simp [hi]
  · rw [if_neg (by omega), if_pos (by omega), Nat.add_sub_cancel_left]
    simp [hi]
  · rw [if_neg (by omega), if_neg (by omega)]
    simp

/-! ### What a write to a register leaves (R26 to R30) -/

theorem storeReg_ctrl (s : State) (v : Word) : s.storeReg offCtrl v = { s with ie := v.getLsbD 0 } := rfl
theorem storeReg_dim (s : State) (v : Word) : s.storeReg offDim v = { s with dim := v } := rfl
theorem storeReg_lzwCfg (s : State) (v : Word) : s.storeReg offLzwCfg v = { s with colorBits := v.extractLsb' 0 4 } := rfl
theorem storeReg_qoiCfg (s : State) (v : Word) : s.storeReg offQoiCfg v = { s with deltaEn := v.getLsbD 0 } := rfl
theorem storeReg_inLen (s : State) (v : Word) : s.storeReg offInLen v = { s with inLen := v } := rfl

/-- Read-only registers and reserved offsets keep their values (R22, log entry 10). -/
theorem storeReg_other (s : State) {off : Nat} (v : Word) (hctrl : off ≠ offCtrl) (hdim : off ≠ offDim)
    (hlzw : off ≠ offLzwCfg) (hqoi : off ≠ offQoiCfg) (hlen : off ≠ offInLen) : s.storeReg off v = s := by
  simp only [State.storeReg, hctrl, hdim, hlzw, hqoi, hlen, if_false]

/-- Bit 0 of a word, read back with the reserved bits 0 (R26, R29). -/
theorem lowBit_eq_and (v : Word) : 0#31 ++ BitVec.ofBool v[0] = v &&& 1#32 := by
  apply BitVec.eq_of_getLsbD_eq
  intro i hi
  rw [BitVec.getLsbD_append, BitVec.getLsbD_and, BitVec.getLsbD_one]
  cases i <;> simp [BitVec.getLsbD_eq_getElem]

/-- Bits 3:0 of a word, read back with the reserved bits 0 (R28). -/
theorem lowNibble_eq_and (v : Word) : 0#28 ++ v.extractLsb' 0 4 = v &&& 15#32 := by
  apply BitVec.eq_of_getLsbD_eq
  intro i hi
  have hmask : (15#32).getLsbD i = decide (i < 4) := by
    rw [BitVec.getLsbD_ofNat, show (15 : Nat) = 2 ^ 4 - 1 from rfl, Nat.testBit_two_pow_sub_one]
    simp [hi]
  rw [BitVec.getLsbD_append, BitVec.getLsbD_and, hmask]
  by_cases h : i < 4 <;> simp [h]

/-! ### Accesses -/

theorem hostRegWrite_store {off : Nat} (v : Word) (s : State) (hcmd : off ≠ offCmd) (hok : registerAccessOk off 4) :
    hostRegWrite off 4 v s = .next (s.storeReg off v) := by
  rw [hostRegWrite, if_pos hok, if_neg hcmd]

theorem hostRegRead_value {off : Nat} (s : State) (hok : registerAccessOk off 4) :
    hostRegRead off 4 s = .next { s with rdata := s.regValue off, freeCnt := s.freeCnt + 1 } := by
  rw [hostRegRead, if_pos hok]

/-- Settles O57, by cases on the register written. -/
theorem registerWritesStoreNamedBits : Obligations.RegisterWritesStoreNamedBits := by
  intro s off v hcmd halign hpage
  have hwrite := hostRegWrite_store v s hcmd ⟨rfl, halign, hpage⟩
  refine ⟨s.storeReg off v, hwrite, (hostBusWrite_reg 4 v (by rw [Config.regPage]; omega)).trans hwrite, ?_⟩
  by_cases hctrl : off = offCtrl
  · subst hctrl; simp [storeReg_ctrl, regValue_ctrl, lowBit_eq_and]
  by_cases hdim : off = offDim
  · subst hdim; simp [storeReg_dim, regValue_dim]
  by_cases hlzw : off = offLzwCfg
  · subst hlzw; simp [storeReg_lzwCfg, regValue_lzwCfg, lowNibble_eq_and]
  by_cases hqoi : off = offQoiCfg
  · subst hqoi; simp [storeReg_qoiCfg, regValue_qoiCfg, lowBit_eq_and]
  by_cases hlen : off = offInLen
  · subst hlen; simp [storeReg_inLen, regValue_inLen]
  rw [storeReg_other s v hctrl hdim hlzw hqoi hlen]
  simp [hctrl, hdim, hlzw, hqoi, hlen]

/-- Settles O58: the value read is `regValue`, register by register. -/
theorem registerReadsHaveNoSideEffect : Obligations.RegisterReadsHaveNoSideEffect := by
  intro s off halign hpage
  have hread := hostRegRead_value s ⟨rfl, halign, hpage⟩
  refine ⟨_, hread, rfl, ?_, ?_, ?_, ?_, ?_, ?_, ?_, ?_, ?_,
    (hostBusRead_reg 4 (by rw [Config.regPage]; omega)).trans hread⟩
  · rintro (rfl | h)
    · exact regValue_cmd s
    · exact regValue_reserved s h
  · rintro rfl; exact statusWord_fields s
  · rintro rfl; exact regValue_ctrl s
  · rintro rfl; exact regValue_dim s
  · rintro rfl; exact regValue_lzwCfg s
  · rintro rfl; exact regValue_qoiCfg s
  · rintro rfl; exact regValue_inLen s
  · rintro rfl; exact regValue_faultInfo s
  · intro hb
    exact ⟨by rintro rfl; exact regValue_inPos hb, by rintro rfl; exact regValue_outLen hb⟩

/-! ### Reset -/

/-- Settles O21: each register's value, and an idle block with no access to come, whose engine does nothing. -/
theorem resetRegisterValues : Obligations.ResetRegisterValues := by
  have hidle : State.reset.busy = false := rfl
  refine ⟨regValue_cmd _, (regValue_status _).trans (by decide), regValue_ctrl _, regValue_dim _, regValue_lzwCfg _,
    regValue_qoiCfg _, regValue_inLen _, regValue_inPos hidle, regValue_outLen hidle, regValue_faultInfo _, rfl, rfl⟩

/-- The empty memories and the idle block meet every clause, whatever the parameters. -/
theorem resetWith_inv {c : Config} (h : c.wf) : (State.resetWith c).Inv :=
  .of_idle rfl h (.of_emptyOut List.Pairwise.nil (by simp [State.resetWith]) rfl rfl)
    (by constructor <;> simp [State.resetWith])

/-- Settles O23, with the parameters of `Config.standard`. -/
theorem resetStateIsValid : Obligations.ResetStateIsValid := resetWith_inv (by decide)

/-! ### The step at a write to `CMD` -/

/-- Settles O7: the access is one the block defines, at the offset of `CMD`. -/
theorem stepRunsWrittenCommand : Obligations.StepRunsWrittenCommand := by
  intro s v rest h
  have hturn : step s = hostTurn (.regWrite offCmd 4 v) { s with host := rest } := by rw [step, takeTurn, h]
  rw [hturn, hostTurn, hostRegWrite, if_pos (by decide), if_pos rfl]

/-! ### The output as the host reads it -/

/-- Output that is held is read back, byte by byte, while the block is not busy (R31, R143). -/
theorem State.holdsOutput.outByte_eq {s : State} {bs : List Byte} (h : s.holdsOutput bs) (hb : s.busy = false) {a : Nat}
    (ha : a < bs.length) : outByte s a = bs[a] := by
  obtain ⟨hlen, hfree, hread⟩ := h
  rw [outByte, if_pos ⟨hb, hfree, by omega⟩, hread a ha, List.getElem?_eq_getElem ha]
  rfl

/-- `ACK` of a block that is not busy leaves the output (R139). -/
theorem State.holdsOutput.after_ack {s : State} {bs : List Byte} (h : s.holdsOutput bs) :
    ∃ u, exec .ack s = .next u ∧ u.holdsOutput bs := by
  simp only [exec, execAck]
  split_ifs
  · exact ⟨s, rfl, h⟩
  · exact ⟨clearOutcome s, rfl, h⟩
  · exact ⟨s, rfl, h⟩

/-- Settles O60: the read changes nothing `holdsOutput` speaks of, nor does `ACK` after it. -/
theorem hostReadsTheOutput : Obligations.HostReadsTheOutput := by
  intro s bs a rest hhost hb hout hcap
  have hturn : step s = hostOutRead a { s with host := rest } := by rw [step, takeTurn, hhost]; rfl
  refine ⟨fun ha => ?_, fun ha => ?_⟩
  · have hin : a < s.cfg.outCap.toNat := by omega
    rw [hturn, hostOutRead, if_pos hin]
    have hheld : { s with host := rest }.holdsOutput bs := hout
    refine ⟨_, rfl, ?_, hout, rfl, ?_⟩
    · rw [hheld.outByte_eq hb ha]
    · exact State.holdsOutput.after_ack hout
  · rw [hturn, hostOutRead, if_neg (not_lt.2 ha)]

end Sys2Proof.Machine
end

section
/-! ## Accesses to IN and OUT, one at a time (20_memory.md R60, R66) -/

namespace Sys2Proof.Machine

/-- Settles O24: the two branches of `emit` are `emit_full` and `emit_fits`. -/
theorem emitAppendsOneByteOrRaises : Obligations.EmitAppendsOneByteOrRaises := by
  intro v s
  refine ⟨emit_full, fun hroom => ⟨s.appended [v], emit_fits hroom, ?_, ?_, ?_, rfl⟩⟩
  · have hcap := s.cfg.outCap.isLt
    exact s.appended_outLen_toNat [v] (by rw [List.length_singleton]; omega)
  · exact Memory.read_write_same _ _ _
  · exact fun a ha => Memory.read_write_other _ v (Ne.symm ha)

/-- What IN reads as after a byte of it is written (R60). -/
theorem inByte_write (s : State) (a b : Nat) (v : Byte) (raced : Bool) (host : List HostAct) :
    inByte { s with inMem := s.inMem.write a v, inRaced := raced, host := host } b =
      if a = b then v else inByte s b := by
  simp only [inByte, Memory.read_write]
  split <;> rfl

/-- Settles O59: the step is `hostInWrite` on the state without the access. -/
theorem hostWriteStoresOneInputByte : Obligations.HostWriteStoresOneInputByte := by
  intro s a v rest hhost
  have hturn : step s = hostInWrite a v { s with host := rest } := by rw [step, takeTurn, hhost]; rfl
  rw [hturn, hostInWrite]
  refine ⟨fun hin => ?_, fun hout => if_neg (not_lt.2 hout)⟩
  rw [if_pos hin]
  refine ⟨_, rfl, ?_, fun b hb => ?_, ?_, rfl⟩
  · exact (inByte_write s a a v _ rest).trans (if_pos rfl)
  · exact (inByte_write s a b v _ rest).trans (if_neg (Ne.symm hb))
  · simp

/-- A chunk is executed by writing one pixel, or it is a run (44_qoi_decompress.md R254 to R259). -/
theorem exec_chunk_writes {i : Instr} (hi : i.format = .chunk) (s : State) :
    (∃ n, i = .run n) ∨ ((∀ n, i ≠ .run n) ∧ ∃ p, exec i s = .next (settle s (writeOne p s))) := by
  cases i with
  | rgb r g b => exact .inr ⟨nofun, _, execRgb_eq r g b s⟩
  | rgba r g b a => exact .inr ⟨nofun, _, execRgba_eq r g b a s⟩
  | index idx => exact .inr ⟨nofun, _, execIndex_eq idx s⟩
  | diff dr dg db => exact .inr ⟨nofun, _, execDiff_eq dr dg db s⟩
  | luma dg drDg dbDg => exact .inr ⟨nofun, _, execLuma_eq dg drDg dbDg s⟩
  | run n => exact .inl ⟨n, rfl⟩
  | nop | lzwCompress | qoiCompress | qoiDecompress | bmpEncode24 | bmpEncode32 | ack | abort | reservedCmd => cases hi

theorem writeOne_full {p : Pixel} {s : State} (hle : s.outLen.toNat ≤ s.cfg.outCap.toNat)
    (hfull : s.cfg.outCap.toNat < s.outLen.toNat + 4) : writeOne p s = .error ⟨.outFull, s.cfg.outCap⟩ := by
  rcases writeOne_cases (p := p) hle with ⟨hfit, -⟩ | ⟨-, e⟩
  · omega
  · exact e

theorem writeRun_full {n : Nat} {s : State} (hle : s.outLen.toNat ≤ s.cfg.outCap.toNat)
    (hn : s.work.qoi.pixn.toNat + n ≤ s.lat.n.toNat) (hfull : s.cfg.outCap.toNat < s.outLen.toNat + 4 * n) :
    writeRun n s = .error ⟨.outFull, s.cfg.outCap⟩ := by
  rcases writeRun_cases (n := n) hle with ⟨-, hfit, -⟩ | ⟨-, -, e⟩ | ⟨hmore, -⟩
  · omega
  · exact e
  · omega

/-- Settles O31, for a run and for a chunk of one pixel. -/
theorem chunkWithoutRoomRaisesOutFull : Obligations.ChunkWithoutRoomRaisesOutFull := by
  intro s i hi hle hrun hone
  rcases exec_chunk_writes hi s with ⟨n, rfl⟩ | ⟨hne, p, hexec⟩
  · obtain ⟨hn, hfull⟩ := hrun n rfl
    rw [execRun_eq, writeRun_full hle hn hfull, settle_error]
  · rw [hexec, writeOne_full hle (hone hne), settle_error]

end Sys2Proof.Machine
end

section
/-! ## What a step of the engine reads of IN, and what it leaves alone (20_memory.md R60 to R62)

Three facts that every part of a step has, proved together and put together like the step itself: with another IN it does the
same unless it reads a byte that differs; it changes only what is the engine's; and unless it takes a fault it only appends to
OUT. -/

namespace Sys2Proof.Machine

/-- The state with another IN. -/
def State.withInput (m : Memory) (s : State) : State := { s with inMem := m }

/-- An outcome with another IN in the next state. -/
def outcomeWithInput (m : Memory) : Host.Outcome State Fault Refusal → Host.Outcome State Fault Refusal
  | .next t => .next (t.withInput m)
  | .fault f => .fault f
  | .refused f => .refused f

/-- `t` differs from `s` at most in what the engine writes: the flags, the cursors, the fault registers, the working state and
OUT, with the model's own notes about them. -/
def EngineFrame (s t : State) : Prop :=
  t =
    { s with
      busy := t.busy, done := t.done, allt := t.allt, err := t.err, inPos := t.inPos, outLen := t.outLen
      faultInfo := t.faultInfo, work := t.work, outMem := t.outMem, freeCnt := t.freeCnt, inRaced := t.inRaced
      outFree := t.outFree }

theorem EngineFrame.trans {s t u : State} (h : EngineFrame s t) (k : EngineFrame t u) : EngineFrame s u := by
  unfold EngineFrame at *
  rw [h] at k
  exact k

/-- Bytes of OUT are added at most behind those of `s` (R62). -/
def KeepsOutput (s t : State) : Prop :=
  s.outLen.toNat ≤ t.outLen.toNat ∧ ∀ a, a < s.outLen.toNat → t.outMem.read a = s.outMem.read a

theorem KeepsOutput.trans {s t u : State} (h : KeepsOutput s t) (k : KeepsOutput t u) : KeepsOutput s u := by
  obtain ⟨hlen, hread⟩ := h
  obtain ⟨klen, kread⟩ := k
  exact ⟨hlen.trans klen, fun a ha => (kread a (ha.trans_le hlen)).trans (hread a ha)⟩

/-- What a part of a step that meets no fault does to the block. -/
structure Progress (s t : State) : Prop where
  frame : EngineFrame s t
  output : KeepsOutput s t

namespace Progress

variable {s t u : State}

theorem trans (h : Progress s t) (k : Progress t u) : Progress s u :=
  ⟨h.frame.trans k.frame, h.output.trans k.output⟩

/-- Flags, cursor and working registers are the engine's, and not in OUT. -/
theorem touched (s : State) (busy done allt : Bool) (inPos : Word) (work : Work) :
    Progress s { s with busy := busy, done := done, allt := allt, inPos := inPos, work := work } :=
  ⟨rfl, le_rfl, fun _ _ => rfl⟩

theorem refl (s : State) : Progress s s := touched s _ _ _ _ _

theorem ite {P : Prop} [Decidable P] (h : Progress s t) (k : Progress s u) : Progress s (if P then t else u) := by
  split
  · exact h
  · exact k

theorem appended {v : Byte} (h : s.outLen.toNat < s.cfg.outCap.toNat) : Progress s (s.appended [v]) := by
  have hcap := s.cfg.outCap.isLt
  have hlen := s.appended_outLen_toNat [v] (by rw [List.length_singleton]; omega)
  exact ⟨rfl, by rw [hlen]; exact Nat.le_add_right _ _, fun a ha => s.appended_read_below [v] ha⟩

end Progress

theorem ite_withInput {m : Memory} {P : Prop} [Decidable P] {s s' t t' : State} (hs : s' = s.withInput m)
    (ht : t' = t.withInput m) : (if P then s' else t') = (if P then s else t).withInput m := by
  split
  · exact hs
  · exact ht

/-- `x` is what a part of a step comes to from `s`, and `x'` what it comes to from `s` with IN replaced by `m`. -/
structure Confined (m : Memory) (s : State) (x x' : Res State) : Prop where
  commutes : x' = x.map (State.withInput m)
  progress : ∀ t, x = .ok t → Progress s t

/-- The same for a whole turn, which may also take a fault. -/
structure TurnConfined (m : Memory) (s : State) (x x' : Host.Outcome State Fault Refusal) : Prop where
  commutes : x' = outcomeWithInput m x
  frame : ∀ t, x = .next t → EngineFrame s t
  output : ∀ t, x = .next t → t.err = 0#4 → KeepsOutput s t

section Combining

variable {m : Memory} {s t : State} {P : Prop} [Decidable P]

namespace Confined

variable {x x' y y' : Res State}

theorem ok (h : Progress s t) : Confined m s (.ok t) (.ok (t.withInput m)) :=
  ⟨rfl, by rintro _ ⟨⟩; exact h⟩

theorem error (f : Raised) : Confined m s (.error f) (.error f) := ⟨rfl, by rintro _ ⟨⟩⟩

theorem bind {f f' : State → Res State} (h : Confined m s x x')
    (hf : ∀ u, Confined m u (f u) (f' (u.withInput m))) : Confined m s (x.bind f) (x'.bind f') := by
  obtain ⟨rfl, hx⟩ := h
  cases x with
  | error e => exact error e
  | ok u => exact ⟨(hf u).commutes, fun t ht => (hx u rfl).trans ((hf u).progress t ht)⟩

theorem map {f f' : State → State} (h : Confined m s x x') (hc : ∀ u, f' (u.withInput m) = (f u).withInput m)
    (hf : ∀ u, Progress u (f u)) : Confined m s (x.map f) (x'.map f') := by
  obtain ⟨rfl, hx⟩ := h
  cases x with
  | error e => exact error e
  | ok u =>
    refine ⟨congrArg Except.ok (hc u), ?_⟩
    rintro _ ⟨⟩
    exact (hx u rfl).trans (hf u)

theorem ite (h : P → Confined m s x x') (k : ¬ P → Confined m s y y') :
    Confined m s (if P then x else y) (if P then x' else y') := by
  split
  case isTrue hP => exact h hP
  case isFalse hP => exact k hP

/-- What is done before counts. -/
theorem after (h : Progress s t) (k : Confined m t x x') : Confined m s x x' :=
  ⟨k.commutes, fun u hu => h.trans (k.progress u hu)⟩

/-- With the fault taken, where there is one (60_exceptions.md R288). -/
theorem settled (h : Confined m s x x') : TurnConfined m s (.next (settle s x)) (.next (settle (s.withInput m) x')) := by
  obtain ⟨rfl, hx⟩ := h
  cases x with
  | error f =>
    have herr : f.kind.code ≠ 0#4 := by cases f.kind <;> decide
    exact ⟨rfl, by rintro _ ⟨⟩; rfl, by rintro _ ⟨⟩ h; exact absurd h herr⟩
  | ok t =>
    exact ⟨rfl, by rintro _ ⟨⟩; exact (hx t rfl).frame, by rintro _ ⟨⟩ -; exact (hx t rfl).output⟩

end Confined

namespace TurnConfined

variable {x x' y y' : Host.Outcome State Fault Refusal}

theorem ok (h : Progress s t) : TurnConfined m s (.next t) (.next (t.withInput m)) :=
  (Confined.ok h).settled

theorem ite (h : P → TurnConfined m s x x') (k : ¬ P → TurnConfined m s y y') :
    TurnConfined m s (if P then x else y) (if P then x' else y') := by
  split
  case isTrue hP => exact h hP
  case isFalse hP => exact k hP

theorem after (h : Progress s t) (k : TurnConfined m t x x') : TurnConfined m s x x' :=
  ⟨k.commutes, fun u hu => h.frame.trans (k.frame u hu), fun u hu he => h.output.trans (k.output u hu he)⟩

end TurnConfined

end Combining

section Parts

variable (m : Memory) (s : State)

/-! ### OUT -/

theorem emit_confined (v : Byte) : Confined m s (emit v s) (emit v (s.withInput m)) := by
  by_cases hroom : s.outLen.toNat < s.cfg.outCap.toNat
  · rw [emit_fits hroom, emit_fits (s := s.withInput m) hroom]
    exact .ok (.appended hroom)
  · rw [emit_full (not_lt.1 hroom), emit_full (s := s.withInput m) (not_lt.1 hroom)]
    exact .error _

theorem emitAll_confined (bs : List Byte) : Confined m s (emitAll bs s) (emitAll bs (s.withInput m)) := by
  induction bs generalizing s with
  | nil => exact .ok (.refl s)
  | cons v vs ih => exact (emit_confined m s v).bind ih

/-! ### LZW_COMPRESS -/

theorem flushBlock_confined : Confined m s (flushBlock s) (flushBlock (s.withInput m)) :=
  (emitAll_confined m s _).map (fun _ => rfl) fun _ => .touched _ _ _ _ _ _

theorem putByte_confined (v : Byte) : Confined m s (putByte v s) (putByte v (s.withInput m)) := by
  have hstaged : Progress s (s.staged v) := .touched _ _ _ _ _ _
  rw [putByte_eq, putByte_eq]
  exact .ite (fun _ => .after hstaged (flushBlock_confined m (s.staged v))) fun _ => .ok hstaged

theorem drainAcc_confined (fuel : Nat) : Confined m s (drainAcc fuel s) (drainAcc fuel (s.withInput m)) := by
  induction fuel generalizing s with
  | zero => exact .ok (.refl s)
  | succ fuel ih =>
    rw [drainAcc_succ, drainAcc_succ]
    exact .ite (fun _ => (putByte_confined m s _).bind fun u => .after (.touched _ _ _ _ _ _) (ih u.drained))
      fun _ => .ok (.refl s)

theorem emitCode_confined (c : BitVec 12) : Confined m s (emitCode c s) (emitCode c (s.withInput m)) :=
  .after (.touched _ _ _ _ _ _) (drainAcc_confined m (s.packed c) 4)

theorem lzwStartStep_confined : Confined m s (lzwStartStep s) (lzwStartStep (s.withInput m)) :=
  (emit_confined m s _).bind fun u => emitCode_confined m u _

theorem lzwSymbol_confined (x : Byte) : Confined m s (lzwSymbol x s) (lzwSymbol x (s.withInput m)) := by
  refine .ite (fun _ => ?_) fun _ => .ok (.touched _ _ _ _ _ _)
  change Confined m s (match tabLookup s.work.lzw.tab s.work.lzw.prev x with | some code => _ | none => _)
    (match tabLookup s.work.lzw.tab s.work.lzw.prev x with | some code => _ | none => _)
  cases tabLookup s.work.lzw.tab s.work.lzw.prev x with
  | some code => exact .ok (.touched _ _ _ _ _ _)
  | none => exact (emitCode_confined m s _).map (fun _ => rfl) fun _ => .touched _ _ _ _ _ _

theorem lzwFlushBits_confined : Confined m s (lzwFlushBits s) (lzwFlushBits (s.withInput m)) :=
  .ite (fun _ => (putByte_confined m s _).map (fun _ => rfl) fun _ => .touched _ _ _ _ _ _) fun _ => .ok (.refl s)

theorem lzwEndStep_confined : Confined m s (lzwEndStep s) (lzwEndStep (s.withInput m)) :=
  Confined.bind (.ite (fun _ => emitCode_confined m s _) fun _ => .ok (.refl s)) fun s1 =>
    (emitCode_confined m s1 _).bind fun s2 =>
      (lzwFlushBits_confined m s2).bind fun s3 =>
        Confined.map (.ite (fun _ => flushBlock_confined m s3) fun _ => .ok (.refl s3)) (fun _ => rfl)
          fun _ => .touched _ _ _ _ _ _

/-! ### QOI_COMPRESS -/

theorem flushRun_confined : Confined m s (flushRun s) (flushRun (s.withInput m)) :=
  .ite (fun _ => (emitAll_confined m s _).map (fun _ => rfl) fun _ => .touched _ _ _ _ _ _) fun _ => .ok (.refl s)

theorem qoiExtendRun_confined : Confined m s (qoiExtendRun s) (qoiExtendRun (s.withInput m)) :=
  .ite (fun _ => .after (.touched _ _ _ _ _ _) (flushRun_confined m (s.setQoi _)))
    fun _ => .ok (.touched _ _ _ _ _ _)

theorem qoiCodePixel_confined (p : Pixel) : Confined m s (qoiCodePixel p s) (qoiCodePixel p (s.withInput m)) :=
  (flushRun_confined m s).bind fun u =>
    (emitAll_confined m u _).map (fun _ => rfl) fun _ => .touched _ _ _ _ _ _

theorem qoiEndStep_confined : Confined m s (qoiEndStep s) (qoiEndStep (s.withInput m)) :=
  (flushRun_confined m s).bind fun u =>
    (emitAll_confined m u _).map (fun _ => rfl) fun _ => .touched _ _ _ _ _ _

/-! ### QOI_DECOMPRESS -/

theorem writeOne_confined (p : Pixel) : Confined m s (writeOne p s) (writeOne p (s.withInput m)) :=
  (emitAll_confined m s _).map (fun _ => rfl) fun _ => .touched _ _ _ _ _ _

theorem writeRun_confined (n : Nat) : Confined m s (writeRun n s) (writeRun n (s.withInput m)) :=
  .ite (fun _ => .error _) fun _ => (emitAll_confined m s _).map (fun _ => rfl) fun _ => .touched _ _ _ _ _ _

theorem exec_chunk_confined {i : Instr} (hi : i.format = .chunk) :
    TurnConfined m s (exec i s) (exec i (s.withInput m)) := by
  cases i with
  | rgb | rgba | index | diff | luma => exact (writeOne_confined m s _).settled
  | run n => exact (writeRun_confined m s n).settled
  | nop | lzwCompress | qoiCompress | qoiDecompress | bmpEncode24 | bmpEncode32 | ack | abort | reservedCmd => cases hi

theorem finishDecompress_progress : Progress s (finishDecompress s) :=
  .ite (.touched _ _ _ _ _ _) (.refl s)

theorem finishDecompress_withInput : finishDecompress (s.withInput m) = (finishDecompress s).withInput m :=
  ite_withInput rfl rfl

theorem finishDecompress_err : (finishDecompress s).err = s.err := by
  rw [finishDecompress]
  split <;> rfl

/-! ### BMP_ENCODE24 and BMP_ENCODE32 -/

theorem bmpHeaderStep_confined : Confined m s (bmpHeaderStep s) (bmpHeaderStep (s.withInput m)) :=
  (emitAll_confined m s _).map (fun _ => ite_withInput rfl rfl)
    fun _ => .ite (.touched _ _ _ _ _ _) (.touched _ _ _ _ _ _)

/-- The IN address of the pixel at `(COL, ROW)` (R157). -/
def State.bmpPixelAddr (s : State) : Nat := pixelAddr s.lat.w.toNat s.work.bmp.col.toNat s.work.bmp.row.toNat

/-- The pixel step once the pixel is read (R157 to R159). -/
def bmpWritePixel (p : Pixel) (s : State) : Res State :=
  (emitAll (bmpPixel (bmpVersion s.lat.opl) p) { s with allt := s.allt && p.a == 0#8 }).map
    fun s1 => s1.setBmp { s1.work.bmp with col := s1.work.bmp.col + 1#16 }

theorem bmpPixelStep_eq : bmpPixelStep s = bmpWritePixel (inPixel s s.bmpPixelAddr) s := rfl

theorem bmpWritePixel_confined (p : Pixel) : Confined m s (bmpWritePixel p s) (bmpWritePixel p (s.withInput m)) :=
  .after (.touched s _ _ _ _ _)
    ((emitAll_confined m { s with allt := _ } _).map (fun _ => rfl) fun _ => .touched _ _ _ _ _ _)

theorem bmpPadStep_confined : Confined m s (bmpPadStep s) (bmpPadStep (s.withInput m)) :=
  (emitAll_confined m s _).map (fun _ => ite_withInput rfl rfl)
    fun _ => .ite (.touched _ _ _ _ _ _) (.touched _ _ _ _ _ _)

end Parts

/-! ### The parts that read IN -/

/-- The input of the operation is the same in `m` (R61). -/
def InputAgrees (m : Memory) (s : State) : Prop := ∀ a, a < s.lat.len.toNat → m.read a = s.inMem.read a

/-- What reading with the cursor comes to, from `s` and from `s` with IN replaced by `m`: the same bytes, and the cursor
moved. -/
structure ReadConfined {α : Type} (m : Memory) (s : State) (x x' : Res (α × State)) : Prop where
  commutes : x' = x.map fun p => (p.1, p.2.withInput m)
  cursor : ∀ p, x = .ok p → ∃ k, p.2 = s.advanced k

theorem Progress.advanced (s : State) (k : Nat) : Progress s (s.advanced k) := .touched _ _ _ _ _ _

section Reading

variable {m : Memory} {s : State}

theorem InputAgrees.inByte_eq (h : InputAgrees m s) {a : Nat} (ha : a < s.lat.len.toNat) :
    inByte (s.withInput m) a = inByte s a :=
  congrArg (Option.getD · _) (h a ha)

theorem InputAgrees.inPixel_eq (h : InputAgrees m s) {a : Nat} (ha : a + 3 < s.lat.len.toNat) :
    inPixel (s.withInput m) a = inPixel s a := by
  rw [inPixel, h.inByte_eq (by omega), h.inByte_eq (by omega), h.inByte_eq (by omega), h.inByte_eq (by omega), inPixel]

theorem ReadConfined.bind {α β : Type} {x x' : Res (α × State)} {f f' : α × State → Res (β × State)}
    (h : ReadConfined m s x x')
    (hf : ∀ a k, ReadConfined m (s.advanced k) (f (a, s.advanced k)) (f' (a, (s.advanced k).withInput m))) :
    ReadConfined m s (x.bind f) (x'.bind f') := by
  obtain ⟨rfl, hx⟩ := h
  cases x with
  | error e => exact ⟨rfl, by rintro _ ⟨⟩⟩
  | ok p =>
    obtain ⟨k, hk⟩ := hx p rfl
    obtain ⟨hcomm, hcursor⟩ := hf p.1 k
    rw [← hk] at hcomm hcursor
    refine ⟨hcomm, fun q hq => ?_⟩
    obtain ⟨j, hj⟩ := hcursor q hq
    exact ⟨k + j, by rw [hj, hk, State.advanced_advanced]⟩

theorem ReadConfined.map {α β : Type} {x x' : Res (α × State)} (h : ReadConfined m s x x') (f : α → β) :
    ReadConfined m s (x.map fun p => (f p.1, p.2)) (x'.map fun p => (f p.1, p.2)) := by
  obtain ⟨rfl, hx⟩ := h
  cases x with
  | error e => exact ⟨rfl, by rintro _ ⟨⟩⟩
  | ok p =>
    refine ⟨rfl, ?_⟩
    rintro _ ⟨⟩
    exact hx p rfl

theorem ReadConfined.progress {α : Type} {x x' : Res (α × State)} (h : ReadConfined m s x x') {p : α × State}
    (hp : x = .ok p) : Progress s p.2 := by
  obtain ⟨k, hk⟩ := h.cursor p hp
  exact hk ▸ .advanced s k

theorem next_confined (h : InputAgrees m s) : ReadConfined m s (next s) (next (s.withInput m)) := by
  by_cases hmore : s.inPos.toNat < s.lat.len.toNat
  · rw [next_ok hmore, next_ok (s := s.withInput m) hmore]
    refine ⟨congrArg (fun b => Except.ok (b, _)) (h.inByte_eq hmore), ?_⟩
    rintro _ ⟨⟩
    exact ⟨1, rfl⟩
  · rw [next_end (not_lt.1 hmore), next_end (s := s.withInput m) (not_lt.1 hmore)]
    exact ⟨rfl, by rintro _ ⟨⟩⟩

theorem nextBytes_succ (n : Nat) (s : State) :
    nextBytes (n + 1) s = (next s).bind fun p => (nextBytes n p.2).map fun q => (p.1 :: q.1, q.2) := by
  rw [nextBytes]
  cases next s with
  | error f => rfl
  | ok p =>
    simp only [Except.bind]
    cases nextBytes n p.2 <;> rfl

theorem nextBytes_confined (n : Nat) (h : InputAgrees m s) :
    ReadConfined m s (nextBytes n s) (nextBytes n (s.withInput m)) := by
  induction n generalizing s with
  | zero =>
    refine ⟨rfl, ?_⟩
    rintro _ ⟨⟩
    exact ⟨0, s.advanced_zero.symm⟩
  | succ n ih =>
    rw [nextBytes_succ, nextBytes_succ]
    exact (next_confined h).bind fun b k => (ih (s := s.advanced k) h).map (b :: ·)

theorem fetchChunk_confined (h : InputAgrees m s) :
    ReadConfined m s (fetchChunk s) (fetchChunk (s.withInput m)) :=
  (next_confined h).bind fun b k => (nextBytes_confined (s := s.advanced k) (payloadLength b) h).map (b :: ·)

theorem lzwSymbolStep_confined (h : InputAgrees m s) :
    Confined m s (lzwSymbolStep s) (lzwSymbolStep (s.withInput m)) := by
  have hread := next_confined h
  rw [lzwSymbolStep, lzwSymbolStep, hread.commutes]
  cases hnext : next s with
  | error f => exact .error f
  | ok p =>
    exact .after (hread.progress hnext) (.ite (fun _ => .error _) fun _ => lzwSymbol_confined m p.2 p.1)

theorem lzwStep_confined (h : InputAgrees m s) : Confined m s (lzwStep s) (lzwStep (s.withInput m)) :=
  .ite (fun _ => lzwStartStep_confined m s) fun _ =>
    .ite (fun _ => lzwSymbolStep_confined h) fun _ => lzwEndStep_confined m s

theorem qoiPixelStep_confined (h : inPixel (s.withInput m) s.inPos.toNat = inPixel s s.inPos.toNat) :
    Confined m s (qoiPixelStep s) (qoiPixelStep (s.withInput m)) := by
  have htaken : Progress s s.pixelTaken := .touched _ _ _ _ _ _
  rw [qoiPixelStep_eq, qoiPixelStep_eq]
  change Confined m s _ (if inPixel (s.withInput m) s.inPos.toNat = s.work.qoi.prevpx then _
    else qoiCodePixel (inPixel (s.withInput m) s.inPos.toNat) _)
  rw [h]
  exact .after htaken
    (.ite (fun _ => qoiExtendRun_confined m s.pixelTaken) fun _ => qoiCodePixel_confined m s.pixelTaken _)

theorem bmpPixelStep_confined (h : inPixel (s.withInput m) s.bmpPixelAddr = inPixel s s.bmpPixelAddr) :
    Confined m s (bmpPixelStep s) (bmpPixelStep (s.withInput m)) := by
  rw [bmpPixelStep_eq, bmpPixelStep_eq]
  change Confined m s _ (bmpWritePixel (inPixel (s.withInput m) s.bmpPixelAddr) (s.withInput m))
  rw [h]
  exact bmpWritePixel_confined m s _

theorem chunkStep_confined (h : InputAgrees m s) : TurnConfined m s (chunkStep s) (chunkStep (s.withInput m)) := by
  have hread := fetchChunk_confined h
  rw [chunkStep, chunkStep, hread.commutes]
  cases hfetch : fetchChunk s with
  | error f => exact (Confined.error f).settled
  | ok p =>
    simp only [Except.map]
    cases hdec : decode .chunk p.1 with
    | error e => exact ⟨rfl, by rintro _ ⟨⟩, by rintro _ ⟨⟩⟩
    | ok q =>
      obtain ⟨hexec, hframe, hout⟩ :=
        TurnConfined.after (hread.progress hfetch) (exec_chunk_confined m p.2 (decodeChunk_format hdec))
      simp only [hexec]
      cases hq : exec q.1 p.2 with
      | fault f => exact ⟨rfl, by rintro _ ⟨⟩, by rintro _ ⟨⟩⟩
      | refused f => exact ⟨rfl, by rintro _ ⟨⟩, by rintro _ ⟨⟩⟩
      | next t =>
        have hfinish := finishDecompress_progress t
        refine ⟨congrArg Host.Outcome.next (finishDecompress_withInput m t), ?_, ?_⟩
        · rintro _ ⟨⟩
          exact (hframe t hq).trans hfinish.frame
        · rintro _ ⟨⟩ herr
          exact (hout t hq (finishDecompress_err t ▸ herr)).trans hfinish.output

/-! ### The engine's turn -/

/-- `m` holds what the next step of the operation reads of IN. -/
structure ReadsAgree (m : Memory) (s : State) : Prop where
  input : InputAgrees m s
  compressPixel : s.lat.opl = 2#4 → s.work.qoi.pixn.toNat < s.lat.n.toNat →
    inPixel (s.withInput m) s.inPos.toNat = inPixel s s.inPos.toNat
  bmpPixel : s.lat.opl = 4#4 ∨ s.lat.opl = 5#4 → s.outLen ≠ 0#32 → s.work.bmp.col.toNat < s.lat.w.toNat →
    inPixel (s.withInput m) s.bmpPixelAddr = inPixel s s.bmpPixelAddr

theorem readsAgree_self (s : State) : ReadsAgree s.inMem s := ⟨fun _ _ => rfl, fun _ _ => rfl, fun _ _ _ => rfl⟩

theorem opStep_confined (h : ReadsAgree m s) : TurnConfined m s (opStep s) (opStep (s.withInput m)) := by
  obtain ⟨hinput, hcompress, hbmp⟩ := h
  refine .ite (fun _ => (lzwStep_confined hinput).settled) fun _ => ?_
  refine .ite (fun hopl => Confined.settled ?_) fun _ => ?_
  · exact .ite (fun hmore => qoiPixelStep_confined (hcompress hopl hmore)) fun _ => qoiEndStep_confined m s
  refine .ite (fun _ => ?_) fun _ => ?_
  · exact .ite (fun _ => chunkStep_confined hinput) fun _ => .ok (.touched _ _ _ _ _ _)
  refine .ite (fun hopl => Confined.settled ?_) fun _ => .ok (.refl s)
  exact .ite (fun _ => bmpHeaderStep_confined m s) fun hstarted =>
    .ite (fun hcol => bmpPixelStep_confined (hbmp hopl hstarted hcol)) fun _ => bmpPadStep_confined m s

theorem raceStep_withInput (m : Memory) (s : State) : raceStep (s.withInput m) = (raceStep s).withInput m := by
  rw [raceStep, raceStep]
  change (match Config.raceOutcome s.freeCnt with | .completes _ _ _ => _ | .faults _ _ => _) = _
  cases Config.raceOutcome s.freeCnt <;> rfl

theorem raceStep_frame (s : State) : EngineFrame s (raceStep s) := by
  rw [raceStep]
  split <;> rfl

theorem engineTurn_withInput (h : ReadsAgree m s) :
    engineTurn (s.withInput m) = outcomeWithInput m (engineTurn s) := by
  change (if s.busy then if s.inRaced then _ else _ else _) = _
  rw [engineTurn]
  split
  · split
    · exact congrArg Host.Outcome.next (raceStep_withInput m s)
    · exact (opStep_confined h).commutes
  · rfl

theorem engineTurn_frame {t : State} (h : engineTurn s = .next t) : EngineFrame s t := by
  rw [engineTurn] at h
  split_ifs at h
  · cases h; exact raceStep_frame s
  · exact (opStep_confined (readsAgree_self s)).frame t h
  · cases h; rfl

/-! ### Where a running operation reads -/

/-- Every pixel of a picture of `W` by `H` lies in its `4 * W * H` bytes (R63). -/
theorem pixelAddr_lt {w h x y : Nat} (hx : x < w) (hy : y < h) : pixelAddr w x y + 3 < 4 * (w * h) := by
  have hrow : (y + 1) * w ≤ h * w := Nat.mul_le_mul_right w hy
  rw [Nat.add_mul, Nat.one_mul, Nat.mul_comm h w] at hrow
  rw [pixelAddr]
  omega

/-- In a valid state the next step of the operation reads below `LEN` only (R61, R75). -/
theorem ReadsAgree.of_inv (h : s.Inv) (hb : s.busy = true) (hm : InputAgrees m s) : ReadsAgree m s := by
  have hop := h.operation hb
  refine ⟨hm, fun hopl hmore => hm.inPixel_eq ?_, fun hopl hstarted hcol => hm.inPixel_eq ?_⟩
  · have hcursor := (hop.compress hopl).cursor
    have hlen := hop.pixelInput (.inl hopl)
    omega
  · have hok := hop.bmp hopl
    have hrow := hok.row (hok.progress hstarted).1
    rw [← hop.pixelInput (.inr hopl), hop.count]
    exact pixelAddr_lt hcol hrow

end Reading

/-- Settles O52: a valid operation reads where the two memories agree. -/
theorem inputBeyondLengthIsNeverRead : Obligations.InputBeyondLengthIsNeverRead := by
  intro s m h hb hm
  refine (engineTurn_withInput (.of_inv h hb hm)).trans ?_
  cases engineTurn s <;> rfl

/-- Settles O54: none of these is in the engine's frame. -/
theorem engineNeverWritesInput : Obligations.EngineNeverWritesInput := by
  intro s t hturn
  have hframe := engineTurn_frame hturn
  rw [EngineFrame] at hframe
  rw [hframe]
  exact ⟨rfl, rfl, rfl, rfl, rfl, rfl, rfl, rfl, rfl, rfl⟩

/-- Settles O55: without a fault every part of the step only appends. -/
theorem outputIsAppendOnly : Obligations.OutputIsAppendOnly := by
  intro s t _ hb hr hturn herr
  have hstep : opStep s = .next t := by simpa [engineTurn, hb, hr] using hturn
  exact (opStep_confined (readsAgree_self s)).output t hstep herr

end Sys2Proof.Machine
end

section
/-! ## The two encodings (30_encoding.md R90 to R104)

Each decoder is inverted once, by the bytes it reads: `decodeCmd` by the command word, `decodeChunk` by the raw fields of the
formats of R95 to R100. -/

namespace Sys2Proof.Machine

/-! ### Command words (R91, R92, R93) -/

/-- The reserved words are the numbers from 8. -/
theorem isReservedCmd_iff (v : Word) : isReservedCmd v ↔ 8 ≤ v.toNat := by
  simp only [isReservedCmd, ne_eq, ← BitVec.toNat_inj, BitVec.extractLsb'_toNat, Nat.shiftRight_eq_div_pow,
    BitVec.toNat_ofNat]
  omega

theorem decodeCmd_of_reserved {v : Word} (h : isReservedCmd v) : decodeCmd v = .reservedCmd v := by
  rw [decodeCmd]
  split_ifs with hhigh
  · have hlow : 8 ≤ (v.extractLsb' 0 4).toNat := h.resolve_right (not_not_intro hhigh)
    split
    case h_9 => rfl
    all_goals omega
  · rfl

/-- The words 0 to 7 are the eight commands' own words. -/
theorem decodeCmd_of_named : ∀ k : Fin 8,
    (decodeCmd (BitVec.ofNat 32 k)).WellFormed ∧ encodeCmd (decodeCmd (BitVec.ofNat 32 k)) = BitVec.ofNat 32 k := by
  decide

/-- Every word is the command word of a well-formed command. -/
theorem decodeCmd_spec (v : Word) : (decodeCmd v).WellFormed ∧ encodeCmd (decodeCmd v) = v := by
  by_cases h : isReservedCmd v
  · rw [decodeCmd_of_reserved h]
    exact ⟨decide_eq_true h, rfl⟩
  · have hv : BitVec.ofNat 32 v.toNat = v := (BitVec.ofNat_toNat 32 v).trans (BitVec.setWidth_eq v)
    have := decodeCmd_of_named ⟨v.toNat, not_le.1 (mt (isReservedCmd_iff v).2 h)⟩
    rwa [hv] at this

theorem decodeCmd_encodeCmd {i : Instr} (hi : i.format = .cmd) (h : i.WellFormed) : decodeCmd (encodeCmd i) = i := by
  cases i with
  | nop | lzwCompress | qoiCompress | qoiDecompress | bmpEncode24 | bmpEncode32 | ack | abort => decide
  | reservedCmd v => exact decodeCmd_of_reserved (of_decide_eq_true h)
  | rgb | rgba | index | diff | luma | run => cases hi

theorem encode_cmd {i : Instr} (hi : i.format = .cmd) : encode i = leBytes 4 (encodeCmd i).toNat := by
  cases i with
  | nop | lzwCompress | qoiCompress | qoiDecompress | bmpEncode24 | bmpEncode32 | ack | abort | reservedCmd => rfl
  | rgb | rgba | index | diff | luma | run => cases hi

/-- Four bytes in register byte order, bits 7:0 first (20_memory.md R70). -/
theorem leBytes_four {w : Nat} (v : BitVec w) :
    leBytes 4 v.toNat = [v.extractLsb' 0 8, v.extractLsb' 8 8, v.extractLsb' 16 8, v.extractLsb' 24 8] := by
  simp only [leBytes, BitVec.extractLsb', Nat.shiftRight_eq_div_pow, Nat.div_div_eq_div_mul]
  norm_num

theorem leBytes_append (b0 b1 b2 b3 : Byte) : leBytes 4 (b3 ++ b2 ++ b1 ++ b0).toNat = [b0, b1, b2, b3] := by
  simp only [leBytes_four, BitVec.extractLsb'_append_eq_right, BitVec.extractLsb'_append_eq_left,
    BitVec.extractLsb'_append_eq_of_le, Nat.le_refl, Nat.reduceLeDiff, Nat.reduceSub]

theorem append_bytes (v : Word) :
    v.extractLsb' 24 8 ++ v.extractLsb' 16 8 ++ v.extractLsb' 8 8 ++ v.extractLsb' 0 8 = v := by
  rw [BitVec.extractLsb'_append_extractLsb'_eq_extractLsb' (by rfl),
    BitVec.extractLsb'_append_extractLsb'_eq_extractLsb' (by rfl),
    BitVec.extractLsb'_append_extractLsb'_eq_extractLsb' (by rfl)]
  exact BitVec.extractLsb'_eq_self

/-- The decoder reads a command from the four bytes of any word, and from nothing else. -/
theorem decode_cmd_iff {bs rest : List Byte} {i : Instr} :
    decode .cmd bs = .ok (i, rest) ↔ ∃ v, i = decodeCmd v ∧ bs = leBytes 4 v.toNat ++ rest := by
  constructor
  · intro h
    match bs, h with
    | b0 :: b1 :: b2 :: b3 :: _, h =>
      cases h
      exact ⟨_, rfl, by rw [leBytes_append]; rfl⟩
  · rintro ⟨v, rfl, rfl⟩
    rw [leBytes_four]
    exact congrArg (fun w => Except.ok (decodeCmd w, rest)) (append_bytes v)

/-! ### Chunks (R94 to R103) -/

/-- A chunk and its bytes, by the raw fields of R95 to R100. -/
inductive ChunkBytes : Instr → List Byte → Prop
  | rgb (r g b : Byte) : ChunkBytes (.rgb r g b) [0xFE#8, r, g, b]
  | rgba (r g b a : Byte) : ChunkBytes (.rgba r g b a) [0xFF#8, r, g, b, a]
  | index (x : BitVec 6) : ChunkBytes (.index x) [0b00#2 ++ x]
  | diff (r g b : BitVec 2) :
      ChunkBytes (.diff (r.toNat - 2) (g.toNat - 2) (b.toNat - 2)) [0b01#2 ++ r ++ g ++ b]
  | luma (g : BitVec 6) (r b : BitVec 4) :
      ChunkBytes (.luma (g.toNat - 32) (r.toNat - 8) (b.toNat - 8)) [0b10#2 ++ g, r ++ b]
  | run (x : BitVec 6) (h : x.toNat < 62) : ChunkBytes (.run (x.toNat + 1)) [0b11#2 ++ x]

/-- A byte of a two-bit tag and a six-bit field, as a number. -/
theorem toNat_tag_append (k : BitVec 2) (x : BitVec 6) : (k ++ x : Byte).toNat = 64 * k.toNat + x.toNat := by
  revert k x; decide

theorem diffTag_eq (r g b : BitVec 2) : (0b01#2 ++ r ++ g ++ b : Byte) = 0b01#2 ++ (r ++ g ++ b : BitVec 6) := by
  revert r g b; decide

theorem exists_eq_append {m n : Nat} (t : BitVec (m + n)) : ∃ (x : BitVec m) (y : BitVec n), t = x ++ y :=
  ⟨t.extractLsb' n m, t.extractLsb' 0 n, by
    rw [BitVec.extractLsb'_append_extractLsb'_eq_extractLsb' (Nat.zero_add n).symm, BitVec.extractLsb'_eq_self]⟩

/-- The tag bytes by R102: two whole bytes, and below them the four values of the top two bits. -/
theorem tagByte_cases (t : Byte) :
    t = 0xFE#8 ∨ t = 0xFF#8 ∨ (∃ x : BitVec 6, t = 0b00#2 ++ x) ∨ (∃ r g b : BitVec 2, t = 0b01#2 ++ r ++ g ++ b) ∨
      (∃ x : BitVec 6, t = 0b10#2 ++ x) ∨ ∃ x : BitVec 6, x.toNat < 62 ∧ t = 0b11#2 ++ x := by
  obtain ⟨k, x, rfl⟩ : ∃ (k : BitVec 2) (x : BitVec 6), t = k ++ x :=
    exists_eq_append (m := 2) (n := 6) t
  have htop : k = 0b00#2 ∨ k = 0b01#2 ∨ k = 0b10#2 ∨ k = 0b11#2 := by revert k; decide
  rcases htop with rfl | rfl | rfl | rfl
  · exact .inr (.inr (.inl ⟨x, rfl⟩))
  · have hx : (x.extractLsb' 4 2 ++ x.extractLsb' 2 2 ++ x.extractLsb' 0 2 : BitVec 6) = x := by revert x; decide
    exact .inr (.inr (.inr (.inl ⟨_, _, _, by rw [diffTag_eq, hx]⟩)))
  · exact .inr (.inr (.inr (.inr (.inl ⟨x, rfl⟩))))
  · by_cases hx : x.toNat < 62
    · exact .inr (.inr (.inr (.inr (.inr ⟨x, hx, rfl⟩))))
    · have hwhole : x = 62#6 ∨ x = 63#6 := by bv_omega
      rcases hwhole with rfl | rfl
      · exact .inl rfl
      · exact .inr (.inl rfl)

/-! What the decoder reads from each kind of tag byte, and whatever follows it. -/

section Tags

variable (rest : List Byte)

/-- Below the two whole-byte tags, the top two bits decide (R101). -/
theorem tag_append_ne {k : BitVec 2} {x : BitVec 6} (h : k ≠ 0b11#2 ∨ x.toNat < 62) :
    (k ++ x : Byte) ≠ 0xFE#8 ∧ (k ++ x : Byte) ≠ 0xFF#8 := by
  revert k x; decide

theorem extract_tag (k : BitVec 2) (x : BitVec 6) :
    (k ++ x : Byte).extractLsb' 6 2 = k ∧ (k ++ x : Byte).extractLsb' 0 6 = x :=
  ⟨Laws.EncodedLength.extract_append k x, BitVec.extractLsb'_append_eq_right⟩

theorem decodeChunk_index (x : BitVec 6) : decodeChunk ((0b00#2 ++ x) :: rest) = .ok (.index x, rest) := by
  obtain ⟨hrgb, hrgba⟩ := tag_append_ne (x := x) (.inl (by decide : 0b00#2 ≠ 0b11#2))
  obtain ⟨htop, hlow⟩ := extract_tag 0b00#2 x
  simp only [decodeChunk]
  rw [if_neg hrgb, if_neg hrgba, if_pos htop, hlow]

theorem diffTag_fields (r g b : BitVec 2) :
    (0b01#2 ++ r ++ g ++ b : Byte).extractLsb' 4 2 = r ∧ (0b01#2 ++ r ++ g ++ b : Byte).extractLsb' 2 2 = g ∧
      (0b01#2 ++ r ++ g ++ b : Byte).extractLsb' 0 2 = b := by
  revert r g b; decide

theorem decodeChunk_diff (r g b : BitVec 2) :
    decodeChunk ((0b01#2 ++ r ++ g ++ b) :: rest) = .ok (.diff (r.toNat - 2) (g.toNat - 2) (b.toNat - 2), rest) := by
  obtain ⟨hr, hg, hb⟩ := diffTag_fields r g b
  rw [diffTag_eq] at hr hg hb ⊢
  obtain ⟨hrgb, hrgba⟩ := tag_append_ne (x := r ++ g ++ b) (.inl (by decide : 0b01#2 ≠ 0b11#2))
  obtain ⟨htop, -⟩ := extract_tag 0b01#2 (r ++ g ++ b)
  simp only [decodeChunk]
  rw [if_neg hrgb, if_neg hrgba, if_neg (by rw [htop]; decide), if_pos htop, hr, hg, hb]

theorem decodeChunk_luma_nil (g : BitVec 6) : decodeChunk [0b10#2 ++ g] = .error .truncated := by
  obtain ⟨hrgb, hrgba⟩ := tag_append_ne (x := g) (.inl (by decide : 0b10#2 ≠ 0b11#2))
  obtain ⟨htop, -⟩ := extract_tag 0b10#2 g
  simp only [decodeChunk]
  rw [if_neg hrgb, if_neg hrgba, htop, if_neg (by decide), if_neg (by decide), if_pos rfl]

theorem decodeChunk_luma (g : BitVec 6) (r b : BitVec 4) :
    decodeChunk ((0b10#2 ++ g) :: (r ++ b) :: rest) = .ok (.luma (g.toNat - 32) (r.toNat - 8) (b.toNat - 8), rest) := by
  obtain ⟨hrgb, hrgba⟩ := tag_append_ne (x := g) (.inl (by decide : 0b10#2 ≠ 0b11#2))
  obtain ⟨htop, hlow⟩ := extract_tag 0b10#2 g
  have hr : (r ++ b : Byte).extractLsb' 4 4 = r := BitVec.extractLsb'_append_eq_left
  have hb : (r ++ b : Byte).extractLsb' 0 4 = b := BitVec.extractLsb'_append_eq_right
  simp only [decodeChunk]
  rw [if_neg hrgb, if_neg hrgba, htop, if_neg (by decide), if_neg (by decide), if_pos rfl, hlow, hr, hb]

theorem decodeChunk_run {x : BitVec 6} (h : x.toNat < 62) :
    decodeChunk ((0b11#2 ++ x) :: rest) = .ok (.run (x.toNat + 1), rest) := by
  obtain ⟨hrgb, hrgba⟩ := tag_append_ne (k := 0b11#2) (.inr h)
  obtain ⟨htop, hlow⟩ := extract_tag 0b11#2 x
  simp only [decodeChunk]
  rw [if_neg hrgb, if_neg hrgba, htop, if_neg (by decide), if_neg (by decide), if_neg (by decide), hlow]

end Tags

theorem ChunkBytes.decodeChunk_append {i : Instr} {cs : List Byte} (h : ChunkBytes i cs) (rest : List Byte) :
    decodeChunk (cs ++ rest) = .ok (i, rest) := by
  cases h with
  | rgb | rgba => rfl
  | index x => exact decodeChunk_index rest x
  | diff r g b => exact decodeChunk_diff rest r g b
  | luma g r b => exact decodeChunk_luma rest g r b
  | run x hx => exact decodeChunk_run rest hx

theorem ChunkBytes.of_decodeChunk {bs rest : List Byte} {i : Instr} (h : decodeChunk bs = .ok (i, rest)) :
    ∃ cs, ChunkBytes i cs ∧ bs = cs ++ rest := by
  cases bs with
  | nil => cases h
  | cons t bs =>
    rcases tagByte_cases t with rfl | rfl | ⟨x, rfl⟩ | ⟨r, g, b, rfl⟩ | ⟨x, rfl⟩ | ⟨x, hx, rfl⟩
    · match bs, h with
      | r :: g :: b :: _, h => cases h; exact ⟨_, .rgb r g b, rfl⟩
    · match bs, h with
      | r :: g :: b :: a :: _, h => cases h; exact ⟨_, .rgba r g b a, rfl⟩
    · cases (decodeChunk_index bs x).symm.trans h
      exact ⟨_, .index x, rfl⟩
    · cases (decodeChunk_diff bs r g b).symm.trans h
      exact ⟨_, .diff r g b, rfl⟩
    · cases bs with
      | nil => cases (decodeChunk_luma_nil x).symm.trans h
      | cons u bs =>
        obtain ⟨r, b, rfl⟩ : ∃ r b : BitVec 4, u = r ++ b := exists_eq_append (m := 4) (n := 4) u
        cases (decodeChunk_luma bs x r b).symm.trans h
        exact ⟨_, .luma x r b, rfl⟩
    · cases (decodeChunk_run bs hx).symm.trans h
      exact ⟨_, .run x hx, rfl⟩

/-! The raw fields against the operands of the encoder (R96 to R98, R103). -/

/-- A field read with its bias and written with it again. -/
theorem biased_toNat_sub {w : Nat} (bias : Int) (x : BitVec w) : biased w bias (x.toNat - bias) = x := by
  simp [biased]

/-- An operand in the range of its field, written and read again. -/
theorem toNat_biased_sub {w : Nat} {bias d : Int} (h0 : 0 ≤ d + bias) (h1 : d + bias < 2 ^ w) :
    ((biased w bias d).toNat : Int) - bias = d := by
  have hmod : (d + bias) % ((2 ^ w : Nat) : Int) = d + bias := Int.emod_eq_of_lt h0 (by exact_mod_cast h1)
  rw [biased, BitVec.toNat_ofInt, hmod, Int.toNat_of_nonneg h0, Int.add_sub_cancel]

theorem ChunkBytes.encode_eq {i : Instr} {cs : List Byte} (h : ChunkBytes i cs) :
    i.WellFormed ∧ i.format = .chunk ∧ encode i = cs := by
  cases h with
  | rgb | rgba | index => exact ⟨rfl, rfl, rfl⟩
  | diff r g b =>
    refine ⟨decide_eq_true ?_, rfl, by simp only [encode, biased_toNat_sub]⟩
    simp only [inDiffRange]
    omega
  | luma g r b =>
    refine ⟨decide_eq_true ?_, rfl, by simp only [encode, biased_toNat_sub]⟩
    simp only [inLumaGreenRange, inLumaSideRange]
    omega
  | run x hx =>
    refine ⟨decide_eq_true ⟨by omega, by omega⟩, rfl, ?_⟩
    simp [encode]

theorem ChunkBytes.of_encode {i : Instr} (hi : i.format = .chunk) (h : i.WellFormed) : ChunkBytes i (encode i) := by
  cases i with
  | nop | lzwCompress | qoiCompress | qoiDecompress | bmpEncode24 | bmpEncode32 | ack | abort | reservedCmd => cases hi
  | rgb r g b => exact .rgb r g b
  | rgba r g b a => exact .rgba r g b a
  | index x => exact .index x
  | diff dr dg db =>
    obtain ⟨hr, hg, hb⟩ := of_decide_eq_true h
    have := ChunkBytes.diff (biased 2 2 dr) (biased 2 2 dg) (biased 2 2 db)
    rwa [toNat_biased_sub (by omega) (by omega), toNat_biased_sub (by omega) (by omega),
      toNat_biased_sub (by omega) (by omega)] at this
  | luma dg drDg dbDg =>
    obtain ⟨hg, hr, hb⟩ := of_decide_eq_true h
    have := ChunkBytes.luma (biased 6 32 dg) (biased 4 8 drDg) (biased 4 8 dbDg)
    rwa [toNat_biased_sub (by omega) (by omega), toNat_biased_sub (by omega) (by omega),
      toNat_biased_sub (by omega) (by omega)] at this
  | run n =>
    obtain ⟨h1, h2⟩ := of_decide_eq_true h
    have hn : (BitVec.ofNat 6 (n - 1)).toNat = n - 1 := Nat.mod_eq_of_lt (by omega)
    have := ChunkBytes.run (BitVec.ofNat 6 (n - 1)) (by omega)
    rwa [hn, Nat.sub_add_cancel h1] at this

/-! ### The decoder of both formats -/

/-- The decoder accepts exactly the encodings of the well-formed instructions of its format, whatever follows them. -/
theorem decode_eq_ok_iff {f : Format} {bs rest : List Byte} {i : Instr} :
    decode f bs = .ok (i, rest) ↔ i.WellFormed ∧ i.format = f ∧ encode i ++ rest = bs := by
  cases f with
  | cmd =>
    rw [decode_cmd_iff]
    constructor
    · rintro ⟨v, rfl, rfl⟩
      obtain ⟨hwf, henc⟩ := decodeCmd_spec v
      exact ⟨hwf, decodeCmd_format v, by rw [encode_cmd (decodeCmd_format v), henc]⟩
    · rintro ⟨hwf, hi, rfl⟩
      exact ⟨encodeCmd i, (decodeCmd_encodeCmd hi hwf).symm, by rw [encode_cmd hi]⟩
  | chunk =>
    constructor
    · intro h
      obtain ⟨cs, hcs, rfl⟩ := ChunkBytes.of_decodeChunk h
      obtain ⟨hwf, hi, rfl⟩ := hcs.encode_eq
      exact ⟨hwf, hi, rfl⟩
    · rintro ⟨hwf, hi, rfl⟩
      exact (ChunkBytes.of_encode hi hwf).decodeChunk_append rest

/-- Settles O1. -/
theorem decodeOfEncodeIsIdentity : Obligations.DecodeOfEncodeIsIdentity :=
  fun _ _ h => decode_eq_ok_iff.2 ⟨h, rfl, rfl⟩

/-- Settles O2. -/
theorem encodeOfDecodeIsIdentity : Obligations.EncodeOfDecodeIsIdentity :=
  fun _ _ _ _ h => decode_eq_ok_iff.1 h

/-- Settles O3. -/
theorem commandWordsDecode : Obligations.CommandWordsDecode :=
  ⟨decodeCmd_encodeCmd (i := .nop) rfl rfl, decodeCmd_encodeCmd (i := .lzwCompress) rfl rfl,
    decodeCmd_encodeCmd (i := .qoiCompress) rfl rfl, decodeCmd_encodeCmd (i := .qoiDecompress) rfl rfl,
    decodeCmd_encodeCmd (i := .bmpEncode24) rfl rfl, decodeCmd_encodeCmd (i := .bmpEncode32) rfl rfl,
    decodeCmd_encodeCmd (i := .ack) rfl rfl, decodeCmd_encodeCmd (i := .abort) rfl rfl,
    decodeCmd_of_reserved (by decide), decodeCmd_of_reserved (by decide)⟩

/-- Settles O4: the bytes are the fields of R95 to R100 put together. -/
theorem chunkBytesDecode : Obligations.ChunkBytesDecode :=
  ⟨decodeChunk_index [] 9#6, decodeChunk_diff [] 0#2 3#2 2#2, decodeChunk_luma [] 61#6 8#4 10#4,
    decodeChunk_run [] (x := 61#6) (by decide), (ChunkBytes.rgb 10#8 20#8 30#8).decodeChunk_append [],
    (ChunkBytes.rgba 10#8 20#8 30#8 0#8).decodeChunk_append []⟩

/-- Settles O5: the decoder takes a tag byte and its payload whole, and the fields it reads show the range of the tag. -/
theorem everyTagByteStartsAChunk : Obligations.EveryTagByteStartsAChunk := by
  intro t payload hlen
  obtain ⟨i, hdec, -⟩ := decodeChunk_total hlen
  obtain ⟨cs, hcs, hbytes⟩ := ChunkBytes.of_decodeChunk hdec
  rw [List.append_nil] at hbytes
  subst hbytes
  refine ⟨i, hdec, ?_⟩
  cases hcs with
  | rgb => simp
  | rgba => simp
  | index x =>
    have htag : (0b00#2 ++ x : Byte).toNat = x.toNat :=
      (toNat_tag_append 0b00#2 x).trans (Nat.zero_add _)
    have := x.isLt
    rw [htag]
    refine ⟨fun _ => ⟨rfl, _, rfl⟩, ?_, ?_, ?_, ?_, ?_⟩ <;> omega
  | diff r g b =>
    have htag : (0b01#2 ++ r ++ g ++ b : Byte).toNat = 64 + (r ++ g ++ b : BitVec 6).toNat := by
      rw [diffTag_eq, toNat_tag_append]; rfl
    have := (r ++ g ++ b : BitVec 6).isLt
    rw [htag]
    refine ⟨?_, fun _ _ => ⟨rfl, _, _, _, rfl⟩, ?_, ?_, ?_, ?_⟩ <;> omega
  | luma g r b =>
    have htag : (0b10#2 ++ g : Byte).toNat = 128 + g.toNat := toNat_tag_append 0b10#2 g
    have := g.isLt
    rw [htag]
    refine ⟨?_, ?_, fun _ _ => ⟨rfl, _, _, _, rfl⟩, ?_, ?_, ?_⟩ <;> omega
  | run x hx =>
    have htag : (0b11#2 ++ x : Byte).toNat = 192 + x.toNat := toNat_tag_append 0b11#2 x
    rw [htag]
    refine ⟨?_, ?_, ?_, fun _ _ => ⟨rfl, _, rfl⟩, ?_, ?_⟩ <;> omega

/-- Settles O6: a reserved word is a reserved command, whose meaning looks at `BUSY`. -/
theorem reservedWordsRaiseOrAreIgnored : Obligations.ReservedWordsRaiseOrAreIgnored := by
  intro v
  refine ⟨⟨decodeCmd_of_reserved, fun h => ?_⟩, fun hres s rest hhost => ?_⟩
  · obtain ⟨hwf, -⟩ := decodeCmd_spec v
    rw [h] at hwf
    exact of_decide_eq_true hwf
  · have hstep : step s = execReservedCmd v { s with host := rest } := by
      rw [stepRunsWrittenCommand s v rest hhost, decodeCmd_of_reserved hres, exec]
    rw [hstep, execReservedCmd]
    exact ⟨fun hb => if_neg (by simp [hb]), fun hb => if_pos hb⟩

end Sys2Proof.Machine
end

section
/-! ## The fields of the BMP headers (30_encoding.md R109 to R111)

The headers are a sequence of little-endian fields. A field at the front is read back; a field further on is found by passing
over those before it. -/

namespace Sys2Proof.Machine

/-- Beyond the bytes in front, a field stands in the rest. -/
theorem fieldAt_append {xs ys : List Byte} {off : Nat} (n : Nat) (h : xs.length ≤ off) :
    fieldAt (xs ++ ys) off n = fieldAt ys (off - xs.length) n := by
  induction n generalizing off with
  | zero => rfl
  | succ n ih =>
    rw [fieldAt, fieldAt, ih (by omega), List.getD_append_right _ _ _ _ h, Nat.sub_add_comm h]

/-- A field at the front holds its value, cut to its width. -/
theorem fieldAt_leBytes_append (n v : Nat) (bs : List Byte) : fieldAt (leBytes n v ++ bs) 0 n = v % 256 ^ n := by
  induction n generalizing v with
  | zero => rw [Nat.pow_zero, Nat.mod_one]; rfl
  | succ n ih =>
    have htail : fieldAt (leBytes (n + 1) v ++ bs) 1 n = v / 256 % 256 ^ n :=
      (fieldAt_append (xs := [BitVec.ofNat 8 v]) n (Nat.le_refl 1)).trans (ih (v / 256))
    rw [fieldAt, htail, Nat.pow_succ', Nat.mod_mul]
    rfl

theorem fieldAt_leBytes_append_of_le {m off : Nat} (v n : Nat) (bs : List Byte) (h : m ≤ off) :
    fieldAt (leBytes m v ++ bs) off n = fieldAt bs (off - m) n := by
  rw [fieldAt_append n (by rwa [leBytes_length]), leBytes_length]

theorem fieldAt_replicate_zero (k off n : Nat) : fieldAt (List.replicate k 0#8) off n = 0 := by
  induction n generalizing off with
  | zero => rfl
  | succ n ih =>
    have hbyte : (List.replicate k 0#8).getD off 0#8 = 0#8 := by
      rw [List.getD_eq_getElem?_getD, List.getElem?_replicate]
      split_ifs <;> rfl
    rw [fieldAt, ih, hbyte]
    rfl

/-- `biBitCount` of a version (R110, R111). -/
def bmpBitCount : BmpVersion → Nat
  | .bmp24 => 24
  | .bmp32 => 32

/-- `biCompression` of a version (R110, R111). -/
def bmpCompression : BmpVersion → Nat
  | .bmp24 => 0
  | .bmp32 => 3

/-- What the longer info header holds after the fields both versions have (R111). -/
def bmpInfoTail (c : Config) : BmpVersion → List Byte
  | .bmp24 => []
  | .bmp32 => leBytes 4 0x000000FF ++ (leBytes 4 0x0000FF00 ++ (leBytes 4 0x00FF0000 ++ (leBytes 4 0xFF000000 ++
      (leBytes 4 c.bmpCstype.toNat ++ List.replicate 48 0#8))))

/-- The two headers as one sequence of fields, the same for both versions but for what stands at the end. -/
theorem bmpHeaders_eq (v : BmpVersion) (c : Config) (w h : Nat) :
    bmpFileHeader v w h ++ bmpInfoHeader v c w h =
      leBytes 1 0x42 ++ (leBytes 1 0x4D ++ (leBytes 4 (bmpFileSize v w h) ++ (leBytes 4 0 ++
      (leBytes 4 (bmpDataOffset v) ++ (leBytes 4 (bmpInfoSize v) ++ (leBytes 4 w ++ (leBytes 4 h ++ (leBytes 2 1 ++
      (leBytes 2 (bmpBitCount v) ++ (leBytes 4 (bmpCompression v) ++ (leBytes 4 (bmpBitmapSize v w h) ++
      (leBytes 4 c.bmpXppm.toNat ++ (leBytes 4 c.bmpYppm.toNat ++ (leBytes 4 0 ++ (leBytes 4 0 ++
      bmpInfoTail c v))))))))))))))) := by
  have hmagic : asciiBytes ['B', 'M'] = leBytes 1 0x42 ++ leBytes 1 0x4D := rfl
  rw [bmpFileHeader, hmagic, le32, le32, le32]
  cases v with
  | bmp24 =>
    unfold bmpInfoHeader bmpInfoHeader24 le16 le32
    simp only [List.append_assoc, bmpInfoTail, List.append_nil, bmpInfoSize, bmpBitCount, bmpCompression]
  | bmp32 =>
    have hzeros : List.replicate 36 0#8 ++ (leBytes 4 0 ++ (leBytes 4 0 ++ leBytes 4 0)) = List.replicate 48 0#8 := rfl
    unfold bmpInfoHeader bmpInfoHeader32 le16 le32
    simp only [List.append_assoc, bmpInfoTail, hzeros, bmpInfoSize, bmpBitCount, bmpCompression]

/-! The size of the pixel data as R152 counts it. -/

theorem bmpBitmapSize_bmp24 (w h : Nat) : bmpBitmapSize .bmp24 w h = (3 * w + w % 4) * h := rfl
theorem bmpBitmapSize_bmp32 (w h : Nat) : bmpBitmapSize .bmp32 w h = 4 * w * h := rfl

/-- Settles O42: each field is looked up in the sequence; the bytes from 74 are the zeros at its end. -/
theorem bmpHeaderFieldsAtTheirOffsets : Obligations.BmpHeaderFieldsAtTheirOffsets := by
  intro c v w h hw hh
  have hwfit : w % 0x100000000 = w := Nat.mod_eq_of_lt (by omega)
  have hhfit : h % 0x100000000 = h := Nat.mod_eq_of_lt (by omega)
  have hword (x : Word) : x.toNat % 0x100000000 = x.toNat := Nat.mod_eq_of_lt x.isLt
  refine ⟨by rw [bmpHeaders_length]; cases v <;> rfl, ?_⟩
  cases v <;> simp only [bmpHeaders_eq, bmpInfoTail, fieldAt_leBytes_append, fieldAt_leBytes_append_of_le,
    Nat.reduceLeDiff, Nat.reduceSub, Nat.reduceMod, Nat.reducePow, Nat.reduceAdd, hwfit, hhfit, hword, bmpFileSize,
    bmpBitmapSize_bmp24, bmpBitmapSize_bmp32, bmpDataOffset, bmpInfoSize, bmpBitCount, bmpCompression, true_and, and_true,
    reduceCtorEq, false_implies, forall_const]
  intro off hoff _ -- the last clause of the longer header: its zeros
  simp (disch := omega) only [fieldAt_leBytes_append_of_le, fieldAt_replicate_zero]

end Sys2Proof.Machine
end

section
/-! ## Every operation ends (40_commands.md R145, 70_reset_and_hazards.md R320)

Every turn of the engine ends the operation in progress or brings it closer to its end: a step of the LZW or of a QOI unit
consumes input, a step of the BMP unit moves on in the picture. -/

namespace Sys2Proof.Machine

/-- Done or faulted, and not busy (R130). -/
def HasEnded (s : State) : Prop := s.busy = false ∧ (s.done = true ∨ s.err ≠ 0#4)

/-- The pixels and paddings of a BMP operation still to come below those written: the rest of row `ROW`, and for each of the
`ROW` rows below it `W` pixels and the padding of the row above (R157). -/
def bmpItemsLeft (s : State) : Nat :=
  s.work.bmp.row.toNat * (s.lat.w.toNat + 1) + (s.lat.w.toNat - s.work.bmp.col.toNat)

/-- A bound on the steps before the last one of the operation in progress. An operation that has written nothing may take one
more for its start or header step (log entry 8). -/
def stepsLeft (s : State) : Nat :=
  if s.lat.opl = 4#4 ∨ s.lat.opl = 5#4 then
    if s.outLen = 0#32 then s.lat.n.toNat + s.lat.h.toNat else bmpItemsLeft s
  else s.lat.len.toNat - s.inPos.toNat + if s.outLen = 0#32 then 1 else 0

/-- `t` comes after `s` in an operation that ends. -/
def Approaches (s t : State) : Prop := HasEnded t ∨ t.busy = true ∧ stepsLeft t < stepsLeft s

section Units

variable {s t : State}

theorem stepsLeft_of_bmp (hopl : s.lat.opl = 4#4 ∨ s.lat.opl = 5#4) :
    stepsLeft s = if s.outLen = 0#32 then s.lat.n.toNat + s.lat.h.toNat else bmpItemsLeft s := if_pos hopl

theorem stepsLeft_of_input (hopl : ¬ (s.lat.opl = 4#4 ∨ s.lat.opl = 5#4)) :
    stepsLeft s = s.lat.len.toNat - s.inPos.toNat + if s.outLen = 0#32 then 1 else 0 := if_neg hopl

theorem hasEnded_complete (s : State) : HasEnded s.complete := ⟨rfl, .inl rfl⟩

theorem hasEnded_raise (f : Raised) (s : State) : HasEnded (raise f s) :=
  ⟨rfl, .inr (by rw [raise_err]; cases f.kind <;> decide)⟩

/-- A fault ends the operation. -/
theorem Approaches.settled {x : Res State} (h : ∀ t, x = .ok t → Approaches s t) : Approaches s (settle s x) := by
  cases x with
  | ok t => exact h t rfl
  | error f => exact .inl (hasEnded_raise f s)

theorem Appends.outLen_ne_zero (k : Appends s t) (hne : s.outLen ≠ 0#32) : t.outLen ≠ 0#32 := by
  obtain ⟨bs, hlen, -, -⟩ := k.output
  have hpos : s.outLen.toNat ≠ 0 := fun e => hne (BitVec.eq_of_toNat_eq e)
  intro e
  rw [e, BitVec.toNat_ofNat, Nat.zero_mod] at hlen
  omega

/-! ### LZW_COMPRESS and the QOI operations -/

/-- A step that consumes input. -/
theorem Approaches.of_input (hb : s.busy = true) (hopl : ¬ (s.lat.opl = 4#4 ∨ s.lat.opl = 5#4)) (k : Appends s t)
    (hpos : s.inPos.toNat < t.inPos.toNat) (hlen : t.inPos.toNat ≤ s.lat.len.toNat) : Approaches s t := by
  refine .inr ⟨k.busy_eq.trans hb, ?_⟩
  have hout : (if t.outLen = 0#32 then 1 else 0) ≤ if s.outLen = 0#32 then 1 else 0 := by
    split_ifs with ht hs
    · exact le_rfl
    · exact absurd ht (k.outLen_ne_zero hs)
    · exact Nat.zero_le _
    · exact le_rfl
  rw [stepsLeft_of_input hopl, stepsLeft_of_input (by rwa [k.lat_eq]), k.lat_eq]
  omega

/-- The start step writes at least its leading byte (R183). -/
theorem lzwStartStep_outLen (hstart : s.outLen = 0#32) (h : lzwStartStep s = .ok t) : t.outLen ≠ 0#32 := by
  obtain ⟨u, hemit, hcode⟩ := Res.bind_ok h
  have hu : u.outLen = 1#32 := by
    by_cases hroom : s.outLen.toNat < s.cfg.outCap.toNat
    · rw [emit_fits hroom] at hemit
      cases hemit
      simp [hstart]
    · rw [emit_full (not_lt.1 hroom)] at hemit
      cases hemit
  obtain ⟨hgrow, -⟩ := ((emitCode_confined u.inMem u _).progress t hcode).output
  rw [hu] at hgrow
  intro e
  rw [e] at hgrow
  exact absurd hgrow (by decide)

theorem lzwSymbolStep_ok (h : s.Inv) (hb : s.busy = true) (hopl : s.lat.opl = 1#4)
    (hmore : s.inPos.toNat < s.lat.len.toNat) (hstep : lzwSymbolStep s = .ok t) :
    Appends s t ∧ t.inPos.toNat = s.inPos.toNat + 1 := by
  obtain ⟨hcodes, hpack⟩ := (lzwOk_iff s).1 ((h.operation hb).lzw hopl)
  obtain ⟨-, -, hlimit, -⟩ := h.config
  have hlen := s.lat.len.isLt
  rw [lzwSymbolStep, next_ok hmore] at hstep
  simp only [Except.bind] at hstep
  split at hstep
  case isTrue => cases hstep
  case isFalse hx =>
    have hfits : (s.advanced 1).cfg.lzwLimit ≤ 4096 := by change s.cfg.lzwLimit ≤ 4096; omega
    obtain ⟨happ, hpos, -, -⟩ :=
      lzwSymbol_keeps (s := s.advanced 1) h.outFits hcodes hpack hfits (not_le.1 hx) hstep
    exact ⟨((Appends.refl h.outFits).advanced 1).trans happ, by rw [hpos, s.advanced_toNat 1 (by omega)]⟩

theorem lzwStep_approaches (h : s.Inv) (hb : s.busy = true) (hopl : s.lat.opl = 1#4) (hstep : lzwStep s = .ok t) :
    Approaches s t := by
  obtain ⟨hcodes, hpack⟩ := (lzwOk_iff s).1 ((h.operation hb).lzw hopl)
  have hother : ¬ (s.lat.opl = 4#4 ∨ s.lat.opl = 5#4) := by rw [hopl]; decide
  rw [lzwStep] at hstep
  split_ifs at hstep with hstart hmore
  · obtain ⟨happ, hpos, -, -⟩ := lzwStartStep_keeps h.outFits hcodes hpack hstep
    refine .inr ⟨happ.busy_eq.trans hb, ?_⟩
    rw [stepsLeft_of_input hother, stepsLeft_of_input (by rwa [happ.lat_eq]), happ.lat_eq, hpos, if_pos hstart,
      if_neg (lzwStartStep_outLen hstart hstep)]
    exact Nat.lt_succ_self _
  · obtain ⟨happ, hpos⟩ := lzwSymbolStep_ok h hb hopl hmore hstep
    exact .of_input hb hother happ (by omega) (by omega)
  · obtain ⟨u, -, rfl⟩ := lzwEndStep_ok h.outFits hcodes hpack hstep
    exact .inl (hasEnded_complete u)

/-- A pixel is taken from the input, however it is coded (R65, R223). -/
theorem qoiPixelStep_inPos (h : CompressOk s) (hle : s.outLen.toNat ≤ s.cfg.outCap.toNat)
    (hstep : qoiPixelStep s = .ok t) : t.inPos = s.inPos + 4#32 := by
  rw [qoiPixelStep_eq] at hstep
  split at hstep
  · obtain ⟨-, hpos, -⟩ := qoiExtendRun_ok (s := s.pixelTaken) hle h.runRange.1 hstep
    exact hpos
  · obtain ⟨-, hpos, -⟩ := qoiCodePixel_ok (s := s.pixelTaken) hle hstep
    exact hpos

theorem qoiCompressStep_approaches (h : s.Inv) (hb : s.busy = true) (hopl : s.lat.opl = 2#4)
    (hstep : qoiCompressStep s = .ok t) : Approaches s t := by
  have hop := h.operation hb
  have hok := hop.compress hopl
  have hlen := hop.pixelInput (.inl hopl)
  rw [qoiCompressStep] at hstep
  split at hstep
  case isTrue hmore =>
    obtain ⟨happ, hinput, -⟩ := qoiPixelStep_ok hok h.outFits hmore hlen hstep
    have hpos : t.inPos.toNat = s.inPos.toNat + 4 := by
      have hcursor := hok.cursor
      have hfits := s.lat.len.isLt
      rw [qoiPixelStep_inPos hok h.outFits hstep, BitVec.toNat_add, BitVec.toNat_ofNat]
      omega
    exact .of_input hb (by rw [hopl]; decide) happ (by omega) hinput
  case isFalse =>
    obtain ⟨u, -, rfl⟩ := qoiEndStep_ok h.outFits hstep
    exact .inl (hasEnded_complete u)

theorem Approaches.finishDecompress (h : Approaches s t) : Approaches s (finishDecompress t) := by
  rw [Machine.finishDecompress]
  split
  · exact .inl (hasEnded_complete t)
  · exact h

/-- A chunk has at least its tag byte (R94), and its fetch is never refused (R102). -/
theorem chunkStep_approaches (h : s.Inv) (hb : s.busy = true) (hopl : s.lat.opl = 3#4) :
    ∃ t, chunkStep s = .next t ∧ Approaches s t := by
  have hop := h.operation hb
  have hlen := s.lat.len.isLt
  rcases fetchChunk_cases hop.cursor with ⟨k, hk, hinput, hfetch⟩ | hfetch
  · obtain ⟨i, hdec, hi⟩ := fetchChunk_decodes hop.cursor hfetch
    obtain ⟨r, hexec, hwrote⟩ := exec_chunk_cases (s := s.advanced k) hi h.outFits
    refine ⟨finishDecompress (settle (s.advanced k) r), by simp only [chunkStep, hfetch, hdec, hexec], ?_⟩
    refine Approaches.finishDecompress ?_
    cases r with
    | error f => exact .inl (hasEnded_raise f _)
    | ok u =>
      have hw := hwrote u rfl
      have hpos : u.inPos.toNat = s.inPos.toNat + k := by rw [hw.inPos_eq, s.advanced_toNat k (by omega)]
      exact .of_input hb (by rw [hopl]; decide) (((Appends.refl h.outFits).advanced k).trans hw.appends)
        (by rw [settle_ok]; omega) (by rw [settle_ok]; omega)
  · exact ⟨raise ⟨.decodeError, s.lat.len⟩ s, by rw [chunkStep, hfetch], .inl (hasEnded_raise _ s)⟩

theorem qoiDecompressStep_approaches (h : s.Inv) (hb : s.busy = true) (hopl : s.lat.opl = 3#4) :
    ∃ t, qoiDecompressStep s = .next t ∧ Approaches s t := by
  rw [qoiDecompressStep]
  split
  · exact chunkStep_approaches h hb hopl
  · exact ⟨s.complete, rfl, .inl (hasEnded_complete s)⟩

/-! ### BMP_ENCODE24 and BMP_ENCODE32 -/

/-- What is left after row `r` is a padding, the pixels of row `r - 1`, and what is left after that row. -/
theorem rowItems_pred {r : Nat} (w : Nat) (hr : r ≠ 0) : (r - 1) * (w + 1) + w + 1 = r * (w + 1) := by
  obtain ⟨k, rfl⟩ := Nat.exists_eq_succ_of_ne_zero hr
  rw [Nat.succ_sub_one, Nat.succ_mul, Nat.add_assoc]

/-- Once the headers are written fewer items are left than the picture has pixels and rows. -/
theorem bmpItemsLeft_lt (hop : OperationOk s) (hrow : s.work.bmp.row.toNat < s.lat.h.toNat) :
    bmpItemsLeft s < s.lat.n.toNat + s.lat.h.toNat := by
  have hall : s.lat.h.toNat * (s.lat.w.toNat + 1) = s.lat.n.toNat + s.lat.h.toNat := by
    rw [hop.count, Nat.mul_add, Nat.mul_one, Nat.mul_comm]
  have hrows : (s.work.bmp.row.toNat + 1) * (s.lat.w.toNat + 1) ≤ s.lat.h.toNat * (s.lat.w.toNat + 1) :=
    Nat.mul_le_mul_right _ hrow
  rw [Nat.add_mul, Nat.one_mul, hall] at hrows
  rw [bmpItemsLeft]
  omega

/-- A step after which a BMP operation goes on. -/
theorem Approaches.of_items (hb : s.busy = true) (hopl : s.lat.opl = 4#4 ∨ s.lat.opl = 5#4) (k : Appends s t)
    (hstarted : s.outLen ≠ 0#32) (hless : bmpItemsLeft t < bmpItemsLeft s) : Approaches s t := by
  refine .inr ⟨k.busy_eq.trans hb, ?_⟩
  rwa [stepsLeft_of_bmp hopl, stepsLeft_of_bmp (by rwa [k.lat_eq]), if_neg hstarted, if_neg (k.outLen_ne_zero hstarted)]

theorem bmpHeaderStep_approaches (h : s.Inv) (hb : s.busy = true) (hopl : s.lat.opl = 4#4 ∨ s.lat.opl = 5#4)
    (hstart : s.outLen = 0#32) (hstep : bmpHeaderStep s = .ok t) : Approaches s t := by
  have hop := h.operation hb
  obtain ⟨u, happ, -, hwork, hlen, rfl⟩ := bmpHeaderStep_ok h.outFits hstep
  split
  case isTrue => exact .inl (hasEnded_complete _)
  case isFalse hh =>
    rw [happ.lat_eq] at hh
    have hitems : bmpItemsLeft u = bmpItemsLeft s := by rw [bmpItemsLeft, bmpItemsLeft, hwork, happ.lat_eq]
    have hne : u.outLen ≠ 0#32 := fun e => by rw [e, bmpDataOffset, BitVec.toNat_ofNat] at hlen; omega
    refine .inr ⟨happ.busy_eq.trans hb, ?_⟩
    rw [stepsLeft_of_bmp hopl, stepsLeft_of_bmp (by rwa [happ.lat_eq]), if_pos hstart, if_neg hne, hitems]
    exact bmpItemsLeft_lt hop ((hop.bmp hopl).row hh)

theorem bmpPixelStep_approaches (h : s.Inv) (hb : s.busy = true) (hopl : s.lat.opl = 4#4 ∨ s.lat.opl = 5#4)
    (hstarted : s.outLen ≠ 0#32) (hcol : s.work.bmp.col.toNat < s.lat.w.toNat) (hstep : bmpPixelStep s = .ok t) :
    Approaches s t := by
  obtain ⟨happ, -, hbmp, -⟩ := bmpPixelStep_ok h.outFits hstep
  have hnext : (s.work.bmp.col + 1#16).toNat = s.work.bmp.col.toNat + 1 := by
    have hw := s.lat.w.isLt
    rw [BitVec.toNat_add, BitVec.toNat_ofNat]
    omega
  refine .of_items hb hopl happ hstarted ?_
  simp only [bmpItemsLeft, hbmp, happ.lat_eq, hnext]
  omega

theorem bmpPadStep_approaches (h : s.Inv) (hb : s.busy = true) (hopl : s.lat.opl = 4#4 ∨ s.lat.opl = 5#4)
    (hstarted : s.outLen ≠ 0#32) (hstep : bmpPadStep s = .ok t) : Approaches s t := by
  obtain ⟨u, happ, -, hwork, -, rfl⟩ := bmpPadStep_ok h.outFits hstep
  split
  case isTrue => exact .inl (hasEnded_complete _)
  case isFalse hrow =>
    rw [hwork] at hrow ⊢
    have hne : s.work.bmp.row.toNat ≠ 0 := fun e => hrow (BitVec.eq_of_toNat_eq e)
    have hprev : (s.work.bmp.row - 1#16).toNat = s.work.bmp.row.toNat - 1 :=
      BitVec.toNat_sub_of_le (BitVec.le_def.2 (Nat.one_le_iff_ne_zero.2 hne))
    have hitems := rowItems_pred s.lat.w.toNat hne
    refine .of_items hb hopl (happ.setBmp _) hstarted ?_
    simp only [bmpItemsLeft, State.setBmp_work, State.setBmp_lat, happ.lat_eq, hprev, BitVec.toNat_ofNat, Nat.zero_mod,
      Nat.sub_zero]
    omega

theorem bmpStep_approaches (h : s.Inv) (hb : s.busy = true) (hopl : s.lat.opl = 4#4 ∨ s.lat.opl = 5#4)
    (hstep : bmpStep s = .ok t) : Approaches s t := by
  rw [bmpStep] at hstep
  split_ifs at hstep with hstart hcol
  · exact bmpHeaderStep_approaches h hb hopl hstart hstep
  · exact bmpPixelStep_approaches h hb hopl hstart hcol hstep
  · exact bmpPadStep_approaches h hb hopl hstart hstep

end Units

/-! ### The run to the end -/

section Run

variable {s t u : State}

theorem opStep_approaches (h : s.Inv) (hb : s.busy = true) : ∃ t, opStep s = .next t ∧ Approaches s t := by
  obtain ⟨hop, hlow, hhigh⟩ := (h.operation hb).opcode
  rw [opStep]
  split_ifs with h1 h2 h3 h45
  · exact ⟨_, rfl, .settled fun _ => lzwStep_approaches h hb h1⟩
  · exact ⟨_, rfl, .settled fun _ => qoiCompressStep_approaches h hb h2⟩
  · exact qoiDecompressStep_approaches h hb h3
  · exact ⟨_, rfl, .settled fun _ => bmpStep_approaches h hb h45⟩
  · rw [hop] at h1 h2 h3 h45
    bv_omega

/-- A race ends the operation at once (log entry 12). -/
theorem hasEnded_raceStep (s : State) : HasEnded (raceStep s) := by
  rw [raceStep]
  split
  · exact ⟨rfl, .inl rfl⟩
  · exact hasEnded_raise _ s

theorem engineTurn_approaches (h : s.Inv) (hb : s.busy = true) : ∃ t, engineTurn s = .next t ∧ Approaches s t := by
  rw [engineTurn, if_pos hb]
  split
  · exact ⟨_, rfl, .inl (hasEnded_raceStep s)⟩
  · exact opStep_approaches h hb

theorem step_of_no_host (hhost : s.host = []) : step s = engineTurn s := by rw [step, takeTurn, hhost]

theorem core_run_succ {M : Host.Core} {s t : M.State} {k : Nat} (hstep : M.step s = .next t) :
    M.run (k + 1) s = M.run k t := by
  simp only [Host.Core.run, hstep]

theorem Reaches.of_step {n : Nat} (hstep : step s = .next t) (h : Reaches n t u) : Reaches (n + 1) s u := by
  obtain ⟨k, hk, hrun⟩ := h
  refine ⟨k + 1, Nat.succ_le_succ hk, ?_⟩
  exact (core_run_succ (M := Sys2Proof.core) hstep).trans hrun

theorem Reaches.refl (n : Nat) (s : State) : Reaches n s s := ⟨0, Nat.zero_le n, rfl⟩

/-- An operation ends within one step more than those left. -/
theorem reaches_end {n : Nat} (h : s.Inv) (hb : s.busy = true) (hhost : s.host = []) (hn : stepsLeft s < n) :
    ∃ t, Reaches n s t ∧ HasEnded t := by
  induction n generalizing s with
  | zero => exact absurd hn (Nat.not_lt_zero _)
  | succ n ih =>
    obtain ⟨t, hturn, hnext⟩ := engineTurn_approaches h hb
    have hstep : step s = .next t := (step_of_no_host hhost).trans hturn
    rcases hnext with hend | ⟨hbusy, hless⟩
    · exact ⟨t, .of_step hstep (.refl n t), hend⟩
    · have hhost' : t.host = [] := by rw [engineTurn_frame hturn]; exact hhost
      obtain ⟨u, hreach, hend⟩ := ih (everyStepKeepsValidity s t h hstep) hbusy hhost' (by omega)
      exact ⟨u, .of_step hstep hreach, hend⟩

theorem stepsLeft_le (h : s.Inv) (hb : s.busy = true) :
    stepsLeft s ≤ s.lat.len.toNat + s.lat.n.toNat + s.lat.h.toNat + 1 := by
  have hop := h.operation hb
  by_cases hopl : s.lat.opl = 4#4 ∨ s.lat.opl = 5#4
  · rw [stepsLeft_of_bmp hopl]
    split
    case isTrue => omega
    case isFalse hstarted =>
      have hok := hop.bmp hopl
      have hless := bmpItemsLeft_lt hop (hok.row (hok.progress hstarted).1)
      omega
  · rw [stepsLeft_of_input hopl]
    split <;> omega

/-- Settles O51: every turn of the engine ends the operation or leaves fewer steps. -/
theorem everyOperationEnds : Obligations.EveryOperationEnds := by
  intro s h hb hhost
  exact reaches_end h hb hhost (by have := stepsLeft_le h hb; omega)

end Run

end Sys2Proof.Machine
end

section
/-! ## What the commands do (40_commands.md R130 to R142) -/

namespace Sys2Proof.Machine

section Commands

variable {s : State}

/-- Settles O9. -/
theorem nopChangesNothing : Obligations.NopChangesNothing := ⟨decodeCmd_encodeCmd (i := .nop) rfl rfl, fun _ => rfl⟩

/-! ### ACK and ABORT -/

theorem State.ended_iff : s.ended = true ↔ s.done = true ∨ s.err ≠ 0#4 := by simp [State.ended]

theorem exec_ack_busy (hb : s.busy = true) : exec .ack s = .next s := if_pos hb

theorem exec_ack_idle (hb : s.busy = false) :
    exec .ack s = if s.ended then .next (clearOutcome s) else .next s := if_neg (by simp [hb])

theorem clearOutcome_irq (s : State) : (clearOutcome s).irq = false := by simp [State.irq]

/-- Settles O10: `ACK` looks at `BUSY` first, then at whether there is an outcome to leave. -/
theorem ackLeavesDoneOrFaulted : Obligations.AckLeavesDoneOrFaulted := by
  refine ⟨decodeCmd_encodeCmd (i := .ack) rfl rfl, fun s => ?_⟩
  refine ⟨fun hb hend => ⟨?_, clearOutcome_irq s⟩, fun hb hdone herr => ?_, exec_ack_busy⟩
  · exact (exec_ack_idle hb).trans (if_pos (State.ended_iff.2 hend))
  · exact (exec_ack_idle hb).trans (if_neg (by simp [State.ended, hdone, herr]))

/-- `STATUS` of a block that is neither busy, done nor faulted and has `ALLT` clear (R25). -/
theorem statusWord_of_idle (hb : s.busy = false) (hdone : s.done = false) (hallt : s.allt = false) (herr : s.err = 0#4) :
    s.statusWord = 0#20 ++ s.op ++ 0#8 := by
  apply BitVec.eq_of_getLsbD_eq
  intro i _
  rw [statusWord_getLsbD, hb, hdone, hallt, herr]
  simp only [BitVec.getLsbD_append, BitVec.getLsbD_zero]
  by_cases hlow : i < 8
  · simp [hlow]
  · have hop : i - 8 < 4 ↔ i < 12 := by omega
    rw [if_neg (by omega), if_neg (by omega), if_neg (by omega), if_neg (by omega), if_neg hlow]
    simp [hlow, hop]

theorem engineTurn_idle (hb : s.busy = false) : engineTurn s = .next s := by simp [engineTurn, hb]

/-- Settles O11. -/
theorem abortReturnsToIdle : Obligations.AbortReturnsToIdle := by
  refine ⟨decodeCmd_encodeCmd (i := .abort) rfl rfl, fun s => ⟨abandon s, rfl, statusWord_of_idle rfl rfl rfl rfl, ?_⟩⟩
  refine ⟨rfl, rfl, rfl, ?_, rfl, rfl, rfl, rfl, rfl, rfl, rfl, rfl, rfl, rfl, engineTurn_idle rfl⟩
  simp [State.irq]

/-! ### Commands refused: reserved values, and any command while busy -/

theorem exec_reservedCmd_idle (v : Word) (hb : s.busy = false) :
    exec (.reservedCmd v) s = .next (raise ⟨.cmdError, v⟩ s) := if_neg (by simp [hb])

/-- Settles O12: the fault entry of R288 does the rest. -/
theorem reservedCommandRaisesCmdError : Obligations.ReservedCommandRaisesCmdError := by
  intro s v hb
  exact ⟨raise ⟨.cmdError, v⟩ s, exec_reservedCmd_idle v hb, rfl, rfl, rfl, rfl, rfl, rfl, rfl, rfl, rfl, rfl, rfl, rfl⟩

theorem startCommand_busy {opc : BitVec 4} {checks : State → List (Bool × Word)} {init : State → State}
    (hb : s.busy = true) : startCommand opc checks init s = s := if_pos hb

/-- Settles O13, command by command: `NOP` does nothing anyway, every other looks at `BUSY`. -/
theorem busyIgnoresCommands : Obligations.BusyIgnoresCommands := by
  intro i s hformat habort hb
  cases i with
  | nop => rfl
  | lzwCompress | qoiCompress | qoiDecompress | bmpEncode24 | bmpEncode32 =>
    exact congrArg Host.Outcome.next (startCommand_busy hb)
  | ack => exact exec_ack_busy hb
  | abort => exact absurd rfl habort
  | reservedCmd v => exact if_pos hb
  | rgb | rgba | index | diff | luma | run => cases hformat

/-! ### Commands that start an operation -/

/-- A start command whose checks hold (R131). -/
theorem startCommand_accepted {opc : BitVec 4} {checks : State → List (Bool × Word)} {init : State → State}
    (hb : s.busy = false) (hchecks : ∀ c ∈ checks (latchStart opc s), c.1 = true) :
    startCommand opc checks init s = { init (latchStart opc s) with busy := true } := by
  simp [startCommand, hb, firstFailing_eq_none.2 hchecks]

/-- The checks of the pixel commands (R132). -/
theorem checksPixels_of_fit {opc : BitVec 4} (hlen : s.inLen.toNat ≤ s.cfg.inSize) (hdim : dimBytes s = s.inLen.toNat) :
    ∀ c ∈ checksPixels (latchStart opc s), c.1 = true := by
  simp only [checksPixels, pixelBytes_latchStart, List.forall_mem_cons]
  exact ⟨beq_iff_eq.2 hdim, decide_eq_true hlen, List.forall_mem_nil _⟩

/-- The checks of `QOI_DECOMPRESS` (R132). -/
theorem checksDecompress_of_fit {opc : BitVec 4} (hlen : s.inLen.toNat ≤ s.cfg.inSize)
    (hroom : dimBytes s ≤ s.cfg.outCap.toNat) : ∀ c ∈ checksDecompress (latchStart opc s), c.1 = true := by
  simp only [checksDecompress, pixelBytes_latchStart, List.forall_mem_cons]
  exact ⟨decide_eq_true hlen, decide_eq_true hroom, List.forall_mem_nil _⟩

/-- The checks of `LZW_COMPRESS` (R132). -/
theorem checksLzw_of_fit {opc : BitVec 4} (hlow : 1 ≤ s.colorBits.toNat) (hhigh : s.colorBits.toNat ≤ 8)
    (hlen : s.inLen.toNat ≤ s.cfg.inSize) : ∀ c ∈ checksLzw (latchStart opc s), c.1 = true := by
  simp only [checksLzw, List.forall_mem_cons]
  exact ⟨decide_eq_true ⟨hlow, hhigh⟩, decide_eq_true hlen, List.forall_mem_nil _⟩

/-- The first free code at the start is `2^CB + 2` (R34, R181). -/
theorem lzwStartRegs_next (cb : BitVec 4) (l : LzwRegs) :
    (lzwStartRegs cb l).next = BitVec.ofNat 13 (2 ^ cb.toNat + 2) := by
  rw [lzwStartRegs, lzwEnd, lzwClear, Nat.one_shiftLeft]

/-- Settles O14. -/
theorem lzwCompressStarts : Obligations.LzwCompressStarts := by
  intro s hb hlow hhigh hlen
  rw [← lzwStartRegs_next s.colorBits s.work.lzw]
  exact congrArg Host.Outcome.next (startCommand_accepted hb (checksLzw_of_fit hlow hhigh hlen))

/-- Settles O15. -/
theorem qoiCommandsStart : Obligations.QoiCommandsStart := by
  intro s hb hlen
  exact ⟨fun hdim => congrArg Host.Outcome.next (startCommand_accepted hb (checksPixels_of_fit hlen hdim)),
    fun hroom => congrArg Host.Outcome.next (startCommand_accepted hb (checksDecompress_of_fit hlen hroom))⟩

/-- Settles O16. -/
theorem bmpCommandsStart : Obligations.BmpCommandsStart := by
  intro s hb hlen hdim
  have hstart (opc : BitVec 4) (v : BmpVersion) :
      startCommand opc checksPixels (initBmp v) s = { initBmp v (latchStart opc s) with busy := true } :=
    startCommand_accepted hb (checksPixels_of_fit hlen hdim)
  exact ⟨congrArg Host.Outcome.next (hstart 4#4 .bmp24), congrArg Host.Outcome.next (hstart 5#4 .bmp32)⟩

end Commands

end Sys2Proof.Machine
end

section
/-! ## The BMP file row by row (41_bmp.md R151, R152, R157, R162)

The length of the file, and the part of it that is still to be written when the unit stands at a pixel. -/

namespace Sys2Proof.Machine

open Functions

section File

variable (v : BmpVersion) (w : Nat) (px : Nat → Pixel)

theorem bmpRow_length (y : Nat) : (bmpRow v w px y).length = bmpPixelBytes v * w + bmpPadding v w := by
  simp [bmpRow, List.length_flatMap, bmpPixel_length, Nat.mul_comm]

theorem bmpRows_length (h : Nat) : (bmpRows v w px h).length = bmpBitmapSize v w h := by
  induction h with
  | zero => rfl
  | succ h ih => rw [bmpRows, List.length_append, bmpRow_length, ih, bmpBitmapSize, bmpBitmapSize, Nat.mul_succ, Nat.add_comm]

theorem bmpFile_length (c : Config) (h : Nat) : (bmpFile c v w h px).length = bmpFileSize v w h := by
  rw [bmpFile, List.length_append, bmpHeaders_length, bmpRows_length, bmpFileSize]

/-- The padding brings a row to a multiple of 4 bytes (R151). -/
theorem bmpRowBytes_mod_four : (bmpPixelBytes v * w + bmpPadding v w) % 4 = 0 := by
  cases v
  case bmp24 => rw [bmpPixelBytes, bmpPadding]; omega
  case bmp32 => rw [bmpPixelBytes, bmpPadding]; omega

/-- Settles O43. -/
theorem bmpFileHasItsStatedSize : Obligations.BmpFileHasItsStatedSize := by
  intro c v w h px
  exact ⟨bmpFile_length v w px c h, fun y => by rw [bmpRow_length, bmpRowBytes_mod_four]⟩

/-- The bytes of the file from the pixel at column `x` of row `r` on: the rest of the row, its padding, the rows above it in
the picture (R157). -/
def bmpRest (r x : Nat) : List Byte :=
  (List.range' x (w - x)).flatMap (fun j => bmpPixel v (px (r * w + j)))
    ++ (List.replicate (bmpPadding v w) 0#8 ++ bmpRows v w px r)

theorem bmpRest_of_lt (r : Nat) {x : Nat} (hx : x < w) :
    bmpRest v w px r x = bmpPixel v (px (r * w + x)) ++ bmpRest v w px r (x + 1) := by
  rw [bmpRest, bmpRest, show w - x = w - (x + 1) + 1 by omega, List.range'_succ, List.flatMap_cons, List.append_assoc]

theorem bmpRest_row_end (r : Nat) : bmpRest v w px r w = List.replicate (bmpPadding v w) 0#8 ++ bmpRows v w px r := by
  rw [bmpRest, Nat.sub_self, List.range'_zero, List.flatMap_nil, List.nil_append]

theorem bmpRest_row_start (r : Nat) : bmpRest v w px r 0 = bmpRows v w px (r + 1) := by
  rw [bmpRest, bmpRows, bmpRow, List.range_eq_range', Nat.sub_zero, List.append_assoc]

/-- The pixels of the rest of the file have alpha 0 (R161). -/
def BmpRestClear (r x : Nat) : Prop :=
  ∀ k, k < r * w ∨ r * w + x ≤ k ∧ k < r * w + w → (px k).a = 0#8

theorem bmpRestClear_of_lt (r : Nat) {x : Nat} (hx : x < w) :
    BmpRestClear w px r x ↔ (px (r * w + x)).a = 0#8 ∧ BmpRestClear w px r (x + 1) := by
  constructor
  · exact fun hall => ⟨hall _ (by omega), fun k hk => hall k (by omega)⟩
  · rintro ⟨hpixel, hrest⟩ k hk
    by_cases hkx : k = r * w + x
    · rwa [hkx]
    · exact hrest k (by omega)

theorem bmpRestClear_row_end (r : Nat) : BmpRestClear w px r w ↔ ∀ k, k < r * w → (px k).a = 0#8 :=
  forall_congr' fun k => imp_congr_left (by omega)

theorem bmpRestClear_row_start (r : Nat) : BmpRestClear w px r 0 ↔ ∀ k, k < (r + 1) * w → (px k).a = 0#8 :=
  forall_congr' fun k => imp_congr_left (by rw [Nat.succ_mul]; omega)

end File

end Sys2Proof.Machine
end

section
/-! ## The steps of a BMP operation (41_bmp.md R154 to R161)

Each step writes its bytes and goes on or completes, or raises `OutFull`; the steps are put together to the whole operation. -/

namespace Sys2Proof.Machine

open Functions

section Steps

variable {s u : State}

/-- A BMP operation in progress that the host leaves to itself. -/
structure BmpRunning (s : State) : Prop where
  busy : s.busy = true
  alone : s.host = []
  unraced : s.inRaced = false
  opcode : s.lat.opl = 4#4 ∨ s.lat.opl = 5#4

theorem BmpRunning.step_eq (h : BmpRunning s) : step s = .next (settle s (bmpStep s)) := by
  have hother : s.lat.opl ≠ 1#4 ∧ s.lat.opl ≠ 2#4 ∧ s.lat.opl ≠ 3#4 := by rcases h.opcode with e | e <;> rw [e] <;> decide
  obtain ⟨h1, h2, h3⟩ := hother
  simp [step_of_no_host h.alone, engineTurn, h.busy, h.unraced, opStep, h1, h2, h3, h.opcode]

/-- The state with bytes appended to OUT, another `ALLT` and other working registers. -/
def State.wrote (s : State) (bs : List Byte) (allt : Bool) (work : Work) : State :=
  { s.appended bs with allt := allt, work := work }

@[simp] theorem State.wrote_work (s : State) (bs : List Byte) (allt : Bool) (work : Work) :
    (s.wrote bs allt work).work = work := rfl

/-- The step writes `bs` and leaves `t`, or raises `OutFull` where they do not fit (R66, R286). -/
def WritesOrOverflows (s : State) (bs : List Byte) (t : State) : Prop :=
  step s = .next
    (if s.outLen.toNat + bs.length ≤ s.cfg.outCap.toNat then t else raise ⟨.outFull, s.cfg.outCap⟩ s)

/-- What becomes of a step that emits bytes from `r` on and then changes registers. -/
theorem settle_emitAll {r : State} {bs : List Byte} (f : State → State) (hle : r.outLen.toNat ≤ r.cfg.outCap.toNat) :
    settle s ((emitAll bs r).map f) =
      if r.outLen.toNat + bs.length ≤ r.cfg.outCap.toNat then f (r.appended bs) else raise ⟨.outFull, r.cfg.outCap⟩ s := by
  rcases emitAll_cases (bs := bs) hle with ⟨hfit, e⟩ | ⟨hfull, e⟩ <;> rw [e]
  · rw [if_pos hfit]; rfl
  · rw [if_neg (by omega)]; rfl

/-- The headers of the operation in progress (R154 to R156). -/
def bmpHeaders (s : State) : List Byte :=
  bmpFileHeader (bmpVersion s.lat.opl) s.lat.w.toNat s.lat.h.toNat
    ++ bmpInfoHeader (bmpVersion s.lat.opl) s.cfg s.lat.w.toNat s.lat.h.toNat

theorem BmpRunning.header_step (h : BmpRunning s) (hstart : s.outLen = 0#32) :
    WritesOrOverflows s (bmpHeaders s)
      (if s.lat.h = 0#16 then bmpFinish (s.wrote (bmpHeaders s) true s.work) else s.wrote (bmpHeaders s) true s.work) := by
  rw [WritesOrOverflows, h.step_eq, bmpStep, if_pos hstart]
  exact congrArg _ (settle_emitAll (r := s) _ (by rw [hstart]; exact Nat.zero_le _))

/-- The pixel at `(COL, ROW)` (20_memory.md R63). -/
def State.bmpPixelHere (s : State) : Pixel := inPixel s s.bmpPixelAddr

/-- The state behind the pixel at `(COL, ROW)`. -/
def State.pixelDrawn (s : State) : State :=
  s.wrote (bmpPixel (bmpVersion s.lat.opl) s.bmpPixelHere) (s.allt && s.bmpPixelHere.a == 0#8)
    { s.work with bmp := { s.work.bmp with col := s.work.bmp.col + 1#16 } }

theorem BmpRunning.pixel_step (h : BmpRunning s) (hstarted : s.outLen ≠ 0#32)
    (hle : s.outLen.toNat ≤ s.cfg.outCap.toNat) (hcol : s.work.bmp.col.toNat < s.lat.w.toNat) :
    WritesOrOverflows s (bmpPixel (bmpVersion s.lat.opl) s.bmpPixelHere) s.pixelDrawn := by
  rw [WritesOrOverflows, h.step_eq, bmpStep, if_neg hstarted, if_pos hcol]
  exact congrArg _ (settle_emitAll (r := { s with allt := s.allt && s.bmpPixelHere.a == 0#8 }) _ hle)

/-- The padding of a row (R151, R160). -/
def State.bmpPaddingHere (s : State) : List Byte := List.replicate s.work.bmp.padn.toNat 0#8

/-- The state at the start of the row above, behind the padding of row `ROW`. -/
def State.rowDrawn (s : State) : State :=
  s.wrote s.bmpPaddingHere s.allt
    { s.work with bmp := { s.work.bmp with row := s.work.bmp.row - 1#16, col := 0#16 } }

theorem BmpRunning.pad_step (h : BmpRunning s) (hstarted : s.outLen ≠ 0#32)
    (hle : s.outLen.toNat ≤ s.cfg.outCap.toNat) (hcol : s.lat.w.toNat ≤ s.work.bmp.col.toNat) :
    WritesOrOverflows s s.bmpPaddingHere
      (if s.work.bmp.row = 0#16 then bmpFinish (s.wrote s.bmpPaddingHere s.allt s.work)
        else s.rowDrawn) := by
  rw [WritesOrOverflows, h.step_eq, bmpStep, if_neg hstarted, if_neg (by omega)]
  exact congrArg _ (settle_emitAll (r := s) _ hle)

theorem WritesOrOverflows.step_of_fits {bs : List Byte} {t : State} (h : WritesOrOverflows s bs t)
    (hfits : s.outLen.toNat + bs.length ≤ s.cfg.outCap.toNat) : step s = .next t := by
  rw [WritesOrOverflows, if_pos hfits] at h
  exact h

theorem WritesOrOverflows.step_of_overflow {bs : List Byte} {t : State} (h : WritesOrOverflows s bs t)
    (hfull : s.cfg.outCap.toNat < s.outLen.toNat + bs.length) : step s = .next (raise ⟨.outFull, s.cfg.outCap⟩ s) := by
  rw [WritesOrOverflows, if_neg (by omega)] at h
  exact h

/-- The order of the channels, by opcode (R158, R159). -/
theorem bmpPixel_of_opcode (opl : BitVec 4) (p : Pixel) :
    bmpPixel (bmpVersion opl) p = if opl = 4#4 then [p.b, p.g, p.r] else [p.r, p.g, p.b, p.a] := by
  rw [bmpVersion]
  split_ifs <;> rfl

/-- Settles O44: the pixel step, and the padding step in its two forms. -/
theorem bmpStepsFollowRowOrder : Obligations.BmpStepsFollowRowOrder := by
  intro s hhost hb hr hopl hstarted p pixel padding
  have hrun : BmpRunning s := ⟨hb, hhost, hr, hopl⟩
  have hpixel : bmpPixel (bmpVersion s.lat.opl) s.bmpPixelHere = pixel := bmpPixel_of_opcode _ _
  refine ⟨fun hcol hfits => ?_, fun hcol hfits => ?_⟩
  · rw [← hpixel] at hfits ⊢
    exact (hrun.pixel_step hstarted (by omega) hcol).step_of_fits hfits
  · have hstep := (hrun.pad_step hstarted (by omega) hcol).step_of_fits hfits
    refine ⟨fun hrow => ?_, fun hrow => ?_⟩
    · rwa [if_neg hrow] at hstep
    · rwa [if_pos hrow] at hstep

end Steps

/-! ### The run to the end -/

section Run

variable {s t u : State} {n : Nat} {bs cs : List Byte} {allt : Bool} {work : Work} {clear clear' : Prop}

/-- `u` ends an operation that had the bytes `bs` still to write at `s`: with `bs` behind the output of `s` and `ALLT` telling
whether `clear` holds, or in `OutFull` (R143, R161, R286). -/
structure EndsWriting (s : State) (bs : List Byte) (clear : Prop) (u : State) : Prop where
  completed : s.outLen.toNat + bs.length ≤ s.cfg.outCap.toNat →
    u = { s.wrote bs u.allt u.work with inPos := s.lat.len, busy := false, done := true } ∧ (u.allt = true ↔ clear)
  overflowed : s.cfg.outCap.toNat < s.outLen.toNat + bs.length → ∃ r, u = raise ⟨.outFull, s.cfg.outCap⟩ r

theorem State.wrote_outLen_toNat (hfits : s.outLen.toNat + bs.length ≤ s.cfg.outCap.toNat) :
    (s.wrote bs allt work).outLen.toNat = s.outLen.toNat + bs.length :=
  s.appended_outLen_toNat bs (by have hcap := s.cfg.outCap.isLt; omega)

/-- What was written before counts. -/
theorem EndsWriting.after (hfits : s.outLen.toNat + bs.length ≤ s.cfg.outCap.toNat)
    (h : EndsWriting (s.wrote bs allt work) cs clear u) : EndsWriting s (bs ++ cs) clear u := by
  have hcap := s.cfg.outCap.isLt
  have hlen := State.wrote_outLen_toNat (allt := allt) (work := work) hfits
  obtain ⟨hdone, hfull⟩ := h
  rw [hlen, Nat.add_assoc, ← List.length_append] at hdone hfull
  refine ⟨fun hroom => ?_, hfull⟩
  obtain ⟨e, hclear⟩ := hdone hroom
  refine ⟨?_, hclear⟩
  rw [State.wrote, ← State.appended_append s bs cs (by omega)]
  exact e

theorem endsWriting_overflow (hfull : s.cfg.outCap.toNat < s.outLen.toNat + bs.length) :
    EndsWriting s bs clear (raise ⟨.outFull, s.cfg.outCap⟩ s) :=
  ⟨fun hfits => by omega, fun _ => ⟨s, rfl⟩⟩

theorem EndsWriting.idle (h : EndsWriting s bs clear u) : u.busy = false := by
  rcases Nat.lt_or_ge s.cfg.outCap.toNat (s.outLen.toNat + bs.length) with hfull | hfits
  · obtain ⟨r, rfl⟩ := h.overflowed hfull
    rfl
  · rw [(h.completed hfits).1]

/-- An operation comes to its end within `n` steps. -/
def FinishesWriting (n : Nat) (s : State) (bs : List Byte) (clear : Prop) : Prop :=
  ∃ u, Reaches n s u ∧ EndsWriting s bs clear u

theorem FinishesWriting.of_overflow (hstep : WritesOrOverflows s bs t)
    (hfull : s.cfg.outCap.toNat < s.outLen.toNat + bs.length) : FinishesWriting (n + 1) s (bs ++ cs) clear := by
  refine ⟨_, .of_step (hstep.step_of_overflow hfull) (.refl n _), endsWriting_overflow ?_⟩
  rw [List.length_append]
  omega

/-- A step after which the operation goes on. -/
theorem FinishesWriting.of_step (hstep : WritesOrOverflows s bs (s.wrote bs allt work))
    (hrest : s.outLen.toNat + bs.length ≤ s.cfg.outCap.toNat → FinishesWriting n (s.wrote bs allt work) cs clear) :
    FinishesWriting (n + 1) s (bs ++ cs) clear := by
  by_cases hfits : s.outLen.toNat + bs.length ≤ s.cfg.outCap.toNat
  · obtain ⟨u, hreach, hend⟩ := hrest hfits
    exact ⟨u, .of_step (hstep.step_of_fits hfits) hreach, hend.after hfits⟩
  · exact .of_overflow hstep (not_le.1 hfits)

/-- The last step. -/
theorem FinishesWriting.of_last (hstep : WritesOrOverflows s bs (bmpFinish (s.wrote bs allt work)))
    (hclear : allt = true ↔ clear) : FinishesWriting (n + 1) s bs clear := by
  by_cases hfits : s.outLen.toNat + bs.length ≤ s.cfg.outCap.toNat
  · exact ⟨_, .of_step (hstep.step_of_fits hfits) (.refl n _), fun _ => ⟨rfl, hclear⟩, fun hfull => by omega⟩
  · rw [← List.append_nil bs]
    exact .of_overflow hstep (not_le.1 hfits)

theorem FinishesWriting.congr (h : FinishesWriting n s bs clear) (hclear : clear ↔ clear') :
    FinishesWriting n s bs clear' := propext hclear ▸ h

/-- A valid state in the middle of a BMP operation, behind the headers. -/
structure BmpDrawing (s : State) : Prop where
  valid : s.Inv
  running : BmpRunning s
  started : s.outLen ≠ 0#32

theorem BmpDrawing.bmpOk (h : BmpDrawing s) : BmpOk s := (h.valid.operation h.running.busy).bmp h.running.opcode

/-- A step that goes on leaves a valid state behind the headers. -/
theorem BmpRunning.drawing (h : s.Inv) (hrun : BmpRunning s) (hstep : WritesOrOverflows s bs (s.wrote bs allt work))
    (hwritten : s.outLen.toNat + bs.length ≠ 0) (hfits : s.outLen.toNat + bs.length ≤ s.cfg.outCap.toNat) :
    BmpDrawing (s.wrote bs allt work) where
  valid := everyStepKeepsValidity s _ h (hstep.step_of_fits hfits)
  running := ⟨hrun.busy, hrun.alone, hrun.unraced, hrun.opcode⟩
  started := fun e => hwritten (by rw [← State.wrote_outLen_toNat (allt := allt) (work := work) hfits, e]; rfl)

theorem BmpDrawing.next (h : BmpDrawing s) (hstep : WritesOrOverflows s bs (s.wrote bs allt work))
    (hfits : s.outLen.toNat + bs.length ≤ s.cfg.outCap.toNat) : BmpDrawing (s.wrote bs allt work) :=
  h.running.drawing h.valid hstep (fun e => h.started (BitVec.eq_of_toNat_eq (Nat.eq_zero_of_add_eq_zero_right e))) hfits

/-- The picture in IN (20_memory.md R63). -/
def bmpPicture (s : State) (k : Nat) : Pixel := inPixel s (4 * k)

/-- The bytes of the file that the unit has still to write. -/
def bmpToCome (s : State) : List Byte :=
  bmpRest (bmpVersion s.lat.opl) s.lat.w.toNat (bmpPicture s) s.work.bmp.row.toNat s.work.bmp.col.toNat

/-- `ALLT` will be 1 at the end (R161). -/
def BmpStaysClear (s : State) : Prop :=
  s.allt = true ∧ BmpRestClear s.lat.w.toNat (bmpPicture s) s.work.bmp.row.toNat s.work.bmp.col.toNat

theorem bmpPixelHere_eq (s : State) :
    s.bmpPixelHere = bmpPicture s (s.work.bmp.row.toNat * s.lat.w.toNat + s.work.bmp.col.toNat) := by
  rw [State.bmpPixelHere, bmpPicture, State.bmpPixelAddr, pixelAddr, Nat.mul_comm]

/-! What is to come, before and after a step. -/

theorem pixelDrawn_col (hcol : s.work.bmp.col.toNat < s.lat.w.toNat) :
    s.pixelDrawn.work.bmp.col.toNat = s.work.bmp.col.toNat + 1 :=
  BitVec.toNat_add_of_lt (by have hw := s.lat.w.isLt; rw [BitVec.toNat_ofNat]; omega)

theorem bmpToCome_pixel (hcol : s.work.bmp.col.toNat < s.lat.w.toNat) :
    bmpToCome s = bmpPixel (bmpVersion s.lat.opl) s.bmpPixelHere ++ bmpToCome s.pixelDrawn := by
  rw [bmpToCome, bmpRest_of_lt _ _ _ _ hcol, ← bmpPixelHere_eq, ← pixelDrawn_col hcol]
  rfl

theorem bmpStaysClear_pixel (hcol : s.work.bmp.col.toNat < s.lat.w.toNat) :
    BmpStaysClear s.pixelDrawn ↔ BmpStaysClear s := by
  have hallt : s.pixelDrawn.allt = true ↔ s.allt = true ∧ s.bmpPixelHere.a = 0#8 := by
    simp [State.pixelDrawn, State.wrote]
  rw [BmpStaysClear, BmpStaysClear, hallt, bmpRestClear_of_lt _ _ _ hcol, ← bmpPixelHere_eq, pixelDrawn_col hcol, and_assoc]
  rfl

theorem bmpItemsLeft_pixel (hcol : s.work.bmp.col.toNat < s.lat.w.toNat) :
    bmpItemsLeft s.pixelDrawn < bmpItemsLeft s := by
  rw [bmpItemsLeft, bmpItemsLeft, pixelDrawn_col hcol]
  exact Nat.add_lt_add_left (Nat.sub_lt_sub_left hcol (Nat.lt_succ_self _)) _

/-- A row or a height that is not 0 is one more than the number below it. -/
theorem toNat_sub_one_add_one {x : BitVec 16} (hx : x ≠ 0#16) : (x - 1#16).toNat + 1 = x.toNat := by
  have hpos : 1 ≤ x.toNat := Nat.one_le_iff_ne_zero.2 fun e => hx (BitVec.eq_of_toNat_eq e)
  have hprev : (x - 1#16).toNat = x.toNat - 1 := BitVec.toNat_sub_of_le (BitVec.le_def.2 hpos)
  rw [hprev, Nat.sub_add_cancel hpos]

theorem rowDrawn_row (hrow : s.work.bmp.row ≠ 0#16) :
    s.rowDrawn.work.bmp.row.toNat + 1 = s.work.bmp.row.toNat := toNat_sub_one_add_one hrow

/-- Behind the last pixel of a row come its padding and the rows above. -/
theorem BmpOk.toCome_row_end (h : BmpOk s) (hcol : s.lat.w.toNat ≤ s.work.bmp.col.toNat) :
    bmpToCome s = s.bmpPaddingHere
      ++ bmpRows (bmpVersion s.lat.opl) s.lat.w.toNat (bmpPicture s) s.work.bmp.row.toNat := by
  rw [bmpToCome, Nat.le_antisymm h.column hcol, bmpRest_row_end, ← h.padding]
  rfl

theorem BmpOk.staysClear_row_end (h : BmpOk s) (hcol : s.lat.w.toNat ≤ s.work.bmp.col.toNat) :
    BmpStaysClear s ↔
      s.allt = true ∧ ∀ k, k < s.work.bmp.row.toNat * s.lat.w.toNat → (bmpPicture s k).a = 0#8 := by
  rw [BmpStaysClear, Nat.le_antisymm h.column hcol, bmpRestClear_row_end]

theorem bmpToCome_rowDrawn (hrow : s.work.bmp.row ≠ 0#16) :
    bmpToCome s.rowDrawn = bmpRows (bmpVersion s.lat.opl) s.lat.w.toNat (bmpPicture s) s.work.bmp.row.toNat := by
  rw [← rowDrawn_row hrow]
  exact bmpRest_row_start _ _ _ _

theorem staysClear_rowDrawn (hrow : s.work.bmp.row ≠ 0#16) :
    BmpStaysClear s.rowDrawn ↔
      s.allt = true ∧ ∀ k, k < s.work.bmp.row.toNat * s.lat.w.toNat → (bmpPicture s k).a = 0#8 := by
  rw [← rowDrawn_row hrow]
  exact and_congr_right' (bmpRestClear_row_start _ _ _)

theorem bmpItemsLeft_rowDrawn (hrow : s.work.bmp.row ≠ 0#16) : bmpItemsLeft s.rowDrawn < bmpItemsLeft s := by
  have hitems : bmpItemsLeft s.rowDrawn = s.rowDrawn.work.bmp.row.toNat * (s.lat.w.toNat + 1) + s.lat.w.toNat := rfl
  rw [hitems, bmpItemsLeft, ← rowDrawn_row hrow, Nat.succ_mul]
  omega

/-- The pixels and paddings to come are written step by step, the pixels of a row before its padding (R157). -/
theorem BmpDrawing.finishes (h : BmpDrawing s) (hn : bmpItemsLeft s < n) :
    FinishesWriting n s (bmpToCome s) (BmpStaysClear s) := by
  induction n generalizing s with
  | zero => exact absurd hn (Nat.not_lt_zero _)
  | succ n ih =>
    have hle := h.valid.outFits
    by_cases hcol : s.work.bmp.col.toNat < s.lat.w.toNat
    case pos =>
      have hstep := h.running.pixel_step h.started hle hcol
      have hless := bmpItemsLeft_pixel hcol
      rw [bmpToCome_pixel hcol]
      refine .of_step hstep fun hfits => ?_
      exact (ih (h.next hstep hfits) (hless.trans_le (Nat.le_of_lt_succ hn))).congr (bmpStaysClear_pixel hcol)
    case neg =>
      have hend := not_lt.1 hcol
      have hstep := h.running.pad_step h.started hle hend
      rw [h.bmpOk.toCome_row_end hend]
      refine FinishesWriting.congr ?_ (h.bmpOk.staysClear_row_end hend).symm
      by_cases hrow : s.work.bmp.row = 0#16
      case pos =>
        rw [if_pos hrow] at hstep
        rw [hrow, BitVec.toNat_ofNat, Nat.zero_mod, bmpRows, List.append_nil]
        exact .of_last hstep (by simp)
      case neg =>
        rw [if_neg hrow] at hstep
        have hless := bmpItemsLeft_rowDrawn hrow
        rw [← bmpToCome_rowDrawn hrow]
        refine .of_step hstep fun hfits => ?_
        exact (ih (h.next hstep hfits) (hless.trans_le (Nat.le_of_lt_succ hn))).congr (staysClear_rowDrawn hrow)

/-! ### The whole operation -/

theorem bmpHeaders_length_pos (s : State) : (bmpHeaders s).length ≠ 0 := by
  rw [bmpHeaders, bmpHeaders_length, bmpDataOffset]
  omega

theorem BmpOk.start_row (h : BmpOk s) (hstart : s.outLen = 0#32) (hh : s.lat.h ≠ 0#16) :
    s.work.bmp.row.toNat + 1 = s.lat.h.toNat := by
  rw [(h.started hstart).1]
  exact toNat_sub_one_add_one hh

/-- Behind the headers come all rows. -/
theorem BmpOk.toCome_headers (h : BmpOk s) (hstart : s.outLen = 0#32) (hh : s.lat.h ≠ 0#16) :
    bmpToCome (s.wrote (bmpHeaders s) true s.work) =
      bmpRows (bmpVersion s.lat.opl) s.lat.w.toNat (bmpPicture s) s.lat.h.toNat := by
  rw [← h.start_row hstart hh, ← bmpRest_row_start, bmpToCome, State.wrote_work, (h.started hstart).2]
  rfl

theorem BmpOk.staysClear_headers (h : BmpOk s) (hstart : s.outLen = 0#32) (hh : s.lat.h ≠ 0#16) :
    BmpStaysClear (s.wrote (bmpHeaders s) true s.work) ↔
      ∀ k, k < s.lat.w.toNat * s.lat.h.toNat → (bmpPicture s k).a = 0#8 := by
  rw [Nat.mul_comm, ← h.start_row hstart hh, ← bmpRestClear_row_start, BmpStaysClear, State.wrote_work,
    (h.started hstart).2]
  exact and_iff_right rfl

/-- A BMP operation that has written nothing writes the file of R162. -/
theorem BmpRunning.finishes (hrun : BmpRunning s) (h : s.Inv) (hstart : s.outLen = 0#32) :
    FinishesWriting (1 + s.lat.w.toNat * s.lat.h.toNat + s.lat.h.toNat) s
      (bmpFile s.cfg (bmpVersion s.lat.opl) s.lat.w.toNat s.lat.h.toNat (bmpPicture s))
      (∀ k, k < s.lat.w.toNat * s.lat.h.toNat → (bmpPicture s k).a = 0#8) := by
  have hop := h.operation hrun.busy
  have hok := hop.bmp hrun.opcode
  have hfile : bmpFile s.cfg (bmpVersion s.lat.opl) s.lat.w.toNat s.lat.h.toNat (bmpPicture s) =
      bmpHeaders s ++ bmpRows (bmpVersion s.lat.opl) s.lat.w.toNat (bmpPicture s) s.lat.h.toNat := rfl
  have hstep := hrun.header_step hstart
  rw [hfile, Nat.add_assoc, Nat.add_comm 1]
  by_cases hh : s.lat.h = 0#16
  case pos =>
    rw [if_pos hh] at hstep
    rw [hh, BitVec.toNat_ofNat, Nat.zero_mod, bmpRows, List.append_nil]
    exact .of_last hstep (by simp)
  case neg =>
    rw [if_neg hh] at hstep
    have hless := bmpItemsLeft_lt hop (hok.row hh)
    rw [hop.count] at hless
    rw [← hok.toCome_headers hstart hh]
    refine .of_step hstep fun hfits => ?_
    refine ((hrun.drawing h hstep ?_ hfits).finishes hless).congr (hok.staysClear_headers hstart hh)
    exact fun e => bmpHeaders_length_pos s (Nat.eq_zero_of_add_eq_zero_left e)

/-- Both start commands, by the opcode they latch (R131, R137, R138). -/
theorem exec_bmp_starts {i : Instr} {v : BmpVersion} (hi : i = .bmpEncode24 ∧ v = .bmp24 ∨ i = .bmpEncode32 ∧ v = .bmp32)
    (hb : s.busy = false) (hdim : dimBytes s = s.inLen.toNat) (hlen : s.inLen.toNat ≤ s.cfg.inSize) :
    ∃ opc, (opc = 4#4 ∨ opc = 5#4) ∧ bmpVersion opc = v ∧
      exec i s = .next { initBmp v (latchStart opc s) with busy := true } := by
  obtain ⟨h24, h32⟩ := bmpCommandsStart s hb hlen hdim
  rcases hi with ⟨rfl, rfl⟩ | ⟨rfl, rfl⟩
  · exact ⟨4#4, .inl rfl, rfl, h24⟩
  · exact ⟨5#4, .inr rfl, rfl, h32⟩

/-- Bytes appended to an empty OUT are what OUT holds. -/
theorem holdsOutput_appended (hempty : s.outLen = 0#32) (hfree : s.outFree = false) (hfits : bs.length < 2 ^ 32) :
    (s.appended bs).holdsOutput bs := by
  have hzero : s.outLen.toNat = 0 := congrArg BitVec.toNat hempty
  refine ⟨?_, hfree, fun i hi => ?_⟩
  · rw [s.appended_outLen_toNat bs (by omega), hzero, Nat.zero_add]
  · rw [State.appended_outMem, hzero, Memory.read_writeAll, if_pos (by omega), Nat.sub_zero]

/-- Where a whole operation ends whose output fits (R143). -/
theorem EndsWriting.result (h : EndsWriting s bs clear u) (hempty : s.outLen = 0#32) (hfree : s.outFree = false)
    (herr : s.err = 0#4) (hfits : bs.length ≤ s.cfg.outCap.toNat) :
    u.done = true ∧ u.err = 0#4 ∧ u.holdsOutput bs ∧ u.inPos = s.lat.len ∧ (u.allt = true ↔ clear) := by
  have hzero : s.outLen.toNat = 0 := congrArg BitVec.toNat hempty
  obtain ⟨hu, hclear⟩ := h.completed (by omega)
  have hout : (s.appended bs).holdsOutput bs := holdsOutput_appended hempty hfree (hfits.trans_lt s.cfg.outCap.isLt)
  refine ⟨by rw [hu], by rw [hu]; exact herr, ?_, by rw [hu], hclear⟩
  rw [hu]
  exact hout

/-- Where it ends when its output does not fit (R286, R288). -/
theorem EndsWriting.fault (h : EndsWriting s bs clear u) (hfull : s.cfg.outCap.toNat < bs.length) :
    u.done = false ∧ u.err = 5#4 ∧ u.faultInfo = s.cfg.outCap ∧ u.outLen = 0#32 := by
  obtain ⟨r, rfl⟩ := h.overflowed (by omega)
  exact ⟨rfl, rfl, rfl, rfl⟩

/-- Settles O45: the started operation writes the file, by `BmpRunning.finishes`. -/
theorem bmpOperationWritesTheFile : Obligations.BmpOperationWritesTheFile := by
  intro i v s t hi h hb hhost hdim hlen hexec w height file
  refine ⟨bmpFile_length v w _ s.cfg height, ?_⟩
  have hvalid : t.Inv := exec_cmd_keeps_inv (by rcases hi with ⟨rfl, -⟩ | ⟨rfl, -⟩ <;> rfl) h hexec
  obtain ⟨opc, hopc, rfl, hstart⟩ := exec_bmp_starts hi hb hdim hlen
  obtain rfl : _ = t := Host.Outcome.next.inj (hstart.symm.trans hexec)
  have hrun : BmpRunning { initBmp (bmpVersion opc) (latchStart opc s) with busy := true } := ⟨rfl, hhost, rfl, hopc⟩
  obtain ⟨u, hreach, hend⟩ := hrun.finishes hvalid rfl
  exact ⟨u, hreach, hend.idle, hend.result rfl rfl rfl, hend.fault⟩

end Run

end Sys2Proof.Machine
end

section
/-! ## The bits and the bytes of an LZW stream (30_encoding.md R105, R107; 42_lzw.md R197)

How the bit string of a code splits, how bits are cut into bytes, and how bytes are cut into sub-blocks. -/

namespace Sys2Proof.Functions

/-! ### The bits of a code -/

theorem codeBits_succ (c w : Nat) : codeBits c (w + 1) = c.testBit 0 :: codeBits (c / 2) w := by
  simp [codeBits, List.range_succ_eq_map, Nat.testBit_succ]

/-- Bits above the width do not count. -/
theorem codeBits_mod (c w : Nat) : codeBits (c % 2 ^ w) w = codeBits c w := by
  refine List.map_congr_left fun j hj => ?_
  rw [Nat.testBit_mod_two_pow, decide_eq_true (List.mem_range.1 hj), Bool.true_and]

/-- The low bits come before the high ones. -/
theorem codeBits_add (c m n : Nat) : codeBits c (m + n) = codeBits c m ++ codeBits (c / 2 ^ m) n := by
  rw [codeBits, List.range_add, List.map_append, List.map_map]
  refine congrArg _ (List.map_congr_left fun j _ => ?_)
  rw [Nat.testBit_div_two_pow, Nat.add_comm]
  rfl

/-- A code packed above `n` waiting bits gives those bits and then its own (R192). -/
theorem codeBits_or_shiftLeft {a n : Nat} (ha : a < 2 ^ n) (c w : Nat) :
    codeBits (a ||| c <<< n) (n + w) = codeBits a n ++ codeBits c w := by
  have hlow : (a ||| c <<< n) % 2 ^ n = a := by
    rw [Nat.or_mod_two_pow, Nat.mod_eq_of_lt ha, Nat.shiftLeft_eq, Nat.mul_mod_left, Nat.or_zero]
  have hhigh : (a ||| c <<< n) / 2 ^ n = c := by
    rw [Nat.or_div_two_pow, Nat.div_eq_of_lt ha, Nat.zero_or, Nat.shiftLeft_eq, Nat.mul_div_cancel _ (by positivity)]
  rw [codeBits_add, hhigh, ← codeBits_mod, hlow]

theorem bitsValue_codeBits (c w : Nat) : bitsValue (codeBits c w) = c % 2 ^ w := by
  induction w generalizing c with
  | zero => rw [pow_zero, Nat.mod_one]; rfl
  | succ w ih =>
    rw [codeBits_succ, bitsValue, ih, Nat.testBit_zero, Nat.pow_succ', Nat.mod_mul]
    rcases Nat.mod_two_eq_zero_or_one c with h | h <;> rw [h] <;> rfl

theorem codesBits_cons (c w : Nat) (cs : List (Nat × Nat)) : codesBits ((c, w) :: cs) = codeBits c w ++ codesBits cs :=
  List.flatMap_cons

/-! ### Bits cut into bytes -/

theorem packBits_byte (c : Nat) (bits : List Bool) :
    packBits (codeBits c 8 ++ bits) = BitVec.ofNat 8 c :: packBits bits := by
  have hcut : packBits (codeBits c 8 ++ bits) = BitVec.ofNat 8 (bitsValue (codeBits c 8)) :: packBits bits := rfl
  rw [hcut, bitsValue_codeBits]
  congr 1
  exact BitVec.eq_of_toNat_eq (by simp)

/-- Leftover bits make a final byte, with zeros above them (R107, R195). -/
theorem packBits_leftover {c w : Nat} (hpos : 0 < w) (hlt : w < 8) (hc : c < 2 ^ w) :
    packBits (codeBits c w) = [BitVec.ofNat 8 c] := by
  have hcut : packBits (codeBits c w) = [BitVec.ofNat 8 (bitsValue (codeBits c w))] := by interval_cases w <;> rfl
  rw [hcut, bitsValue_codeBits, Nat.mod_eq_of_lt hc]

/-! ### Bytes cut into sub-blocks -/

/-- More rounds than bytes change nothing. -/
theorem frameUpTo_of_length_le {m n : Nat} {bs : List Byte} (hm : bs.length ≤ m) (hn : bs.length ≤ n) :
    frameUpTo m bs = frameUpTo n bs := by
  induction m generalizing n bs with
  | zero =>
    obtain rfl : bs = [] := List.eq_nil_of_length_eq_zero (Nat.le_zero.1 hm)
    cases n <;> rfl
  | succ m ih =>
    cases bs with
    | nil => cases n <;> rfl
    | cons b bs =>
      obtain _ | n := n
      · exact absurd hn (Nat.not_succ_le_zero _)
      · have hdrop : ((b :: bs).drop Config.lzwBlockMax).length ≤ bs.length := by simp
        simp only [List.length_cons, Nat.succ_le_succ_iff] at hm hn
        rw [frameUpTo, frameUpTo, ih (hdrop.trans hm) (hdrop.trans hn)]
        all_goals exact List.cons_ne_nil b bs

/-- The first sub-block of a sequence that is not empty. -/
theorem frame_of_ne_nil {bs : List Byte} (hne : bs ≠ []) :
    frame bs = BitVec.ofNat 8 (bs.take Config.lzwBlockMax).length :: bs.take Config.lzwBlockMax
      ++ frame (bs.drop Config.lzwBlockMax) := by
  obtain ⟨b, cs, rfl⟩ := List.exists_cons_of_ne_nil hne
  have hdrop : ((b :: cs).drop Config.lzwBlockMax).length ≤ cs.length := by simp
  rw [frame, List.length_cons, frameUpTo, frameUpTo_of_length_le hdrop le_rfl, ← frame]
  exact hne

/-- 255 bytes make a sub-block of their own, whatever follows (R194). -/
theorem frame_full_append {bs : List Byte} (hfull : bs.length = Config.lzwBlockMax) (more : List Byte) :
    frame (bs ++ more) = 255#8 :: bs ++ frame more := by
  have hne : bs ++ more ≠ [] := by
    rintro e
    rw [List.append_eq_nil_iff.1 e |>.1] at hfull
    cases hfull
  rw [frame_of_ne_nil hne, ← hfull, List.take_left', List.drop_left', hfull]
  all_goals rfl

/-- The last sub-block holds what is left (R195). -/
theorem frame_last {bs : List Byte} (hne : bs ≠ []) (hle : bs.length ≤ Config.lzwBlockMax) :
    frame bs = BitVec.ofNat 8 bs.length :: bs := by
  rw [frame_of_ne_nil hne, List.take_of_length_le hle, List.drop_of_length_le hle, show frame [] = [] from rfl,
    List.append_nil]

end Sys2Proof.Functions
end

section
/-! ## The code sequence of LZW_COMPRESS (42_lzw.md R184 to R191, R198)

The codes still to come, with their widths, from registers that satisfy `CodesOk`; and that they depend on the table and the
registers that name codes only, not on the packer. -/

namespace Sys2Proof.Machine

open Functions

theorem lzwClear_eq (cb : BitVec 4) : lzwClear cb = 2 ^ cb.toNat := Nat.one_shiftLeft _

theorem lzwEnd_eq (cb : BitVec 4) : lzwEnd cb = 2 ^ cb.toNat + 1 := congrArg (· + 1) (lzwClear_eq cb)

section Codes

variable {limit : Nat} {cb : BitVec 4} {l : LzwRegs}

/-! ### One symbol -/

/-- A symbol that starts a match (R186). -/
theorem lzwCodesFrom_first (hv : l.prevv = false) (x : Byte) (xs : List Byte) :
    lzwCodesFrom limit cb l (x :: xs) = lzwCodesFrom limit cb { l with prev := x.setWidth 12, prevv := true } xs := by
  rw [lzwCodesFrom, if_neg (by simp [hv])]

/-- A symbol that extends the match (R187). -/
theorem lzwCodesFrom_found (hv : l.prevv = true) {x : Byte} {code : BitVec 12}
    (hlook : tabLookup l.tab l.prev x = some code) (xs : List Byte) :
    lzwCodesFrom limit cb l (x :: xs) = lzwCodesFrom limit cb { l with prev := code } xs := by
  rw [lzwCodesFrom, if_pos hv, hlook]

/-- The registers behind a pair not in the table: the pair inserted, the match starting again at the symbol (R188). -/
def LzwRegs.restarted (limit : Nat) (x : Byte) (l : LzwRegs) : LzwRegs :=
  { lzwInsert limit l.prev x l with prev := x.setWidth 12 }

/-- A symbol that ends the match (R188). -/
theorem lzwCodesFrom_missed (hv : l.prevv = true) {x : Byte} (hlook : tabLookup l.tab l.prev x = none) (xs : List Byte) :
    lzwCodesFrom limit cb l (x :: xs) = (l.prev.toNat, l.csize.toNat)
      :: lzwCodesFrom limit cb (l.restarted limit x) xs := by
  rw [lzwCodesFrom, if_pos hv, hlook]
  rfl

/-! ### The packer does not count -/

/-- The registers `l` with the packer of `p`. -/
def LzwRegs.withPacker (l p : LzwRegs) : LzwRegs := { l with acc := p.acc, nbits := p.nbits, blk := p.blk, blkn := p.blkn }

theorem PackerOnly.lzw_eq {s t : State} (h : PackerOnly s t) : t.work.lzw = s.work.lzw.withPacker t.work.lzw := by
  rw [PackerOnly] at h
  rw [h]
  rfl

theorem PackerOnly.cfg_eq {s t : State} (h : PackerOnly s t) : t.cfg = s.cfg := by
  rw [PackerOnly] at h
  rw [h]

theorem lzwInsert_withPacker (p : LzwRegs) (c : BitVec 12) (x : Byte) :
    lzwInsert limit c x (l.withPacker p) = (lzwInsert limit c x l).withPacker p := by
  by_cases hroom : l.next.toNat < limit
  · rw [lzwInsert_room hroom, lzwInsert_room (l := l.withPacker p) hroom]
    rfl
  · rw [lzwInsert_full (not_lt.1 hroom), lzwInsert_full (l := l.withPacker p) (not_lt.1 hroom)]

theorem restarted_withPacker (p : LzwRegs) (x : Byte) :
    (l.withPacker p).restarted limit x = (l.restarted limit x).withPacker p := by
  rw [LzwRegs.restarted, lzwInsert_withPacker]
  rfl

theorem lzwCodesFrom_withPacker (p : LzwRegs) (xs : List Byte) :
    lzwCodesFrom limit cb (l.withPacker p) xs = lzwCodesFrom limit cb l xs := by
  induction xs generalizing l with
  | nil => rfl
  | cons x xs ih =>
    cases hv : l.prevv with
    | false =>
      rw [lzwCodesFrom_first (l := l) hv, lzwCodesFrom_first (l := l.withPacker p) hv]
      exact ih (l := { l with prev := x.setWidth 12, prevv := true })
    | true =>
      cases hlook : tabLookup l.tab l.prev x with
      | some code =>
        rw [lzwCodesFrom_found (l := l) hv hlook, lzwCodesFrom_found (l := l.withPacker p) hv hlook]
        exact ih (l := { l with prev := code })
      | none =>
        rw [lzwCodesFrom_missed (l := l) hv hlook, lzwCodesFrom_missed (l := l.withPacker p) hv hlook,
          restarted_withPacker, ih]
        rfl

/-- Nor does what `PREV` held before the first symbol (R35, R181). -/
theorem lzwCodesFrom_start (m : LzwRegs) (xs : List Byte) :
    lzwCodesFrom limit cb (lzwStartRegs cb l) xs = lzwCodesFrom limit cb (lzwStartRegs cb m) xs := by
  cases xs with
  | nil => rfl
  | cons x xs =>
    rw [lzwCodesFrom_first rfl, lzwCodesFrom_first rfl]
    exact lzwCodesFrom_withPacker (l := { lzwStartRegs cb m with prev := x.setWidth 12, prevv := true })
      (lzwStartRegs cb l) xs

/-! ### Codes and widths -/

/-- The codes `cs` are data codes up to a final `ENDC`, each fits its width, and the widths rise from `w` to at most 12. -/
structure EndsCoding (cb : BitVec 4) (w : Nat) (cs : List (Nat × Nat)) : Prop where
  bracketed : ∃ data : List (Nat × Nat), cs.map Prod.fst = data.map Prod.fst ++ [lzwEnd cb] ∧
    ∀ d ∈ data, d.1 ≠ lzwClear cb ∧ d.1 ≠ lzwEnd cb
  fits : ∀ p ∈ cs, p.1 < 2 ^ p.2 ∧ w ≤ p.2 ∧ p.2 ≤ 12
  rising : (cs.map Prod.snd).Pairwise (· ≤ ·)

theorem endsCoding_end {w : Nat} (hfits : lzwEnd cb < 2 ^ w) (hw : w ≤ 12) : EndsCoding cb w [(lzwEnd cb, w)] where
  bracketed := ⟨[], rfl, by simp⟩
  fits := by simpa using ⟨hfits, hw⟩
  rising := List.pairwise_singleton _ _

/-- A data code in front, no wider than the codes behind it. -/
theorem EndsCoding.cons {c w v : Nat} {cs : List (Nat × Nat)} (h : EndsCoding cb v cs) (hwv : w ≤ v) (hfits : c < 2 ^ w)
    (hw : w ≤ 12) (hclear : c ≠ lzwClear cb) (hend : c ≠ lzwEnd cb) : EndsCoding cb w ((c, w) :: cs) := by
  obtain ⟨⟨data, hdata, hplain⟩, hcs, hrising⟩ := h
  constructor
  case bracketed =>
    exact ⟨(c, w) :: data, congrArg (c :: ·) hdata, List.forall_mem_cons.2 ⟨⟨hclear, hend⟩, hplain⟩⟩
  case fits =>
    refine List.forall_mem_cons.2 ⟨⟨hfits, le_rfl, hw⟩, fun p hp => ?_⟩
    obtain ⟨hlt, hlow, hhigh⟩ := hcs p hp
    exact ⟨hlt, hwv.trans hlow, hhigh⟩
  case rising =>
    refine List.pairwise_cons.2 ⟨fun v' hv' => ?_, hrising⟩
    obtain ⟨p, hp, rfl⟩ := List.mem_map.1 hv'
    exact hwv.trans (hcs p hp).2.1

/-- The pending code is a data code that fits the current width (R44). -/
theorem CodesOk.cons_prev (h : CodesOk limit cb l) (hv : l.prevv = true) {v : Nat} {cs : List (Nat × Nat)}
    (hcs : EndsCoding cb v cs) (hwv : l.csize.toNat ≤ v) :
    EndsCoding cb l.csize.toNat ((l.prev.toNat, l.csize.toNat) :: cs) := by
  obtain ⟨-, hclear, hend⟩ := h.prevRange hv
  exact hcs.cons hwv (h.prev_lt_width hv) h.widthRange.2 hclear hend

/-- An insertion never makes the width smaller (R190). -/
theorem CodesOk.csize_le_insert (h : CodesOk limit cb l) (c : BitVec 12) (x : Byte) :
    l.csize.toNat ≤ (lzwInsert limit c x l).csize.toNat := by
  have hgrow : (l.csize + 1#4).toNat = l.csize.toNat + 1 :=
    BitVec.toNat_add_of_lt (by have hw := h.widthRange.2; rw [BitVec.toNat_ofNat]; omega)
  by_cases hroom : l.next.toNat < limit
  · rw [lzwInsert_room hroom]
    dsimp only
    split
    · rw [hgrow]; exact Nat.le_succ _
    · exact le_rfl
  · rw [lzwInsert_full (not_lt.1 hroom)]

/-- A pair that is no key is inserted and the match starts again at the symbol (R188). -/
theorem CodesOk.restart (h : CodesOk limit cb l) (hlimit : limit ≤ 4096) (hv : l.prevv = true) {x : Byte}
    (hx : x.toNat < lzwClear cb) (hlook : tabLookup l.tab l.prev x = none) :
    CodesOk limit cb (l.restarted limit x) := by
  have hstart := (h.insert hlimit hlook).start_prev hx
  simpa [LzwRegs.restarted, hv] using hstart

theorem CodesOk.lzwCodesFrom_endsCoding (h : CodesOk limit cb l) (hlimit : limit ≤ 4096) {xs : List Byte}
    (hxs : ∀ x ∈ xs, x.toNat < lzwClear cb) : EndsCoding cb l.csize.toNat (lzwCodesFrom limit cb l xs) := by
  induction xs generalizing l with
  | nil =>
    have hend := endsCoding_end h.end_lt_width h.widthRange.2
    rw [lzwCodesFrom]
    split
    case isTrue hv => exact h.cons_prev hv hend le_rfl
    case isFalse => exact hend
  | cons x xs ih =>
    obtain ⟨hx, hxs⟩ := List.forall_mem_cons.1 hxs
    cases hv : l.prevv with
    | false =>
      rw [lzwCodesFrom_first hv]
      exact ih (h.start_prev hx) hxs
    | true =>
      cases hlook : tabLookup l.tab l.prev x with
      | some code =>
        rw [lzwCodesFrom_found hv hlook]
        exact ih (h.follow_prev hlook) hxs
      | none =>
        rw [lzwCodesFrom_missed hv hlook]
        exact h.cons_prev hv (ih (h.restart hlimit hv hx hlook) hxs) (h.csize_le_insert l.prev x)

theorem lzwStartRegs_csize (hcb : cb.toNat ≤ 8) (l : LzwRegs) : (lzwStartRegs cb l).csize.toNat = cb.toNat + 1 :=
  BitVec.toNat_add_of_lt (by rw [BitVec.toNat_ofNat]; omega)

/-- Settles O41: the start registers satisfy `CodesOk`, and `CLEAR` stands in front. -/
theorem lzwCodeSequenceIsBracketedAndFitsWidths : Obligations.LzwCodeSequenceIsBracketedAndFitsWidths := by
  intro limit cb syms hlimit hlow hhigh hsyms
  have hcodes : CodesOk limit cb (lzwStartRegs cb default) := lzwStart_codesOk ⟨hlow, hhigh⟩ (by omega) _
  rw [← lzwClear_eq] at hsyms ⊢
  obtain ⟨⟨data, hdata, hplain⟩, hfits, hrising⟩ := hcodes.lzwCodesFrom_endsCoding (by omega) hsyms
  rw [lzwStartRegs_csize hhigh] at hfits
  refine ⟨data, congrArg (lzwClear cb :: ·) hdata, hplain, ?_, ?_⟩
  · refine List.forall_mem_cons.2 ⟨⟨?_, le_rfl, Nat.add_le_add_right (hhigh.trans (by norm_num)) 1⟩, hfits⟩
    rw [lzwClear_eq]
    exact Nat.pow_lt_pow_succ (by norm_num)
  · refine List.pairwise_cons.2 ⟨fun w hw => ?_, hrising⟩
    obtain ⟨p, hp, rfl⟩ := List.mem_map.1 hw
    exact (hfits p hp).2.1

end Codes

end Sys2Proof.Machine
end

section
/-! ## The bits of a code on their way through the packer (42_lzw.md R192 to R194)

A code's bits go behind those that wait; whole bytes are staged; 255 staged bytes become a sub-block. -/

namespace Sys2Proof.Machine

open Functions

section Packer

variable {s t u : State}

/-! ### The accumulator -/

theorem State.packed_nbits (hbits : s.work.lzw.nbits.toNat ≤ 7) (hw : s.work.lzw.csize.toNat ≤ 12) (c : BitVec 12) :
    (s.packed c).work.lzw.nbits.toNat = s.work.lzw.nbits.toNat + s.work.lzw.csize.toNat := by
  simp only [State.packed, State.setLzw_work, BitVec.toNat_add, BitVec.toNat_setWidth]
  omega

/-- The bits of a code go behind those that wait (R192). -/
theorem pendingBits_packed (hp : PackerOk s.work.lzw) (hw : s.work.lzw.csize.toNat ≤ 12) {c : BitVec 12}
    (hc : c.toNat < 2 ^ s.work.lzw.csize.toNat) :
    pendingBits (s.packed c) = pendingBits s ++ codeBits c.toNat s.work.lzw.csize.toNat := by
  obtain ⟨hbits, hacc, -⟩ := hp
  have hroom : c.toNat <<< s.work.lzw.nbits.toNat < 2 ^ 19 := by
    rw [Nat.shiftLeft_eq]
    calc c.toNat * 2 ^ s.work.lzw.nbits.toNat < 2 ^ s.work.lzw.csize.toNat * 2 ^ s.work.lzw.nbits.toNat :=
          Nat.mul_lt_mul_of_pos_right hc (by positivity)
      _ ≤ 2 ^ 19 := by rw [← Nat.pow_add]; exact Nat.pow_le_pow_right (by norm_num) (by omega)
  have hpacked : (s.packed c).work.lzw.acc.toNat = s.work.lzw.acc.toNat ||| c.toNat <<< s.work.lzw.nbits.toNat := by
    have hwide : c.toNat % 2 ^ 19 = c.toNat := Nat.mod_eq_of_lt (c.isLt.trans (by norm_num))
    simp only [State.packed, State.setLzw_work, BitVec.toNat_or, BitVec.toNat_shiftLeft, BitVec.toNat_setWidth, hwide,
      Nat.mod_eq_of_lt hroom]
  rw [pendingBits, pendingBits, hpacked, State.packed_nbits hbits hw, codeBits_or_shiftLeft hacc]

/-- The byte that leaves the accumulator next (R192). -/
def State.lowByte (s : State) : Byte := s.work.lzw.acc.extractLsb' 0 8

theorem State.lowByte_eq (s : State) : s.lowByte = BitVec.ofNat 8 s.work.lzw.acc.toNat := rfl

/-- A byte leaves the accumulator at its low end. -/
theorem pendingBits_drained (h : 8 ≤ s.work.lzw.nbits.toNat) :
    pendingBits s = codeBits s.lowByte.toNat 8 ++ pendingBits s.drained := by
  have hacc : s.drained.work.lzw.acc.toNat = s.work.lzw.acc.toNat / 2 ^ 8 := by
    simp only [State.drained, State.setLzw_work, BitVec.toNat_ushiftRight, Nat.shiftRight_eq_div_pow]
  rw [pendingBits, pendingBits, hacc, State.drained_nbits h, State.lowByte_eq, BitVec.toNat_ofNat, codeBits_mod,
    ← codeBits_add, Nat.add_sub_cancel' h]

/-- The accumulator is drained alike from states that agree on it. -/
theorem pendingBits_drained_congr (hacc : t.work.lzw.acc = s.work.lzw.acc) (hbits : t.work.lzw.nbits = s.work.lzw.nbits) :
    pendingBits t.drained = pendingBits s.drained := by
  simp only [pendingBits, State.drained, State.setLzw_work, hacc, hbits]

/-! ### The staging buffer -/

/-- `t` has the bytes `bs` staged behind those of `s`; the first 255 staged bytes, once they are there, stand in OUT as a
sub-block instead (R193, R194). -/
structure StagesBytes (s : State) (bs : List Byte) (t : State) : Prop where
  waiting : s.work.lzw.blkn.toNat + bs.length < 255 →
    stagedBytes t = stagedBytes s ++ bs ∧ t.outMem = s.outMem ∧ t.outLen = s.outLen
  written : 255 ≤ s.work.lzw.blkn.toNat + bs.length →
    stagedBytes t = (stagedBytes s ++ bs).drop 255 ∧
      t.outMem = (s.appended (255#8 :: (stagedBytes s ++ bs).take 255)).outMem ∧ t.outLen = s.outLen + 256#32

/-- No byte staged. -/
theorem StagesBytes.nil (hblk : s.work.lzw.blkn.toNat ≤ 254) : StagesBytes s [] s :=
  ⟨fun _ => ⟨(List.append_nil _).symm, rfl, rfl⟩, fun hfull => by rw [List.length_nil] at hfull; omega⟩

/-- How many bytes are staged behind them. -/
theorem StagesBytes.blkn {bs : List Byte} (h : StagesBytes s bs t) :
    t.work.lzw.blkn.toNat = if s.work.lzw.blkn.toNat + bs.length < 255 then s.work.lzw.blkn.toNat + bs.length
      else s.work.lzw.blkn.toNat + bs.length - 255 := by
  rw [← stagedBytes_length t, ← stagedBytes_length s]
  split
  case isTrue hlt => rw [(h.waiting (by rwa [stagedBytes_length] at hlt)).1, List.length_append]
  case isFalse hge =>
    rw [(h.written (by rw [stagedBytes_length] at hge; exact not_lt.1 hge)).1, List.length_drop, List.length_append]

/-- Staging one byte and then fewer than 255 fills the buffer at most once. -/
theorem StagesBytes.cons {v : Byte} {bs : List Byte} (h : StagesBytes s [v] u) (k : StagesBytes u bs t)
    (hblk : s.work.lzw.blkn.toNat ≤ 254) (hshort : bs.length < 255) : StagesBytes s (v :: bs) t := by
  have hcount := h.blkn
  rw [List.length_singleton] at hcount
  obtain ⟨hwaiting, hwritten⟩ := h
  obtain ⟨kwaiting, kwritten⟩ := k
  rw [List.length_singleton] at hwaiting hwritten
  have hassoc : stagedBytes s ++ v :: bs = (stagedBytes s ++ [v]) ++ bs := (List.append_assoc _ [v] bs).symm
  by_cases hfull : s.work.lzw.blkn.toNat = 254
  case pos =>
    have hblock : (stagedBytes s ++ [v]).length = 255 := by rw [List.length_append, stagedBytes_length, hfull]; rfl
    obtain ⟨hstaged, hmem, hout⟩ := hwritten (by omega)
    rw [List.drop_of_length_le hblock.le] at hstaged
    rw [List.take_of_length_le hblock.le] at hmem
    obtain ⟨hstaged', hmem', hout'⟩ := kwaiting (by rw [hcount, if_neg (by omega)]; omega)
    refine ⟨fun hlt => by rw [List.length_cons] at hlt; omega, fun _ => ⟨?_, ?_, hout'.trans hout⟩⟩
    · rw [hassoc, List.drop_left' hblock, hstaged', hstaged, List.nil_append]
    · rw [hassoc, List.take_left' hblock, hmem', hmem]
  case neg =>
    obtain ⟨hstaged, hmem, hout⟩ := hwaiting (by omega)
    rw [if_pos (by omega)] at hcount
    have hsum : u.work.lzw.blkn.toNat + bs.length = s.work.lzw.blkn.toNat + (v :: bs).length := by
      rw [hcount, List.length_cons, Nat.add_assoc, Nat.add_comm 1]
    rw [hsum, hstaged, ← hassoc, hmem, hout] at kwaiting
    rw [hsum, hstaged, ← hassoc, State.appended_outMem, hmem, hout] at kwritten
    exact ⟨kwaiting, kwritten⟩

/-- A byte is staged when there is room in OUT for the sub-block it may fill. -/
theorem putByte_stages (v : Byte) (hblk : s.work.lzw.blkn.toNat ≤ 254)
    (hroom : s.work.lzw.blkn.toNat = 254 → s.outLen.toNat + 256 ≤ s.cfg.outCap.toNat) :
    ∃ t, putByte v s = .ok t ∧ StagesBytes s [v] t := by
  have hstaged := stagedBytes_staged v hblk
  rcases putByte_cases v hblk with ⟨hlt, e⟩ | ⟨hfull, e⟩
  · refine ⟨_, e, fun _ => ⟨hstaged, rfl, rfl⟩, fun hge => ?_⟩
    rw [List.length_singleton] at hge
    omega
  · have hroom := hroom hfull
    have hcount : (s.staged v).work.lzw.blkn = 255#8 := by
      rw [State.staged, State.setLzw_work, show s.work.lzw.blkn = 254#8 from BitVec.eq_of_toNat_eq hfull]
      rfl
    have hblock : (stagedBytes s ++ [v]).length = 255 := by rw [List.length_append, stagedBytes_length, hfull]; rfl
    rcases flushBlock_cases (s := s.staged v) (show s.outLen.toNat ≤ s.cfg.outCap.toNat by omega) with
      ⟨-, e'⟩ | ⟨hover, -⟩
    · rw [e', hcount, hstaged] at e
      refine ⟨_, e, fun hlt => by rw [hfull] at hlt; simp at hlt, fun _ => ⟨?_, ?_, ?_⟩⟩
      · rw [← hblock, List.drop_length]
        rfl
      · rw [← hblock, List.take_length]
        rfl
      · rw [State.setLzw_outLen, State.appended_outLen, List.length_cons, hblock]
        rfl
    · rw [hcount] at hover
      change s.cfg.outCap.toNat < s.outLen.toNat + (1 + 255) at hover
      omega

/-! ### Whole bytes -/

/-- Enough rounds move all whole bytes from the accumulator to the buffer, in order. -/
theorem drainAcc_stages {fuel : Nat} (hle : s.outLen.toNat ≤ s.cfg.outCap.toNat) (hblk : s.work.lzw.blkn.toNat ≤ 254)
    (hbits : s.work.lzw.nbits.toNat < 8 * (fuel + 1))
    (hroom : 255 ≤ s.work.lzw.blkn.toNat + s.work.lzw.nbits.toNat / 8 → s.outLen.toNat + 256 ≤ s.cfg.outCap.toNat) :
    ∃ (t : State) (bs : List Byte), drainAcc fuel s = .ok t ∧ bs.length = s.work.lzw.nbits.toNat / 8 ∧
      pendingBits s = codesBits (bs.map fun b => (b.toNat, 8)) ++ pendingBits t ∧ t.work.lzw.nbits.toNat ≤ 7 ∧
      StagesBytes s bs t := by
  induction fuel generalizing s with
  | zero => exact ⟨s, [], rfl, by rw [List.length_nil]; omega, rfl, by omega, .nil hblk⟩
  | succ fuel ih =>
    rw [drainAcc_succ]
    split
    case isFalse hlt => exact ⟨s, [], rfl, by rw [List.length_nil]; omega, rfl, by omega, .nil hblk⟩
    case isTrue hge =>
      obtain ⟨u, hput, hfirst⟩ := putByte_stages s.lowByte hblk fun hfull => hroom (by omega)
      obtain ⟨happ, hblk', hacc, hnbits⟩ := putByte_ok hle hblk hput
      have hdrained : u.drained.work.lzw.nbits.toNat = s.work.lzw.nbits.toNat - 8 := by
        rw [State.drained_nbits (by rwa [hnbits]), hnbits]
      have hcount : u.drained.work.lzw.blkn.toNat = _ := hfirst.blkn
      have hwide := s.work.lzw.nbits.isLt
      rw [List.length_singleton] at hcount
      obtain ⟨t, bs, hrest, hlen, hbits', hleft, hstages⟩ :=
        ih (s := u.drained) happ.fits hblk' (by omega) fun hfull => by
          split at hcount
          case isTrue hlt =>
            obtain ⟨-, -, hout⟩ := hfirst.waiting hlt
            have := hroom (by omega)
            change u.outLen.toNat + 256 ≤ u.cfg.outCap.toNat
            rwa [hout, happ.cfg_eq]
          case isFalse => omega
      refine ⟨t, s.lowByte :: bs, ?_, ?_, ?_, hleft, hfirst.cons ⟨hstages.waiting, hstages.written⟩ hblk (by omega)⟩
      · change (putByte s.lowByte s).bind _ = _
        rw [hput]
        exact hrest
      · rw [List.length_cons, hlen]
        omega
      · rw [pendingBits_drained hge, ← pendingBits_drained_congr hacc hnbits, hbits', List.map_cons, codesBits_cons,
          List.append_assoc]

/-- Settles O40: the code is packed behind the pending bits, then drained. -/
theorem emitCodePacksBitsInOrder : Obligations.EmitCodePacksBitsInOrder := by
  intro c s hok hroom hc
  obtain ⟨hcodes, hpack⟩ := (lzwOk_iff s).1 hok
  have hw := hcodes.widthRange.2
  have hsum := State.packed_nbits hpack.bitsRange hw c
  have hbits := hpack.bitsRange
  obtain ⟨t, bs, hemit, -, hbytes, hleft, hstages⟩ :=
    drainAcc_stages (fuel := 4) (s := s.packed c) (show s.outLen.toNat ≤ s.cfg.outCap.toNat by omega) hpack.blockRange
      (by omega) fun _ => hroom
  rw [pendingBits_packed hpack hw hc] at hbytes
  exact ⟨t, bs, hemit, hbytes, hleft, hstages.waiting, hstages.written, PackerOnly.of_emitCode hemit⟩

end Packer

end Sys2Proof.Machine
end

section
/-! ## The symbol step (42_lzw.md R184 to R191) -/

namespace Sys2Proof.Machine

section SymbolStep

variable {s u : State}

/-- An LZW operation in progress that the host leaves to itself. -/
structure LzwRunning (s : State) : Prop where
  busy : s.busy = true
  alone : s.host = []
  unraced : s.inRaced = false
  opcode : s.lat.opl = 1#4

theorem LzwRunning.step_eq (h : LzwRunning s) : step s = .next (settle s (lzwStep s)) := by
  simp [step_of_no_host h.alone, engineTurn, h.busy, h.unraced, opStep, h.opcode]

/-- While symbols are left, a step reads one and looks whether it is below `CLEAR` (R184, R185). -/
theorem lzwStep_symbol (hstarted : s.outLen ≠ 0#32) (hmore : s.inPos.toNat < s.lat.len.toNat) :
    lzwStep s = if lzwClear s.lat.cb ≤ (inByte s s.inPos.toNat).toNat then .error ⟨.symbolError, s.inPos⟩
      else lzwSymbol (inByte s s.inPos.toNat) (s.advanced 1) := by
  have hback : (s.advanced 1).inPos - 1#32 = s.inPos := BitVec.add_sub_cancel _ _
  rw [lzwStep, if_neg hstarted, if_pos hmore, lzwSymbolStep, next_ok hmore]
  simp only [Except.bind, hback]
  rfl

/-- The step at a symbol below `CLEAR`. -/
theorem LzwRunning.step_symbol (h : LzwRunning s) (hstarted : s.outLen ≠ 0#32)
    (hmore : s.inPos.toNat < s.lat.len.toNat) (hx : (inByte s s.inPos.toNat).toNat < lzwClear s.lat.cb) :
    step s = .next (settle s (lzwSymbol (inByte s s.inPos.toNat) (s.advanced 1))) := by
  rw [h.step_eq, lzwStep_symbol hstarted hmore, if_neg (not_le.2 hx)]

/-- A symbol that starts a match (R186). -/
theorem lzwSymbol_first (hv : s.work.lzw.prevv = false) (x : Byte) :
    lzwSymbol x s = .ok (s.setLzw { s.work.lzw with prev := x.setWidth 12, prevv := true }) := by
  rw [lzwSymbol]
  exact if_neg (by simp [hv])

/-- A symbol that extends the match (R187). -/
theorem lzwSymbol_found (hv : s.work.lzw.prevv = true) {x : Byte} {code : BitVec 12}
    (hlook : tabLookup s.work.lzw.tab s.work.lzw.prev x = some code) :
    lzwSymbol x s = .ok (s.setLzw { s.work.lzw with prev := code }) := by
  simp only [lzwSymbol, if_pos hv, hlook]

/-- A symbol that ends the match: the code is emitted first (R188). -/
theorem lzwSymbol_missed (hv : s.work.lzw.prevv = true) {x : Byte}
    (hlook : tabLookup s.work.lzw.tab s.work.lzw.prev x = none) :
    lzwSymbol x s =
      (emitCode s.work.lzw.prev s).map fun t => t.setLzw (t.work.lzw.restarted t.cfg.lzwLimit x) := by
  simp only [lzwSymbol, if_pos hv, hlook]
  cases hemit : emitCode s.work.lzw.prev s with
  | error f => rfl
  | ok t =>
    have hprev : t.work.lzw.prev = s.work.lzw.prev := by rw [(PackerOnly.of_emitCode hemit).lzw_eq]; rfl
    simp only [Except.map, LzwRegs.restarted, hprev]

/-- Settles O37: the cursor has moved past the symbol, so the address recorded is one below it. -/
theorem lzwSymbolOutOfRangeFaults : Obligations.LzwSymbolOutOfRangeFaults := by
  intro s hhost hb hr hopl hstarted hmore hx
  have hrun : LzwRunning s := ⟨hb, hhost, hr, hopl⟩
  rw [← lzwClear_eq] at hx
  rw [hrun.step_eq, lzwStep_symbol hstarted hmore, if_pos hx]
  rfl

/-- Settles O38: keys of the table are unique, so an entry is what the lookup finds. -/
theorem lzwMatchGrowsSilently : Obligations.LzwMatchGrowsSilently := by
  intro s hhost hb hr hopl hstarted hmore hx
  rw [← lzwClear_eq] at hx
  have hstep := LzwRunning.step_symbol ⟨hb, hhost, hr, hopl⟩ hstarted hmore hx
  refine ⟨fun hv => ?_, fun hv e he hcode hsym hok => ?_⟩
  · rw [hstep, lzwSymbol_first (s := s.advanced 1) hv]
    rfl
  · have hlook := tabLookup_of_mem hok.tabKeys he
    rw [hcode, hsym] at hlook
    rw [hstep, lzwSymbol_found (s := s.advanced 1) hv hlook]
    rfl

/-- Settles O39: the code is emitted by `emitCode`, which leaves the table and the widths to `insert`. -/
theorem lzwMissEmitsThenInserts : Obligations.LzwMissEmitsThenInserts := by
  intro s u hhost hb hr hopl hstarted hmore hx hv hnew hemit
  rw [← lzwClear_eq] at hx
  have hstep := LzwRunning.step_symbol ⟨hb, hhost, hr, hopl⟩ hstarted hmore hx
  rw [lzwSymbol_missed (s := s.advanced 1) hv (tabLookup_none.2 hnew)] at hstep
  change emitCode (s.advanced 1).work.lzw.prev (s.advanced 1) = .ok u at hemit
  rw [hemit] at hstep
  have honly := PackerOnly.of_emitCode hemit
  have hcfg : u.cfg = s.cfg := honly.cfg_eq
  have hregs : u.work.lzw = s.work.lzw.withPacker u.work.lzw := honly.lzw_eq
  refine ⟨u.work.lzw.restarted u.cfg.lzwLimit (inByte s s.inPos.toNat), hstep, rfl, ?_, ?_, ?_, ?_, ?_, ?_, ?_⟩
  · rw [LzwRegs.restarted, lzwInsert_prevv, hregs]
    exact hv
  all_goals rw [LzwRegs.restarted, hcfg]
  · exact lzwInsert_acc _ _ _ _
  · exact lzwInsert_nbits _ _ _ _
  · exact lzwInsert_blk _ _ _ _
  · exact lzwInsert_blkn _ _ _ _
  · intro hroom
    rw [lzwInsert_room (by rw [hregs]; exact hroom), hregs]
    exact ⟨rfl, rfl, fun hgrow => if_pos hgrow, fun hkeep => if_neg (not_lt.2 hkeep)⟩
  · intro hfull
    rw [lzwInsert_full (by rw [hregs]; exact hfull), hregs]
    exact ⟨rfl, rfl, rfl⟩

end SymbolStep

end Sys2Proof.Machine
end

section
/-! ## The whole of LZW_COMPRESS (42_lzw.md R183 to R197)

The bytes still to be written are known at every point of the operation: the staged ones, the waiting bits and the codes to
come, packed and framed. Every part of a step writes the first of them, or raises `OutFull` when they do not all fit; the
parts are put together to the steps, and the steps to the operation. -/

namespace Sys2Proof.Machine

open Functions

/-! ### Parts of a step that write the bytes to come -/

/-- `t` is `s` with the bytes `bs` appended to OUT, which has room for them, and other working registers. -/
structure Outputs (s : State) (bs : List Byte) (t : State) : Prop where
  fits : s.outLen.toNat + bs.length ≤ s.cfg.outCap.toNat
  eq : t = s.wrote bs s.allt t.work

/-- The result of a part of a step from `s`, where the bytes `whole` are to come: the first of them written and those of
`rest` still to come, or `OutFull` because they do not all fit (R66, R286). -/
inductive Delivers (s : State) (whole : List Byte) (rest : State → List Byte) : Res State → Prop
  | ok {t : State} {bs : List Byte} (out : Outputs s bs t) (split : whole = bs ++ rest t) : Delivers s whole rest (.ok t)
  | full (h : s.cfg.outCap.toNat < s.outLen.toNat + whole.length) :
      Delivers s whole rest (.error ⟨.outFull, s.cfg.outCap⟩)

section Delivering

variable {s t u : State} {bs cs whole : List Byte} {mid rest : State → List Byte} {x : Res State}

theorem Outputs.cfg_eq (h : Outputs s bs t) : t.cfg = s.cfg := by rw [h.eq]; rfl

theorem Outputs.lat_eq (h : Outputs s bs t) : t.lat = s.lat := by rw [h.eq]; rfl
theorem Outputs.allt_eq (h : Outputs s bs t) : t.allt = s.allt := by rw [h.eq]; rfl
theorem Outputs.inPos_eq (h : Outputs s bs t) : t.inPos = s.inPos := by rw [h.eq]; rfl

theorem Outputs.outLen_eq (h : Outputs s bs t) : t.outLen.toNat = s.outLen.toNat + bs.length := by
  rw [h.eq]
  exact State.wrote_outLen_toNat h.fits

theorem Outputs.outLen_ne_zero (h : Outputs s bs t) (hne : s.outLen ≠ 0#32) : t.outLen ≠ 0#32 := by
  intro e
  have hlen := h.outLen_eq
  rw [e] at hlen
  exact hne (BitVec.eq_of_toNat_eq (Nat.eq_zero_of_add_eq_zero_right hlen.symm))

theorem Outputs.refl (hle : s.outLen.toNat ≤ s.cfg.outCap.toNat) : Outputs s [] s :=
  ⟨hle, by rw [State.wrote, State.appended_nil]⟩

theorem Outputs.setLzw (h : Outputs s bs t) (l : LzwRegs) : Outputs s bs (t.setLzw l) := by
  refine ⟨h.fits, ?_⟩
  rw [h.eq]
  rfl

/-- The working registers at the beginning do not count. -/
theorem Outputs.of_setLzw {l : LzwRegs} (h : Outputs (s.setLzw l) bs t) : Outputs s bs t := ⟨h.fits, h.eq⟩

theorem Outputs.trans (h : Outputs s bs t) (k : Outputs t cs u) : Outputs s (bs ++ cs) u := by
  have hcap := s.cfg.outCap.isLt
  have hfits := k.fits
  rw [h.cfg_eq, h.outLen_eq] at hfits
  refine ⟨by rw [List.length_append]; omega, ?_⟩
  rw [State.wrote, ← State.appended_append s bs cs (by omega)]
  have heq := k.eq
  rw [h.eq] at heq
  exact heq

theorem Delivers.unchanged (hle : s.outLen.toNat ≤ s.cfg.outCap.toNat) : Delivers s (rest s) rest (.ok s) :=
  .ok (.refl hle) rfl

theorem Delivers.of_setLzw {l : LzwRegs} (h : Delivers (s.setLzw l) whole rest x) : Delivers s whole rest x := by
  cases h with
  | ok out split => exact .ok out.of_setLzw split
  | full h => exact .full h

/-- The next part starts where this one ends. -/
theorem Delivers.bind {f : State → Res State} (h : Delivers s whole mid x)
    (hf : ∀ t, x = .ok t → t.outLen.toNat ≤ t.cfg.outCap.toNat → Delivers t (mid t) rest (f t)) :
    Delivers s whole rest (x.bind f) := by
  cases h with
  | full h => exact .full h
  | @ok t bs out split =>
    have hnext := hf t rfl (by rw [out.outLen_eq, out.cfg_eq]; exact out.fits)
    change Delivers s whole rest (f t)
    generalize f t = y at hnext
    cases hnext with
    | ok out' split' => exact .ok (out.trans out') (by rw [split, split', List.append_assoc])
    | full hover =>
      rw [out.cfg_eq] at hover ⊢
      refine .full ?_
      rw [out.outLen_eq] at hover
      rw [split, List.length_append]
      omega

/-- Working registers changed behind a part. -/
theorem Delivers.map_setLzw {g : State → LzwRegs} (h : Delivers s whole mid x)
    (hg : ∀ t, x = .ok t → mid t = rest (t.setLzw (g t))) : Delivers s whole rest (x.map fun t => t.setLzw (g t)) := by
  cases h with
  | full h => exact .full h
  | @ok t bs out split => exact .ok (out.setLzw _) (by rw [split, hg t rfl])

/-- The same bytes to come, said otherwise. -/
theorem Delivers.congr (h : Delivers s whole mid x) (hrest : ∀ t, x = .ok t → mid t = rest t) :
    Delivers s whole rest x := by
  cases h with
  | full h => exact .full h
  | @ok t bs out split => exact .ok out (by rw [split, hrest t rfl])

theorem Delivers.outputs (h : Delivers s whole rest (.ok t)) : ∃ bs, Outputs s bs t := by
  cases h with
  | ok out split => exact ⟨_, out⟩

theorem emit_work {v : Byte} (h : emit v s = .ok t) : t.work = s.work := by
  rw [emit] at h
  split at h
  · cases h
  · cases h; rfl

/-- A byte written straight to OUT (R66). -/
theorem emit_delivers (hle : s.outLen.toNat ≤ s.cfg.outCap.toNat) (v : Byte) :
    Delivers s (v :: rest (s.appended [v])) rest (emit v s) := by
  by_cases hroom : s.outLen.toNat < s.cfg.outCap.toNat
  · rw [emit_fits hroom]
    exact .ok (bs := [v]) ⟨hroom, rfl⟩ rfl
  · have hcap : s.outLen = s.cfg.outCap := BitVec.eq_of_toNat_eq (by omega)
    rw [emit_full (not_lt.1 hroom), hcap]
    exact .full (by rw [List.length_cons]; omega)

/-! ### The packer -/

/-- The bytes to come when the bits to come are `bits`: the staged bytes, and behind them the waiting bits and `bits`. -/
def packerToCome (bits : List Bool) (s : State) : List Byte :=
  frame (stagedBytes s ++ packBits (pendingBits s ++ bits))

/-- A full or last buffer leaves for OUT (R194). -/
theorem flushBlock_delivers (hle : s.outLen.toNat ≤ s.cfg.outCap.toNat) (more : List Byte) :
    Delivers s (s.work.lzw.blkn :: stagedBytes s ++ frame more) (fun t => frame (stagedBytes t ++ more)) (flushBlock s) := by
  rcases flushBlock_cases hle with ⟨hfit, e⟩ | ⟨hfull, e⟩ <;> rw [e]
  · refine .ok (bs := s.work.lzw.blkn :: stagedBytes s) (.setLzw ⟨?_, rfl⟩ _) rfl
    rwa [List.length_cons, stagedBytes_length, Nat.add_comm _ 1]
  · refine .full ?_
    rw [List.length_append, List.length_cons, stagedBytes_length]
    omega

/-- A packed byte (R193). -/
theorem putByte_delivers (hle : s.outLen.toNat ≤ s.cfg.outCap.toNat) (hblk : s.work.lzw.blkn.toNat ≤ 254) (v : Byte)
    (more : List Byte) :
    Delivers s (frame (stagedBytes s ++ v :: more)) (fun t => frame (stagedBytes t ++ more)) (putByte v s) := by
  have hstaged := stagedBytes_staged v hblk
  have hassoc : stagedBytes s ++ v :: more = stagedBytes (s.staged v) ++ more := by
    rw [hstaged, List.append_assoc, List.singleton_append]
  rw [hassoc]
  rcases putByte_cases v hblk with ⟨-, e⟩ | ⟨hfull, e⟩ <;> rw [e]
  · exact .ok ((Outputs.refl hle).setLzw _) rfl
  · have hblock : (stagedBytes (s.staged v)).length = 255 := by
      rw [hstaged, List.length_append, stagedBytes_length, hfull, List.length_singleton]
    have hcount : (s.staged v).work.lzw.blkn = 255#8 :=
      BitVec.eq_of_toNat_eq (by rw [← stagedBytes_length, hblock]; rfl)
    rw [frame_full_append hblock, ← hcount]
    exact (flushBlock_delivers (s := s.staged v) hle more).of_setLzw

theorem drainAcc_delivers (fuel : Nat) (hle : s.outLen.toNat ≤ s.cfg.outCap.toNat) (hblk : s.work.lzw.blkn.toNat ≤ 254)
    (bits : List Bool) : Delivers s (packerToCome bits s) (packerToCome bits) (drainAcc fuel s) := by
  induction fuel generalizing s with
  | zero => exact .unchanged hle
  | succ fuel ih =>
    rw [drainAcc_succ]
    split
    case isFalse => exact .unchanged hle
    case isTrue hge =>
      rw [packerToCome, pendingBits_drained hge, List.append_assoc, packBits_byte, BitVec.ofNat_toNat, BitVec.setWidth_eq]
      refine (putByte_delivers hle hblk s.lowByte _).bind fun t hput hle' => ?_
      obtain ⟨-, hblk', hacc, hnbits⟩ := putByte_ok hle hblk hput
      rw [← pendingBits_drained_congr hacc hnbits]
      exact (ih (s := t.drained) hle' hblk').of_setLzw

/-- The code to be emitted is the first of those to come (R192). -/
theorem emitCode_delivers (hle : s.outLen.toNat ≤ s.cfg.outCap.toNat) (hp : PackerOk s.work.lzw)
    (hw : s.work.lzw.csize.toNat ≤ 12) {c : BitVec 12} {k : Nat} (hk : c.toNat = k) (hc : k < 2 ^ s.work.lzw.csize.toNat)
    (bits : List Bool) :
    Delivers s (packerToCome (codeBits k s.work.lzw.csize.toNat ++ bits) s) (packerToCome bits) (emitCode c s) := by
  subst hk
  rw [packerToCome, ← List.append_assoc, ← pendingBits_packed hp hw hc]
  exact (drainAcc_delivers (s := s.packed c) 4 hle hp.blockRange bits).of_setLzw

/-- The leftover bits become a last byte (R195). -/
theorem lzwFlushBits_delivers (hle : s.outLen.toNat ≤ s.cfg.outCap.toNat) (hp : PackerOk s.work.lzw) :
    Delivers s (packerToCome [] s) (fun t => frame (stagedBytes t)) (lzwFlushBits s) := by
  obtain ⟨hbits, hacc, hblk⟩ := hp
  rw [packerToCome, List.append_nil, pendingBits, lzwFlushBits]
  split
  case isTrue hpos =>
    rw [packBits_leftover hpos (by omega) hacc, ← State.lowByte_eq]
    exact (putByte_delivers hle hblk s.lowByte []).map_setLzw fun t _ => by rw [List.append_nil]; rfl
  case isFalse hzero =>
    rw [Nat.eq_zero_of_not_pos hzero, show packBits (codeBits s.work.lzw.acc.toNat 0) = [] from rfl, List.append_nil]
    exact .unchanged (rest := fun t => frame (stagedBytes t)) hle

/-- What is left in the buffer makes the last sub-block, and nothing is to come (R195). -/
theorem lastBlock_delivers (hle : s.outLen.toNat ≤ s.cfg.outCap.toNat) :
    Delivers s (frame (stagedBytes s)) (fun _ => []) (if 0 < s.work.lzw.blkn.toNat then flushBlock s else .ok s) := by
  have hlen := stagedBytes_length s
  split
  case isTrue hpos =>
    have hne : stagedBytes s ≠ [] := List.ne_nil_of_length_pos (hlen ▸ hpos)
    have hmax : (stagedBytes s).length ≤ Config.lzwBlockMax := by
      rw [hlen, Config.lzwBlockMax]; have := s.work.lzw.blkn.isLt; omega
    rw [frame_last hne hmax, hlen, BitVec.ofNat_toNat, BitVec.setWidth_eq]
    refine (List.append_nil _ ▸ flushBlock_delivers hle []).congr fun t hflush => ?_
    obtain ⟨-, hempty⟩ := flushBlock_ok hle hflush
    rw [stagedBytes, hempty]
    rfl
  case isFalse hzero =>
    rw [List.eq_nil_of_length_eq_zero (hlen.trans (Nat.eq_zero_of_not_pos hzero))]
    exact .unchanged (rest := fun _ => []) hle

/-! ### The steps -/

/-- The bytes to come when the symbols to come are `xs`. -/
def codesToCome (limit : Nat) (cb : BitVec 4) (xs : List Byte) (s : State) : List Byte :=
  packerToCome (codesBits (lzwCodesFrom limit cb s.work.lzw xs)) s

/-- Packing changes neither the table nor the codes to come. -/
theorem codesToCome_of_packerOnly (h : PackerOnly s t) (limit : Nat) (cb : BitVec 4) (xs : List Byte) :
    codesToCome limit cb xs t = packerToCome (codesBits (lzwCodesFrom limit cb s.work.lzw xs)) t := by
  rw [codesToCome, h.lzw_eq, lzwCodesFrom_withPacker]

theorem packerToCome_restarted (limit : Nat) (x : Byte) (bits : List Bool) :
    packerToCome bits (s.setLzw (s.work.lzw.restarted limit x)) = packerToCome bits s := by
  simp [packerToCome, stagedBytes, pendingBits, LzwRegs.restarted]

/-- `CLEAR` and `ENDC` are codes of 12 bits (R34). -/
theorem lzwClear_code {cb : BitVec 4} (hcb : cb.toNat ≤ 8) :
    (BitVec.ofNat 12 (lzwClear cb)).toNat = lzwClear cb ∧ (BitVec.ofNat 12 (lzwEnd cb)).toNat = lzwEnd cb := by
  have hpow : 2 ^ cb.toNat ≤ 2 ^ 8 := Nat.pow_le_pow_right (by norm_num) hcb
  rw [BitVec.toNat_ofNat, BitVec.toNat_ofNat, lzwClear_eq, lzwEnd_eq]
  exact ⟨Nat.mod_eq_of_lt (by omega), Nat.mod_eq_of_lt (by omega)⟩

/-- After the leading byte comes `CLEAR` (R183). -/
theorem lzwStartStep_delivers (hle : s.outLen.toNat ≤ s.cfg.outCap.toNat) (hcb : s.lat.cb.toNat ≤ 8) {l : LzwRegs}
    (hstart : s.work.lzw = lzwStartRegs s.lat.cb l) (limit : Nat) (xs : List Byte) :
    Delivers s (lzwStream limit s.lat.cb xs) (codesToCome limit s.lat.cb xs) (lzwStartStep s) := by
  obtain ⟨hclear, -⟩ := lzwClear_code hcb
  have hcsize : s.work.lzw.csize.toNat = s.lat.cb.toNat + 1 := by rw [hstart, lzwStartRegs_csize hcb]
  have hwhole : lzwStream limit s.lat.cb xs = s.lat.cb.setWidth 8 :: packerToCome
      (codeBits (lzwClear s.lat.cb) (s.lat.cb.toNat + 1) ++ codesBits (lzwCodesFrom limit s.lat.cb s.work.lzw xs))
      (s.appended [s.lat.cb.setWidth 8]) := by
    rw [packerToCome, stagedBytes, pendingBits, State.appended_work, hstart, lzwCodesFrom_start default, ← codesBits_cons]
    rfl
  rw [hwhole]
  refine (emit_delivers hle _).bind fun u hemit hle' => ?_
  have hwork := emit_work hemit
  have hpack : PackerOk u.work.lzw := by rw [hwork, hstart]; exact lzwStart_packerOk _ _
  rw [← hcsize, ← hwork]
  refine (emitCode_delivers hle' hpack ?_ hclear ?_ _).congr fun t hcode => ?_
  · rw [hwork, hcsize]; omega
  · rw [hwork, hcsize, lzwClear_eq]; exact Nat.pow_lt_pow_succ (by norm_num)
  · exact (codesToCome_of_packerOnly (PackerOnly.of_emitCode hcode) _ _ _).symm

theorem lzwSymbol_delivers (hle : s.outLen.toNat ≤ s.cfg.outCap.toNat)
    (hcodes : CodesOk s.cfg.lzwLimit s.lat.cb s.work.lzw) (hpack : PackerOk s.work.lzw) (x : Byte) (xs : List Byte) :
    Delivers s (codesToCome s.cfg.lzwLimit s.lat.cb (x :: xs) s) (codesToCome s.cfg.lzwLimit s.lat.cb xs)
      (lzwSymbol x s) := by
  rw [codesToCome]
  cases hv : s.work.lzw.prevv with
  | false =>
    rw [lzwSymbol_first hv, lzwCodesFrom_first hv]
    exact .ok ((Outputs.refl hle).setLzw _) rfl
  | true =>
    cases hlook : tabLookup s.work.lzw.tab s.work.lzw.prev x with
    | some code =>
      rw [lzwSymbol_found hv hlook, lzwCodesFrom_found hv hlook]
      exact .ok ((Outputs.refl hle).setLzw _) rfl
    | none =>
      rw [lzwSymbol_missed hv hlook, lzwCodesFrom_missed hv hlook, codesBits_cons]
      refine (emitCode_delivers hle hpack hcodes.widthRange.2 rfl (hcodes.prev_lt_width hv) _).map_setLzw fun t hemit => ?_
      have honly := PackerOnly.of_emitCode hemit
      rw [codesToCome, packerToCome_restarted, State.setLzw_work, honly.cfg_eq, honly.lzw_eq, restarted_withPacker,
        lzwCodesFrom_withPacker]

/-- The end step before it completes (R195). -/
def lzwEndWrites (s : State) : Res State :=
  (if s.work.lzw.prevv then emitCode s.work.lzw.prev s else .ok s).bind fun s1 =>
    (emitCode (BitVec.ofNat 12 (lzwEnd s1.lat.cb)) s1).bind fun s2 =>
      (lzwFlushBits s2).bind fun s3 => if 0 < s3.work.lzw.blkn.toNat then flushBlock s3 else .ok s3

theorem Res.map_bind {α β γ : Type} (x : Res α) (f : α → Res β) (g : β → γ) :
    (x.bind f).map g = x.bind fun a => (f a).map g := by
  cases x <;> rfl

theorem lzwEndStep_eq (s : State) : lzwEndStep s = (lzwEndWrites s).map State.complete := by
  simp only [lzwEndWrites, Res.map_bind]
  rfl

/-- The pending code, if there is one, comes before `ENDC` (R195, R196). -/
theorem lzwPending_delivers (hle : s.outLen.toNat ≤ s.cfg.outCap.toNat)
    (hcodes : CodesOk s.cfg.lzwLimit s.lat.cb s.work.lzw) (hpack : PackerOk s.work.lzw) (limit : Nat) :
    Delivers s (codesToCome limit s.lat.cb [] s) (packerToCome (codeBits (lzwEnd s.lat.cb) s.work.lzw.csize.toNat))
      (if s.work.lzw.prevv then emitCode s.work.lzw.prev s else .ok s) := by
  rw [codesToCome, lzwCodesFrom]
  split
  case isTrue hv =>
    exact List.append_nil (codeBits (lzwEnd s.lat.cb) _) ▸
      emitCode_delivers hle hpack hcodes.widthRange.2 rfl (hcodes.prev_lt_width hv) _
  case isFalse =>
    rw [List.nil_append, codesBits_cons, show codesBits [] = [] from rfl, List.append_nil]
    exact .unchanged hle

theorem lzwPending_keeps (hle : s.outLen.toNat ≤ s.cfg.outCap.toNat)
    (hcodes : CodesOk s.cfg.lzwLimit s.lat.cb s.work.lzw) (hpack : PackerOk s.work.lzw)
    (h : (if s.work.lzw.prevv then emitCode s.work.lzw.prev s else .ok s) = .ok t) :
    Appends s t ∧ PackerOnly s t ∧ CodesOk s.cfg.lzwLimit s.lat.cb t.work.lzw ∧ PackerOk t.work.lzw := by
  split at h
  case isTrue hv => exact emitCode_keeps_codes hle hcodes hpack (hcodes.prev_lt_width hv) h
  case isFalse => cases h; exact ⟨.refl hle, .refl s, hcodes, hpack⟩

theorem lzwEndWrites_delivers (hle : s.outLen.toNat ≤ s.cfg.outCap.toNat)
    (hcodes : CodesOk s.cfg.lzwLimit s.lat.cb s.work.lzw) (hpack : PackerOk s.work.lzw) (limit : Nat) :
    Delivers s (codesToCome limit s.lat.cb [] s) (fun _ => []) (lzwEndWrites s) := by
  refine (lzwPending_delivers hle hcodes hpack limit).bind fun s1 hpending hle1 => ?_
  obtain ⟨happ1, honly1, hcodes1, hpack1⟩ := lzwPending_keeps hle hcodes hpack hpending
  have hcsize : s1.work.lzw.csize = s.work.lzw.csize := by rw [honly1.lzw_eq]; rfl
  obtain ⟨-, hend⟩ := lzwClear_code hcodes.cbRange.2
  rw [happ1.lat_eq, ← hcsize, ← List.append_nil (codeBits _ _)]
  refine (emitCode_delivers hle1 hpack1 hcodes1.widthRange.2 hend hcodes1.end_lt_width []).bind fun s2 hcode hle2 => ?_
  obtain ⟨-, hpack2⟩ := emitCode_ok hle1 hpack1 hcodes1.widthRange.2 (by rw [hend]; exact hcodes1.end_lt_width) hcode
  exact (lzwFlushBits_delivers hle2 hpack2).bind fun s3 _ hle3 => lastBlock_delivers hle3

end Delivering

/-! ### The run to the end -/

section Run

variable {s t u : State} {n : Nat} {whole : List Byte} {rest : State → List Byte} {x : Res State} {clear : Prop}

/-- A step, which may move the cursor, with the operation finishing behind it. -/
theorem Delivers.finishes (k : Nat) (h : Delivers (s.advanced k) whole rest x) (hstep : step s = .next (settle s x))
    (hnext : ∀ t, x = .ok t → FinishesWriting n t (rest t) clear) : FinishesWriting (n + 1) s whole clear := by
  cases h with
  | full hover => exact ⟨_, .of_step hstep (.refl n _), endsWriting_overflow hover⟩
  | @ok t bs out split =>
    obtain ⟨u, hreach, hend⟩ := hnext t rfl
    refine ⟨u, .of_step hstep hreach, ?_⟩
    obtain ⟨hfits, heq⟩ := out
    rw [split]
    generalize rest t = cs at hend
    rw [heq] at hend
    obtain ⟨hcompleted, hoverflowed⟩ := hend.after hfits
    exact ⟨hcompleted, hoverflowed⟩

/-- The last step. -/
theorem Delivers.finishes_last (h : Delivers s whole (fun _ => []) x)
    (hstep : step s = .next (settle s (x.map State.complete))) (hend : s.inPos = s.lat.len) :
    FinishesWriting (n + 1) s whole (s.allt = true) := by
  cases h with
  | full hover => exact ⟨_, .of_step hstep (.refl n _), endsWriting_overflow hover⟩
  | @ok t bs out split =>
    refine ⟨t.complete, .of_step hstep (.refl n _), ?_⟩
    obtain ⟨hfits, heq⟩ := out
    rw [split, List.append_nil]
    refine ⟨fun _ => ⟨?_, ?_⟩, fun hover => by omega⟩
    · rw [heq, ← hend]
      rfl
    · rw [heq]
      rfl

/-- The symbols not yet read. -/
def symbolsLeft (s : State) : List Byte :=
  (List.range' s.inPos.toNat (s.lat.len.toNat - s.inPos.toNat)).map (inByte s)

/-- The bytes of the stream still to be written. -/
def lzwToCome (s : State) : List Byte := codesToCome s.cfg.lzwLimit s.lat.cb (symbolsLeft s) s

theorem advanced_one_inPos (hmore : s.inPos.toNat < s.lat.len.toNat) :
    (s.advanced 1).inPos.toNat = s.inPos.toNat + 1 := s.advanced_toNat 1 (by have hlen := s.lat.len.isLt; omega)

theorem symbolsLeft_of_more (hmore : s.inPos.toNat < s.lat.len.toNat) :
    symbolsLeft s = inByte s s.inPos.toNat :: symbolsLeft (s.advanced 1) := by
  rw [symbolsLeft, symbolsLeft, advanced_one_inPos hmore,
    show s.lat.len.toNat - s.inPos.toNat = s.lat.len.toNat - (s.inPos.toNat + 1) + 1 by omega, List.range'_succ]
  rfl

theorem symbolsLeft_of_end (hend : s.inPos = s.lat.len) : symbolsLeft s = [] := by
  rw [symbolsLeft, hend, Nat.sub_self]
  rfl

theorem symbolsLeft_of_outputs {bs : List Byte} (h : Outputs s bs t) : symbolsLeft t = symbolsLeft s := by
  rw [h.eq]
  rfl

/-- A valid state in the middle of a compression of symbols below `CLEAR`, behind the start step. -/
structure LzwCoding (s : State) : Prop where
  valid : s.Inv
  running : LzwRunning s
  started : s.outLen ≠ 0#32
  symbols : ∀ a, a < s.lat.len.toNat → (inByte s a).toNat < lzwClear s.lat.cb

/-- A step that writes leaves a running operation with the same input (R60). -/
theorem LzwRunning.after {k : Nat} {bs : List Byte} (hrun : LzwRunning s) (h : s.Inv) (hstep : step s = .next t)
    (hsymbols : ∀ a, a < s.lat.len.toNat → (inByte s a).toNat < lzwClear s.lat.cb) (out : Outputs (s.advanced k) bs t)
    (hstarted : t.outLen ≠ 0#32) : LzwCoding t := by
  have hvalid := everyStepKeepsValidity s t h hstep
  have heq := out.eq
  refine ⟨hvalid, ⟨?_, ?_, ?_, ?_⟩, hstarted, ?_⟩
  all_goals rw [heq]
  · exact hrun.busy
  · exact hrun.alone
  · exact hrun.unraced
  · exact hrun.opcode
  · exact hsymbols

/-- The symbols to come are read one by one, and the codes written behind them (R184, R195). -/
theorem LzwCoding.finishes (h : LzwCoding s) (hn : s.lat.len.toNat - s.inPos.toNat < n) :
    FinishesWriting n s (lzwToCome s) (s.allt = true) := by
  induction n generalizing s with
  | zero => exact absurd hn (Nat.not_lt_zero _)
  | succ n ih =>
    have hop := h.valid.operation h.running.busy
    have hle := h.valid.outFits
    obtain ⟨hcodes, hpack⟩ := (lzwOk_iff s).1 (hop.lzw h.running.opcode)
    rw [lzwToCome]
    by_cases hmore : s.inPos.toNat < s.lat.len.toNat
    case pos =>
      have hstep := h.running.step_symbol h.started hmore (h.symbols _ hmore)
      have hpart := lzwSymbol_delivers (s := s.advanced 1) hle hcodes hpack (inByte s s.inPos.toNat)
        (symbolsLeft (s.advanced 1))
      rw [symbolsLeft_of_more hmore]
      refine hpart.finishes 1 hstep fun t ht => ?_
      rw [ht] at hpart hstep
      obtain ⟨bs, out⟩ := hpart.outputs
      have hnext : LzwCoding t := h.running.after h.valid hstep h.symbols out (out.outLen_ne_zero h.started)
      have hpos := advanced_one_inPos hmore
      have hrest := ih hnext
      rw [lzwToCome, symbolsLeft_of_outputs out, out.cfg_eq, out.lat_eq, out.inPos_eq, out.allt_eq, hpos] at hrest
      exact hrest (by change s.lat.len.toNat - _ < n; omega)
    case neg =>
      have hend : s.inPos = s.lat.len := BitVec.eq_of_toNat_eq (Nat.le_antisymm hop.cursor (not_lt.1 hmore))
      have hstep := h.running.step_eq
      rw [lzwStep, if_neg h.started, if_neg hmore, lzwEndStep_eq] at hstep
      rw [symbolsLeft_of_end hend]
      exact (lzwEndWrites_delivers hle hcodes hpack _).finishes_last hstep hend

/-- A compression that has written nothing writes the stream of R197. -/
theorem LzwRunning.finishes (hrun : LzwRunning s) (h : s.Inv) (hout : s.outLen = 0#32) (hpos : s.inPos = 0#32)
    {l : LzwRegs} (hstart : s.work.lzw = lzwStartRegs s.lat.cb l)
    (hsymbols : ∀ a, a < s.lat.len.toNat → (inByte s a).toNat < lzwClear s.lat.cb) :
    FinishesWriting (s.lat.len.toNat + 2) s (lzwStream s.cfg.lzwLimit s.lat.cb (inBytes s s.lat.len.toNat))
      (s.allt = true) := by
  have hinput : symbolsLeft s = inBytes s s.lat.len.toNat := by
    rw [symbolsLeft, hpos, inBytes, List.range_eq_range']
    rfl
  have hcodes := ((lzwOk_iff s).1 ((h.operation hrun.busy).lzw hrun.opcode)).1
  have hpart := lzwStartStep_delivers h.outFits hcodes.cbRange.2 hstart s.cfg.lzwLimit (symbolsLeft s)
  have hstep := hrun.step_eq
  rw [lzwStep, if_pos hout] at hstep
  rw [← hinput]
  refine Delivers.finishes 0 (by rwa [State.advanced_zero]) hstep fun t ht => ?_
  rw [ht] at hpart hstep
  obtain ⟨bs, out⟩ := hpart.outputs
  have hnext : LzwCoding t :=
    hrun.after (k := 0) h hstep hsymbols (by rwa [State.advanced_zero]) (lzwStartStep_outLen hout ht)
  have hrest := hnext.finishes (n := s.lat.len.toNat + 1)
  rw [lzwToCome, symbolsLeft_of_outputs out, out.cfg_eq, out.lat_eq, out.allt_eq] at hrest
  exact hrest (by omega)

/-- Settles O49: the started operation writes the stream, by `LzwRunning.finishes`. -/
theorem lzwCompressWritesTheStream : Obligations.LzwCompressWritesTheStream := by
  intro s t h hb hhost hlow hhigh hlen hsymbols hexec stream
  have hvalid : t.Inv := exec_cmd_keeps_inv rfl h hexec
  have hstart : exec .lzwCompress s = .next { initLzw (latchStart 1#4 s) with busy := true } :=
    congrArg Host.Outcome.next (startCommand_accepted hb (checksLzw_of_fit hlow hhigh hlen))
  obtain rfl : _ = t := Host.Outcome.next.inj (hstart.symm.trans hexec)
  simp only [← lzwClear_eq] at hsymbols
  have hrun : LzwRunning { initLzw (latchStart 1#4 s) with busy := true } := ⟨rfl, hhost, rfl, rfl⟩
  obtain ⟨u, hreach, hend⟩ := hrun.finishes hvalid rfl rfl (l := s.work.lzw) rfl hsymbols
  refine ⟨u, hreach, hend.idle, fun hfits => ?_, hend.fault⟩
  obtain ⟨hdone, herr, hout, hpos, -⟩ := hend.result rfl rfl rfl hfits
  exact ⟨hdone, herr, hout, hpos⟩

end Run

end Sys2Proof.Machine
end

section
/-! ## The chunk of a pixel (43_qoi_compress.md R222, R223, R227 to R231, R234, R235) -/

namespace Sys2Proof.Machine

section Chunk

variable {den : Bool} {prev slot p : Pixel}

/-! ### The bytes of the packed chunks, as numbers (30_encoding.md R95 to R97) -/

theorem toNat_diffTag (r g b : BitVec 2) :
    (0b01#2 ++ r ++ g ++ b : Byte).toNat = 64 + (r.toNat * 16 + g.toNat * 4 + b.toNat) := by
  revert r g b; decide

theorem toNat_append_nibbles (r b : BitVec 4) : (r ++ b : Byte).toNat = r.toNat * 16 + b.toNat := by
  revert r b; decide

theorem toNat_biased {w : Nat} {bias d : Int} (h0 : 0 ≤ d + bias) (h1 : d + bias < 2 ^ w) :
    ((biased w bias d).toNat : Int) = d + bias := by
  have hread := toNat_biased_sub h0 h1
  omega

theorem encode_index_toNat (x : BitVec 6) :
    (encode (.index x)).map (fun b => (b.toNat : Int)) = [(x.toNat : Int)] := by
  rw [encode, List.map_singleton, toNat_tag_append]
  norm_num

theorem encode_diff_toNat {dr dg db : Int} (h : (Instr.diff dr dg db).WellFormed) :
    (encode (.diff dr dg db)).map (fun b => (b.toNat : Int)) = [0x40 + (dr + 2) * 16 + (dg + 2) * 4 + (db + 2)] := by
  obtain ⟨hr, hg, hb⟩ := of_decide_eq_true h
  have hr' : ((biased 2 2 dr).toNat : Int) = dr + 2 := toNat_biased (by omega) (by omega)
  have hg' : ((biased 2 2 dg).toNat : Int) = dg + 2 := toNat_biased (by omega) (by omega)
  have hb' : ((biased 2 2 db).toNat : Int) = db + 2 := toNat_biased (by omega) (by omega)
  rw [encode, List.map_singleton, toNat_diffTag]
  congr 1
  omega

theorem encode_luma_toNat {dg drDg dbDg : Int} (h : (Instr.luma dg drDg dbDg).WellFormed) :
    (encode (.luma dg drDg dbDg)).map (fun b => (b.toNat : Int))
      = [0x80 + (dg + 32), (drDg + 8) * 16 + (dbDg + 8)] := by
  obtain ⟨hg, hr, hb⟩ := of_decide_eq_true h
  have hg' : ((biased 6 32 dg).toNat : Int) = dg + 32 := toNat_biased (by omega) (by omega)
  have hr' : ((biased 4 8 drDg).toNat : Int) = drDg + 8 := toNat_biased (by omega) (by omega)
  have hb' : ((biased 4 8 dbDg).toNat : Int) = dbDg + 8 := toNat_biased (by omega) (by omega)
  rw [encode, List.map_cons, List.map_singleton, toNat_tag_append, toNat_append_nibbles]
  simp only [List.cons.injEq, and_true]
  exact ⟨by norm_num; omega, by omega⟩

/-! ### Which chunk it is -/

/-- The difference of two bytes, a plain integer (R234). -/
abbrev byteDiff (x y : Byte) : Int := x.toNat - y.toNat

/-- The condition of `DIFF`, where no slot holds the pixel (R228, R235). -/
def DiffApplies (den : Bool) (prev p : Pixel) : Prop :=
  den = true ∧ p.a = prev.a ∧ inDiffRange (byteDiff p.r prev.r) ∧ inDiffRange (byteDiff p.g prev.g) ∧
    inDiffRange (byteDiff p.b prev.b)

/-- The condition of `LUMA`, where `DIFF` does not apply (R229, R235). -/
def LumaApplies (den : Bool) (prev p : Pixel) : Prop :=
  den = true ∧ p.a = prev.a ∧ inLumaGreenRange (byteDiff p.g prev.g) ∧
    inLumaSideRange (byteDiff p.r prev.r - byteDiff p.g prev.g) ∧
    inLumaSideRange (byteDiff p.b prev.b - byteDiff p.g prev.g)

theorem chooseChunk_index (hslot : slot = p) : chooseChunk den prev slot p = .index (qhash p) := if_pos hslot

theorem chooseChunk_diff (hslot : slot ≠ p) (hdiff : DiffApplies den prev p) :
    chooseChunk den prev slot p = .diff (byteDiff p.r prev.r) (byteDiff p.g prev.g) (byteDiff p.b prev.b) :=
  (if_neg hslot).trans (if_pos hdiff)

theorem chooseChunk_luma (hslot : slot ≠ p) (hdiff : ¬ DiffApplies den prev p) (hluma : LumaApplies den prev p) :
    chooseChunk den prev slot p = .luma (byteDiff p.g prev.g) (byteDiff p.r prev.r - byteDiff p.g prev.g)
      (byteDiff p.b prev.b - byteDiff p.g prev.g) :=
  (if_neg hslot).trans ((if_neg hdiff).trans (if_pos hluma))

theorem chooseChunk_literal (hslot : slot ≠ p) (hdiff : ¬ DiffApplies den prev p) (hluma : ¬ LumaApplies den prev p) :
    chooseChunk den prev slot p = if p.a = prev.a then .rgb p.r p.g p.b else .rgba p.r p.g p.b p.a :=
  (if_neg hslot).trans ((if_neg hdiff).trans (if_neg hluma))

theorem DiffApplies.alpha_eq (h : DiffApplies den prev p) : p.a = prev.a := by
  obtain ⟨-, halpha, -⟩ := h
  exact halpha

theorem LumaApplies.alpha_eq (h : LumaApplies den prev p) : p.a = prev.a := by
  obtain ⟨-, halpha, -⟩ := h
  exact halpha

theorem DiffApplies.wellFormed (h : DiffApplies den prev p) :
    (Instr.diff (byteDiff p.r prev.r) (byteDiff p.g prev.g) (byteDiff p.b prev.b)).WellFormed := by
  obtain ⟨-, -, hranges⟩ := h
  exact decide_eq_true hranges

theorem LumaApplies.wellFormed (h : LumaApplies den prev p) :
    (Instr.luma (byteDiff p.g prev.g) (byteDiff p.r prev.r - byteDiff p.g prev.g)
      (byteDiff p.b prev.b - byteDiff p.g prev.g)).WellFormed := by
  obtain ⟨-, -, hranges⟩ := h
  exact decide_eq_true hranges

/-- Settles O35: the chunk by its condition, then the fields put together. -/
theorem chunkChoiceFollowsPriority : Obligations.ChunkChoiceFollowsPriority := by
  intro den prev slot p dr dg db diff luma bytes
  have hdiff : diff ↔ DiffApplies den prev p := by simp only [DiffApplies, inDiffRange, and_assoc]; rfl
  have hluma : luma ↔ LumaApplies den prev p := by
    simp only [LumaApplies, inLumaGreenRange, inLumaSideRange, and_assoc]; rfl
  rw [hdiff, hluma]
  simp only [bytes]
  refine ⟨fun hslot => ?_, fun hslot hd => ?_, fun hslot hd hl => ?_, fun hslot hd hl ha => ?_, fun hslot ha => ?_⟩
  · rw [chooseChunk_index hslot, encode_index_toNat, qhash_toNat]
    rfl
  · rw [chooseChunk_diff hslot hd, encode_diff_toNat hd.wellFormed]
  · rw [chooseChunk_luma hslot hd hl, encode_luma_toNat hl.wellFormed]
  · rw [chooseChunk_literal hslot hd hl, if_pos ha]
    rfl
  · have hd : ¬ DiffApplies den prev p := fun h => ha h.alpha_eq
    have hl : ¬ LumaApplies den prev p := fun h => ha h.alpha_eq
    rw [chooseChunk_literal hslot hd hl, if_neg ha]
    rfl

end Chunk

end Sys2Proof.Machine
end

section
/-! ## Decompressing what was compressed (43_qoi_compress.md R238, 44_qoi_decompress.md R264)

The compressor and the decompressor keep the same previous pixel and the same cache. So from the end of the stream on,
every chunk put in front of bytes that decode to pixels gives bytes that decode to these pixels with the chunk's own in
front. -/

namespace Sys2Proof.Machine

open Functions

section RoundTrip

variable {prev p : Pixel} {cache : Vector Pixel 64} {i : Instr} {bs rest stream : List Byte} {ps qs : List Pixel}
  {fuel n pos k consumed : Nat}

/-! ### One chunk -/

theorem channelAdd_byteDiff (x y : Byte) : channelAdd y (byteDiff x y) = x :=
  BitVec.eq_of_toNat_eq (Int.ofNat_inj.1 (by rw [channelAdd_toNat, byteDiff]; omega))

/-- The pixel moved by its own differences from another of the same alpha. -/
theorem movedPixel_byteDiff (ha : p.a = prev.a) :
    movedPixel prev (byteDiff p.r prev.r) (byteDiff p.g prev.g) (byteDiff p.b prev.b) = p := by
  rw [movedPixel, channelAdd_byteDiff, channelAdd_byteDiff, channelAdd_byteDiff, ← ha]

/-- A chunk other than `RUN` that the decoder reads and that denotes the pixel `p` (R254 to R258). -/
structure Denotes (prev : Pixel) (cache : Vector Pixel 64) (i : Instr) (p : Pixel) : Prop where
  format : i.format = .chunk
  wellFormed : i.WellFormed
  notRun : ∀ k, i ≠ .run k
  pixel : chunkPixel prev cache i = p

/-- The chosen chunk denotes the pixel it was chosen for. -/
theorem chooseChunk_denotes (den : Bool) (prev p : Pixel) (cache : Vector Pixel 64) :
    Denotes prev cache (chooseChunk den prev (cacheRead cache (qhash p)) p) p := by
  by_cases hslot : cacheRead cache (qhash p) = p
  · rw [chooseChunk_index hslot]
    exact ⟨rfl, rfl, nofun, hslot⟩
  by_cases hdiff : DiffApplies den prev p
  · rw [chooseChunk_diff hslot hdiff]
    exact ⟨rfl, hdiff.wellFormed, nofun, movedPixel_byteDiff hdiff.alpha_eq⟩
  by_cases hluma : LumaApplies den prev p
  · rw [chooseChunk_luma hslot hdiff hluma]
    refine ⟨rfl, hluma.wellFormed, nofun, ?_⟩
    rw [chunkPixel, add_sub_cancel, add_sub_cancel, movedPixel_byteDiff hluma.alpha_eq]
  · rw [chooseChunk_literal hslot hdiff hluma]
    split
    case isTrue ha => exact ⟨rfl, rfl, nofun, by rw [chunkPixel, ← ha]⟩
    case isFalse => exact ⟨rfl, rfl, nofun, rfl⟩

theorem decodeChunk_encode (hi : i.format = .chunk) (hwf : i.WellFormed) :
    decodeChunk (encode i ++ rest) = .ok (i, rest) := decode_eq_ok_iff (f := .chunk).2 ⟨hwf, hi, rfl⟩

/-! What the decompressor does with a chunk it reads (R252, R259, R262). -/

theorem qoiPixelsFrom_done : qoiPixelsFrom fuel 0 prev cache pos bs = .ok [] pos := by
  cases fuel with
  | zero => rfl
  | succ fuel => exact if_pos rfl

theorem qoiPixelsFrom_run (hn : n ≠ 0) (hdec : decodeChunk bs = .ok (.run k, rest)) :
    qoiPixelsFrom (fuel + 1) n prev cache pos bs =
      if n < k then .decodeError pos
      else .after (List.replicate k prev)
        (qoiPixelsFrom fuel (n - k) prev cache (pos + (bs.length - rest.length)) rest) := by
  rw [qoiPixelsFrom, if_neg hn, hdec]

theorem qoiPixelsFrom_pixel (hn : n ≠ 0) (hdec : decodeChunk bs = .ok (i, rest)) (hi : ∀ k, i ≠ .run k)
    (hp : chunkPixel prev cache i = p) :
    qoiPixelsFrom (fuel + 1) n prev cache pos bs =
      .after [p]
        (qoiPixelsFrom fuel (n - 1) p (cacheWrite cache (qhash p) p) (pos + (bs.length - rest.length)) rest) := by
  rw [qoiPixelsFrom, if_neg hn, hdec]
  subst hp
  cases i with
  | run k => exact absurd rfl (hi k)
  | nop | lzwCompress | qoiCompress | qoiDecompress | bmpEncode24 | bmpEncode32 | ack | abort | reservedCmd => rfl
  | rgb | rgba | index | diff | luma => rfl

/-! ### Streams -/

/-- From `prev` and `cache` on, `stream` decodes to the pixels `ps`, and all but its last 8 bytes are consumed (R264). -/
structure Restores (prev : Pixel) (cache : Vector Pixel 64) (stream : List Byte) (ps : List Pixel) : Prop where
  padded : 8 ≤ stream.length
  decoded : ∀ fuel pos, ps.length ≤ fuel →
    qoiPixelsFrom fuel ps.length prev cache pos stream = .ok ps (pos + (stream.length - 8))

theorem restores_padding : Restores prev cache qoiEndPadding [] := ⟨Nat.le_refl 8, fun _ _ _ => qoiPixelsFrom_done⟩

theorem Restores.after_pixel (hi : Denotes prev cache i p) (h : Restores p (cacheWrite cache (qhash p) p) stream ps) :
    Restores prev cache (encode i ++ stream) (p :: ps) := by
  obtain ⟨hpadded, hdecoded⟩ := h
  refine ⟨by rw [List.length_append]; omega, fun fuel pos hfuel => ?_⟩
  rw [List.length_cons] at hfuel ⊢
  obtain ⟨fuel, rfl⟩ := Nat.exists_eq_add_of_le' (show 1 ≤ fuel by omega)
  rw [qoiPixelsFrom_pixel (Nat.add_one_ne_zero _) (decodeChunk_encode hi.format hi.wellFormed) hi.notRun hi.pixel,
    Nat.add_sub_cancel, hdecoded fuel _ (Nat.le_of_succ_le_succ hfuel), DecodeResult.after, List.length_append,
    List.singleton_append]
  congr 1
  omega

theorem Restores.after_run (h1 : 1 ≤ k) (h2 : k ≤ 62) (h : Restores prev cache stream ps) :
    Restores prev cache (encode (.run k) ++ stream) (List.replicate k prev ++ ps) := by
  obtain ⟨hpadded, hdecoded⟩ := h
  refine ⟨by rw [List.length_append]; omega, fun fuel pos hfuel => ?_⟩
  rw [List.length_append, List.length_replicate] at hfuel ⊢
  obtain ⟨fuel, rfl⟩ := Nat.exists_eq_add_of_le' (show 1 ≤ fuel by omega)
  have hwf : (Instr.run k).WellFormed := decide_eq_true ⟨h1, h2⟩
  rw [qoiPixelsFrom_run (by omega) (decodeChunk_encode rfl hwf), if_neg (by omega), Nat.add_sub_cancel_left,
    hdecoded fuel _ (by omega), DecodeResult.after, List.length_append]
  congr 1
  omega

theorem Restores.after_runBytes (hk : k ≤ 62) (h : Restores prev cache stream ps) :
    Restores prev cache (runBytes k ++ stream) (List.replicate k prev ++ ps) := by
  rw [runBytes]
  split
  case isTrue hpos => exact h.after_run hpos hk
  case isFalse hzero =>
    rw [Nat.eq_zero_of_not_pos hzero]
    exact h

/-- The bytes for the pixels to come give the pending run and these pixels back. -/
theorem qoiBytesFrom_restores (den : Bool) (prev : Pixel) (cache : Vector Pixel 64) (run : Nat) (ps : List Pixel)
    (hrun : run ≤ 61) : Restores prev cache (qoiBytesFrom den prev cache run ps) (List.replicate run prev ++ ps) := by
  induction ps generalizing prev cache run with
  | nil => exact restores_padding.after_runBytes (by omega)
  | cons p ps ih =>
    rw [qoiBytesFrom]
    split_ifs with hsame hmax
    case pos =>
      subst hsame
      have hrest := ih p cache 0 (Nat.zero_le _)
      rw [List.append_cons, ← List.replicate_succ']
      exact hrest.after_run (by omega) (by omega)
    case neg =>
      subst hsame
      have hrest := ih p cache (run + 1) (by rw [Config.qoiRunMax] at hmax; omega)
      rwa [List.replicate_succ', List.append_assoc] at hrest
    case neg =>
      rw [List.append_assoc]
      exact ((ih p (cacheWrite cache (qhash p) p) 0 (Nat.zero_le _)).after_pixel (chooseChunk_denotes ..)).after_runBytes
        (by omega)

/-! ### Whatever is decoded -/

/-- What follows a chunk that is read is shorter by its bytes. -/
theorem decodeChunk_reads (h : decodeChunk bs = .ok (i, rest)) : i.WellFormed ∧ rest.length ≤ bs.length := by
  obtain ⟨hwf, -, rfl⟩ := decode_eq_ok_iff (f := .chunk).1 h
  exact ⟨hwf, by rw [List.length_append]; omega⟩

theorem decodeResult_after_eq_ok {r : DecodeResult} (h : r.after qs = .ok ps consumed) :
    ∃ more, r = .ok more consumed ∧ ps = qs ++ more := by
  cases r with
  | ok more c => cases h; exact ⟨more, rfl, rfl⟩
  | decodeError => cases h

/-- A decoding that succeeds gives the pixels asked for and stays inside the bytes. -/
theorem qoiPixelsFrom_ok (hfuel : n ≤ fuel) (h : qoiPixelsFrom fuel n prev cache pos bs = .ok ps consumed) :
    ps.length = n ∧ consumed ≤ pos + bs.length := by
  induction fuel generalizing n prev cache pos bs ps with
  | zero => cases h; exact ⟨(Nat.le_zero.1 hfuel).symm, Nat.le_add_right _ _⟩
  | succ fuel ih =>
    by_cases hn : n = 0
    case pos =>
      subst hn
      rw [qoiPixelsFrom_done] at h
      cases h
      exact ⟨rfl, Nat.le_add_right _ _⟩
    case neg =>
      cases hdec : decodeChunk bs with
      | error e => rw [qoiPixelsFrom, if_neg hn, hdec] at h; cases h
      | ok read =>
        obtain ⟨i, rest⟩ := read
        obtain ⟨hwf, hshort⟩ := decodeChunk_reads hdec
        by_cases hi : ∃ k, i = .run k
        case pos =>
          obtain ⟨k, rfl⟩ := hi
          obtain ⟨hpos, -⟩ : 1 ≤ k ∧ k ≤ 62 := of_decide_eq_true hwf
          rw [qoiPixelsFrom_run hn hdec] at h
          split at h
          case isTrue => cases h
          case isFalse hfits =>
            obtain ⟨more, hmore, rfl⟩ := decodeResult_after_eq_ok h
            obtain ⟨hlen, hend⟩ := ih (by omega) hmore
            rw [List.length_append, List.length_replicate]
            omega
        case neg =>
          rw [qoiPixelsFrom_pixel hn hdec (not_exists.1 hi) rfl] at h
          obtain ⟨more, hmore, rfl⟩ := decodeResult_after_eq_ok h
          obtain ⟨hlen, hend⟩ := ih (by omega) hmore
          rw [List.singleton_append, List.length_cons]
          omega

/-- Settles O48: from the start state no run is pending, and every pixel restores itself. -/
theorem qoiRoundTripRestoresPixels : Obligations.QoiRoundTripRestoresPixels := by
  refine ⟨fun den ps => ?_, fun n bs ps consumed h => ?_⟩
  · have hrestores := qoiBytesFrom_restores den startPixel startCache 0 ps (Nat.zero_le _)
    have hdecoded := hrestores.decoded ps.length 0 (Nat.le_refl _)
    rwa [Nat.zero_add] at hdecoded
  · have hread := qoiPixelsFrom_ok (Nat.le_refl n) h
    rwa [Nat.zero_add] at hread

end RoundTrip

end Sys2Proof.Machine
end

section
/-! ## The steps of QOI_COMPRESS (43_qoi_compress.md R223 to R233)

What a pixel writes and what it leaves of the working registers, by the registers before it. -/

namespace Sys2Proof.Machine

open Functions

section Steps

variable {s u : State}

/-- A `QOI_COMPRESS` in progress that the host leaves to itself. -/
structure QoiRunning (s : State) : Prop where
  busy : s.busy = true
  alone : s.host = []
  unraced : s.inRaced = false
  opcode : s.lat.opl = 2#4

theorem QoiRunning.step_eq (h : QoiRunning s) : step s = .next (settle s (qoiCompressStep s)) := by
  simp [step_of_no_host h.alone, engineTurn, h.busy, h.unraced, opStep, h.opcode]

theorem QoiRunning.step_pixel (h : QoiRunning s) (hmore : s.work.qoi.pixn.toNat < s.lat.n.toNat) :
    step s = .next (settle s (if inPixel s s.inPos.toNat = s.work.qoi.prevpx then qoiExtendRun s.pixelTaken
      else qoiCodePixel (inPixel s s.inPos.toNat) s.pixelTaken)) := by
  rw [h.step_eq, qoiCompressStep, if_pos hmore, qoiPixelStep_eq]

/-! ### A pixel equal to `PREVPX` (R224, R225) -/

theorem run_succ_toNat {run : BitVec 6} (hrun : run.toNat ≤ 61) : (run + 1#6).toNat = run.toNat + 1 :=
  BitVec.toNat_add_of_lt (by rw [BitVec.toNat_ofNat]; omega)

theorem qoiExtendRun_grows (hrun : s.work.qoi.run.toNat < 61) :
    qoiExtendRun s = .ok (s.setQoi { s.work.qoi with run := s.work.qoi.run + 1#6 }) := by
  have hsucc := run_succ_toNat (run := s.work.qoi.run) (by omega)
  refine if_neg ?_
  rw [State.setQoi_work, Config.qoiRunMax, hsucc]
  omega

/-- The run grows, or is written as it reaches 62. -/
theorem settle_qoiExtendRun (hrun : s.work.qoi.run.toNat ≤ 61) (hle : s.outLen.toNat ≤ s.cfg.outCap.toNat) :
    let bs := if s.work.qoi.run.toNat = 61 then encode (.run 62) else []
    settle u (qoiExtendRun s) =
      if s.outLen.toNat + bs.length ≤ s.cfg.outCap.toNat then
        (s.appended bs).setQoi
          { s.work.qoi with run := if s.work.qoi.run.toNat = 61 then 0#6 else s.work.qoi.run + 1#6 }
      else raise ⟨.outFull, s.cfg.outCap⟩ u := by
  intro bs
  by_cases hmax : s.work.qoi.run.toNat = 61
  case pos =>
    have hsucc : (s.work.qoi.run + 1#6).toNat = 62 := by rw [run_succ_toNat hrun, hmax]
    have hflush : qoiExtendRun s = flushRun (s.setQoi { s.work.qoi with run := s.work.qoi.run + 1#6 }) := if_pos hsucc
    rw [show bs = encode (.run 62) from if_pos hmax, if_pos hmax, hflush, flushRun, State.setQoi_work,
      if_pos (by rw [hsucc]; decide), hsucc]
    exact settle_emitAll (r := s.setQoi _) _ hle
  case neg =>
    rw [show bs = [] from if_neg hmax, if_neg hmax, qoiExtendRun_grows (lt_of_le_of_ne hrun hmax), State.appended_nil]
    exact (if_pos hle).symm

/-! ### The pending run before other bytes (R226, R232) -/

theorem State.runChunk_eq (hrun : s.work.qoi.run.toNat ≤ 61) :
    s.runChunk =
      if s.work.qoi.run = 0#6 then [] else [BitVec.ofNat 8 (0xC0 + (s.work.qoi.run.toNat - 1))] := by
  rw [State.runChunk, runBytes]
  split_ifs with hpos hzero hzero
  · rw [hzero] at hpos; exact absurd hpos (Nat.lt_irrefl 0)
  · exact encode_run hpos (by omega)
  · rfl
  · exact absurd (BitVec.eq_of_toNat_eq (Nat.eq_zero_of_not_pos hpos)) hzero

/-- The state with the pending run written. -/
def State.runFlushed (s : State) : State := (s.appended s.runChunk).setQoi { s.work.qoi with run := 0#6 }

/-- The pending run and the bytes behind it are written together, or do not fit together. -/
theorem settle_flushRun_emitAll {more : State → List Byte} {bs : List Byte} (f : State → State)
    (hle : s.outLen.toNat ≤ s.cfg.outCap.toNat) (hmore : more s.runFlushed = bs) :
    settle u ((flushRun s).bind fun s1 => (emitAll (more s1) s1).map f) =
      if s.outLen.toNat + (s.runChunk ++ bs).length ≤ s.cfg.outCap.toNat then
        f ((s.appended (s.runChunk ++ bs)).setQoi { s.work.qoi with run := 0#6 })
      else raise ⟨.outFull, s.cfg.outCap⟩ u := by
  have hcap := s.cfg.outCap.isLt
  rw [List.length_append, ← Nat.add_assoc]
  rcases flushRun_cases hle with ⟨hfit, e⟩ | ⟨hfull, e⟩ <;> rw [e]
  · have hlen : s.runFlushed.outLen.toNat = s.outLen.toNat + s.runChunk.length :=
      s.appended_outLen_toNat s.runChunk (by omega)
    change settle u ((emitAll (more s.runFlushed) s.runFlushed).map f) = _
    rw [hmore, settle_emitAll f (by rw [hlen]; exact hfit), hlen, ← s.appended_append _ _ (by omega)]
    rfl
  · rw [if_neg (by omega)]
    rfl

/-! ### A pixel (R223) -/

/-- A pixel that differs from `PREVPX` (R226 to R233). -/
theorem settle_qoiCodePixel (p : Pixel) (hle : s.outLen.toNat ≤ s.cfg.outCap.toNat) :
    let q := s.work.qoi
    let bs := s.runChunk ++ encode (chooseChunk s.lat.den q.prevpx (cacheRead q.cache (qhash p)) p)
    settle u (qoiCodePixel p s) =
      if s.outLen.toNat + bs.length ≤ s.cfg.outCap.toNat then
        (s.appended bs).setQoi { prevpx := p, run := 0#6, pixn := q.pixn, cache := cacheWrite q.cache (qhash p) p }
      else raise ⟨.outFull, s.cfg.outCap⟩ u :=
  settle_flushRun_emitAll
    (more := fun t => encode (chooseChunk t.lat.den t.work.qoi.prevpx (cacheRead t.work.qoi.cache (qhash p)) p))
    (fun t => t.setQoi { t.work.qoi with cache := cacheWrite t.work.qoi.cache (qhash p) p, prevpx := p }) hle rfl

/-- The bytes that the pixel `p` adds to the stream. -/
def QoiRegs.bytesFor (den : Bool) (p : Pixel) (q : QoiRegs) : List Byte :=
  if p = q.prevpx then (if q.run.toNat = 61 then encode (.run 62) else [])
  else runBytes q.run.toNat ++ encode (chooseChunk den q.prevpx (cacheRead q.cache (qhash p)) p)

/-- The registers behind the pixel `p`. -/
def QoiRegs.behind (p : Pixel) (q : QoiRegs) : QoiRegs :=
  if p = q.prevpx then { q with run := if q.run.toNat = 61 then 0#6 else q.run + 1#6, pixn := q.pixn + 1#32 }
  else { prevpx := p, run := 0#6, pixn := q.pixn + 1#32, cache := cacheWrite q.cache (qhash p) p }

/-- The pixel at the cursor. -/
def State.pixelHere (s : State) : Pixel := inPixel s s.inPos.toNat

/-- The state behind the pixel at the cursor. -/
def State.pixelCoded (s : State) : State :=
  (s.advanced 4).wrote (s.work.qoi.bytesFor s.lat.den s.pixelHere) s.allt
    { s.work with qoi := s.work.qoi.behind s.pixelHere }

theorem QoiRunning.pixel_step (h : QoiRunning s) (hmore : s.work.qoi.pixn.toNat < s.lat.n.toNat)
    (hrun : s.work.qoi.run.toNat ≤ 61) (hle : s.outLen.toNat ≤ s.cfg.outCap.toNat) :
    WritesOrOverflows s (s.work.qoi.bytesFor s.lat.den s.pixelHere) s.pixelCoded := by
  rw [WritesOrOverflows, h.step_pixel hmore]
  refine congrArg _ ?_
  rw [State.pixelCoded, QoiRegs.bytesFor, QoiRegs.behind, State.pixelHere, State.pixelTaken, State.advanced]
  generalize s.inPos + BitVec.ofNat 32 4 = pos
  split
  case isTrue => exact settle_qoiExtendRun hrun hle
  case isFalse => exact settle_qoiCodePixel _ hle

/-- Settles O33: the run below 61 grows without a byte, the run of 61 is written. -/
theorem equalPixelExtendsRun : Obligations.EqualPixelExtendsRun := by
  intro s hhost hb hr hopl hmore hsame t
  have hrunning : QoiRunning s := ⟨hb, hhost, hr, hopl⟩
  refine ⟨fun hrun => ?_, fun hrun hroom => ?_⟩
  · rw [hrunning.step_pixel hmore, if_pos hsame, qoiExtendRun_grows (s := s.pixelTaken) hrun]
    rfl
  · have hstep := hrunning.pixel_step hmore hrun.le hroom.le
    rw [State.pixelCoded, QoiRegs.bytesFor, QoiRegs.behind, State.pixelHere, if_pos hsame, if_pos hsame, if_pos hrun,
      if_pos hrun] at hstep
    exact hstep.step_of_fits hroom

/-- Settles O34: the pending run is at most 61, so it is one byte or none. -/
theorem differentPixelIsCoded : Obligations.DifferentPixelIsCoded := by
  intro s hhost hb hr hopl hmore hother hrun hle p runBytes bytes
  have hstep := QoiRunning.pixel_step ⟨hb, hhost, hr, hopl⟩ hmore hrun hle
  have hbytes : s.work.qoi.bytesFor s.lat.den s.pixelHere = bytes :=
    (if_neg hother).trans (congrArg (· ++ _) (State.runChunk_eq hrun))
  rw [State.pixelCoded, hbytes, QoiRegs.behind, State.pixelHere, if_neg hother] at hstep
  exact ⟨hstep.step_of_fits, hstep.step_of_overflow⟩

/-! ### The end (R232) -/

/-- The bytes of the end step. -/
def State.endBytes (s : State) : List Byte := s.runChunk ++ qoiEndPadding

theorem QoiRunning.end_step (h : QoiRunning s) (hend : s.lat.n.toNat ≤ s.work.qoi.pixn.toNat)
    (hle : s.outLen.toNat ≤ s.cfg.outCap.toNat) :
    WritesOrOverflows s s.endBytes
      (s.wrote s.endBytes s.allt { s.work with qoi := { s.work.qoi with run := 0#6 } }).complete := by
  rw [WritesOrOverflows, h.step_eq, qoiCompressStep, if_neg (not_lt.2 hend)]
  exact congrArg _ (settle_flushRun_emitAll _ hle rfl)

/-- Settles O36. -/
theorem compressEndStepWritesPadding : Obligations.CompressEndStepWritesPadding := by
  intro s hhost hb hr hopl hend hrun runBytes bytes hfits
  have hstep := QoiRunning.end_step ⟨hb, hhost, hr, hopl⟩ hend (Nat.le_of_add_right_le hfits)
  have hbytes : s.endBytes = bytes := congrArg (· ++ _) (State.runChunk_eq hrun)
  rw [hbytes] at hstep
  exact hstep.step_of_fits hfits

end Steps

end Sys2Proof.Machine
end

section
/-! ## The whole of QOI_COMPRESS (43_qoi_compress.md R221 to R236)

The bytes still to be written are known at every point of the operation: those of the registers and the pixels not yet
read. Every step writes the first of them, or raises `OutFull` when they do not fit. -/

namespace Sys2Proof.Machine

open Functions

section Run

variable {s t u : State} {n : Nat}

/-- The pixels not yet read (20_memory.md R63). -/
def pixelsLeft (s : State) : List Pixel :=
  (List.range' s.work.qoi.pixn.toNat (s.lat.n.toNat - s.work.qoi.pixn.toNat)).map fun k => inPixel s (4 * k)

/-- The bytes of the stream still to come, by the registers and the pixels still to come (R223, R232). -/
def QoiRegs.toCome (den : Bool) (ps : List Pixel) (q : QoiRegs) : List Byte :=
  qoiBytesFrom den q.prevpx q.cache q.run.toNat ps

theorem behind_pixn (p : Pixel) (q : QoiRegs) : (q.behind p).pixn = q.pixn + 1#32 := by
  rw [QoiRegs.behind]
  split <;> rfl

/-- The first pixel to come gives its bytes, and the others come with the registers behind it. -/
theorem toCome_cons {q : QoiRegs} (hrun : q.run.toNat ≤ 61) (den : Bool) (p : Pixel) (ps : List Pixel) :
    q.toCome den (p :: ps) = q.bytesFor den p ++ (q.behind p).toCome den ps := by
  rw [QoiRegs.toCome, qoiBytesFrom, QoiRegs.bytesFor, QoiRegs.behind]
  by_cases hsame : p = q.prevpx
  · rw [if_pos hsame, if_pos hsame, if_pos hsame]
    by_cases hmax : q.run.toNat = 61
    · rw [if_pos hmax, if_pos hmax, hmax]
      rfl
    · rw [if_neg hmax, if_neg hmax, if_neg (by rw [Config.qoiRunMax]; omega), ← run_succ_toNat hrun]
      rfl
  · rw [if_neg hsame, if_neg hsame, if_neg hsame]
    rfl

/-! What a pixel leaves of the state. -/

theorem QoiRunning.pixelCoded (h : QoiRunning s) : QoiRunning s.pixelCoded := by
  obtain ⟨hb, hhost, hr, hopl⟩ := h
  constructor <;> simpa only [State.pixelCoded, State.wrote, State.advanced, State.appended_busy, State.appended_host,
    State.appended_inRaced, State.appended_lat]

theorem pixelCoded_lat (s : State) : s.pixelCoded.lat = s.lat := by
  rw [State.pixelCoded, State.wrote, State.appended_lat, State.advanced]

theorem pixelCoded_allt (s : State) : s.pixelCoded.allt = s.allt := by rw [State.pixelCoded, State.wrote]

theorem inPixel_pixelCoded (s : State) (a : Nat) : inPixel s.pixelCoded a = inPixel s a := by
  simp only [inPixel, inByte, State.pixelCoded, State.wrote, State.advanced, State.appended_inMem, State.appended_inGen]

theorem pixelCoded_qoi (s : State) : s.pixelCoded.work.qoi = s.work.qoi.behind s.pixelHere := rfl

theorem pixelCoded_pixn (hmore : s.work.qoi.pixn.toNat < s.lat.n.toNat) :
    s.pixelCoded.work.qoi.pixn.toNat = s.work.qoi.pixn.toNat + 1 := by
  have hn := s.lat.n.isLt
  rw [pixelCoded_qoi, behind_pixn]
  exact BitVec.toNat_add_of_lt (by rw [BitVec.toNat_ofNat]; omega)

/-- While pixels are left, the first of them is the one at the cursor. -/
theorem pixelsLeft_of_more (hmore : s.work.qoi.pixn.toNat < s.lat.n.toNat)
    (hcursor : s.inPos.toNat = 4 * s.work.qoi.pixn.toNat) :
    pixelsLeft s = s.pixelHere :: pixelsLeft s.pixelCoded := by
  simp only [pixelsLeft, pixelCoded_pixn hmore, pixelCoded_lat, inPixel_pixelCoded, State.pixelHere, hcursor]
  rw [show s.lat.n.toNat - s.work.qoi.pixn.toNat = s.lat.n.toNat - (s.work.qoi.pixn.toNat + 1) + 1 by omega,
    List.range'_succ, List.map_cons]

theorem pixelsLeft_of_end (hend : s.lat.n.toNat ≤ s.work.qoi.pixn.toNat) : pixelsLeft s = [] := by
  rw [pixelsLeft, Nat.sub_eq_zero_of_le hend]
  rfl

/-- A step that moves the cursor and goes on. -/
theorem FinishesWriting.of_reading_step {bs cs : List Byte} {clear : Prop} (k : Nat)
    (ht : t = (s.advanced k).wrote bs t.allt t.work) (hstep : WritesOrOverflows s bs t)
    (hrest : s.outLen.toNat + bs.length ≤ s.cfg.outCap.toNat → FinishesWriting n t cs clear) :
    FinishesWriting (n + 1) s (bs ++ cs) clear := by
  by_cases hfits : s.outLen.toNat + bs.length ≤ s.cfg.outCap.toNat
  · obtain ⟨u, hreach, hend⟩ := hrest hfits
    rw [ht] at hend
    obtain ⟨hcompleted, hoverflowed⟩ := hend.after (s := s.advanced k) hfits
    exact ⟨u, .of_step (hstep.step_of_fits hfits) hreach, hcompleted, hoverflowed⟩
  · exact .of_overflow hstep (not_le.1 hfits)

/-- A valid state in the middle of a compression. -/
structure QoiCoding (s : State) : Prop where
  valid : s.Inv
  running : QoiRunning s

theorem QoiCoding.compressOk (h : QoiCoding s) : CompressOk s :=
  (h.valid.operation h.running.busy).compress h.running.opcode

theorem QoiCoding.pixel_step (h : QoiCoding s) (hmore : s.work.qoi.pixn.toNat < s.lat.n.toNat) :
    WritesOrOverflows s (s.work.qoi.bytesFor s.lat.den s.pixelHere) s.pixelCoded :=
  h.running.pixel_step hmore h.compressOk.runRange.1 h.valid.outFits

/-- A pixel leaves a compression going on. -/
theorem QoiCoding.next (h : QoiCoding s) (hstep : step s = .next s.pixelCoded) : QoiCoding s.pixelCoded :=
  ⟨everyStepKeepsValidity s _ h.valid hstep, h.running.pixelCoded⟩

/-- Behind the last pixel the cursor is at `LEN`. -/
theorem QoiCoding.inPos_at_end (h : QoiCoding s) (hend : s.lat.n.toNat ≤ s.work.qoi.pixn.toNat) :
    s.inPos = s.lat.len := by
  have hcursor := h.compressOk.cursor
  have hpixels := h.compressOk.pixels
  have hlen := (h.valid.operation h.running.busy).pixelInput (.inl h.running.opcode)
  exact BitVec.eq_of_toNat_eq (by omega)

theorem bmpFinish_wrote (hend : s.inPos = s.lat.len) (bs : List Byte) (allt : Bool) (work : Work) :
    bmpFinish (s.wrote bs allt work) = (s.wrote bs allt work).complete := by
  rw [bmpFinish, show (s.wrote bs allt work).lat.len = s.inPos from hend.symm]
  rfl

/-- The pixels to come are read one by one, and the end step writes what is left (R223, R232). -/
theorem QoiCoding.finishes (h : QoiCoding s) (hn : s.lat.n.toNat - s.work.qoi.pixn.toNat < n) :
    FinishesWriting n s (s.work.qoi.toCome s.lat.den (pixelsLeft s)) (s.allt = true) := by
  induction n generalizing s with
  | zero => exact absurd hn (Nat.not_lt_zero _)
  | succ n ih =>
    by_cases hmore : s.work.qoi.pixn.toNat < s.lat.n.toNat
    case pos =>
      have hstep := h.pixel_step hmore
      have hless : s.pixelCoded.lat.n.toNat - s.pixelCoded.work.qoi.pixn.toNat < n := by
        rw [pixelCoded_lat, pixelCoded_pixn hmore]; omega
      rw [pixelsLeft_of_more hmore h.compressOk.cursor, toCome_cons h.compressOk.runRange.1]
      refine .of_reading_step 4 rfl hstep fun hfits => ?_
      have hrest := ih (h.next (hstep.step_of_fits hfits)) hless
      rwa [pixelCoded_lat, pixelCoded_qoi, pixelCoded_allt] at hrest
    case neg =>
      have hend := not_lt.1 hmore
      have hstep := h.running.end_step hend h.valid.outFits
      rw [← bmpFinish_wrote (h.inPos_at_end hend)] at hstep
      rw [pixelsLeft_of_end hend]
      exact .of_last hstep Iff.rfl

/-- A compression that has read nothing writes the stream of R236. -/
theorem QoiCoding.finishes_from_start (h : QoiCoding s) (hstart : s.work.qoi = qoiStartRegs 0#6) :
    FinishesWriting (s.lat.n.toNat + 1) s (qoiCompress s.lat.den (inPixels s s.lat.n.toNat)) (s.allt = true) := by
  have hpixels : pixelsLeft s = inPixels s s.lat.n.toNat := by
    rw [pixelsLeft, hstart, inPixels, List.range_eq_range']
    rfl
  have hfinishes := h.finishes (n := s.lat.n.toNat + 1) (by omega)
  rwa [hpixels, hstart] at hfinishes

/-- Settles O46: the started operation writes the stream, by `QoiCoding.finishes_from_start`. -/
theorem qoiCompressWritesTheStream : Obligations.QoiCompressWritesTheStream := by
  intro s t h hb hhost hdim hlen hexec n stream
  have hvalid : t.Inv := exec_cmd_keeps_inv rfl h hexec
  obtain ⟨hstart, -⟩ := qoiCommandsStart s hb hlen
  obtain rfl : _ = t := Host.Outcome.next.inj ((hstart hdim).symm.trans hexec)
  have hcoding : QoiCoding _ := ⟨hvalid, rfl, hhost, rfl, rfl⟩
  obtain ⟨u, hreach, hend⟩ := hcoding.finishes_from_start rfl
  rw [(hvalid.operation rfl).count] at hreach hend
  refine ⟨u, hreach, hend.idle, fun hfits => ?_, hend.fault⟩
  obtain ⟨hdone, herr, hout, hpos, -⟩ := hend.result rfl rfl rfl hfits
  exact ⟨hdone, herr, hout, hpos⟩

end Run

end Sys2Proof.Machine
end

section
/-! ## What the chunks do (44_qoi_decompress.md R254 to R262) -/

namespace Sys2Proof.Machine

open Functions

section Chunks

variable {s : State} {p : Pixel} {i : Instr} {bs : List Byte} {j k n : Nat}

/-! ### Pixels in OUT (20_memory.md R63) -/

/-- The four bytes of `p` stand in the memory from address `a` on. -/
def Memory.HoldsPixel (m : Memory) (a : Nat) (p : Pixel) : Prop :=
  m.read a = some p.r ∧ m.read (a + 1) = some p.g ∧ m.read (a + 2) = some p.b ∧ m.read (a + 3) = some p.a

theorem State.appended_read_at (s : State) {v : Byte} (hv : bs[k]? = some v) :
    (s.appended bs).outMem.read (s.outLen.toNat + k) = some v := by
  obtain ⟨hk, -⟩ := List.getElem?_eq_some_iff.1 hv
  rw [State.appended_outMem, Memory.read_writeAll, if_pos (by omega), Nat.add_sub_cancel_left, hv]

/-- A pixel among the bytes appended stands at its place behind the old output. -/
theorem State.appended_holdsPixel (s : State) (hp : ∀ j, j < 4 → bs[k + j]? = (pixelBytesOf p)[j]?) :
    (s.appended bs).outMem.HoldsPixel (s.outLen.toNat + k) p :=
  ⟨s.appended_read_at (hp 0 (by decide)), s.appended_read_at (hp 1 (by decide)), s.appended_read_at (hp 2 (by decide)),
    s.appended_read_at (hp 3 (by decide))⟩

theorem repeatPixel_getElem? (hk : k < n) (hj : j < 4) : (repeatPixel n p)[4 * k + j]? = (pixelBytesOf p)[j]? := by
  induction k generalizing n with
  | zero =>
    obtain ⟨m, rfl⟩ := Nat.exists_eq_add_of_lt hk
    rw [repeatPixel_succ, Nat.mul_zero, Nat.zero_add j, List.getElem?_append_left hj]
  | succ k ih =>
    obtain ⟨m, rfl⟩ := Nat.exists_eq_add_of_le' (Nat.one_le_of_lt hk)
    rw [repeatPixel_succ, List.getElem?_append_right (by rw [pixelBytesOf_length]; omega), pixelBytesOf_length,
      show 4 * (k + 1) + j - 4 = 4 * k + j by omega]
    exact ih (Nat.lt_of_succ_lt_succ hk)

/-! ### One pixel (R260, R262) -/

theorem writeOne_fits (hroom : s.outLen.toNat + 4 ≤ s.cfg.outCap.toNat) : writeOne p s = .ok (s.wrotePixel p) := by
  rcases writeOne_cases (p := p) (Nat.le_of_add_right_le hroom) with ⟨-, e⟩ | ⟨hfull, -⟩
  · exact e
  · omega

/-- A chunk other than `RUN` writes the pixel it denotes (R254 to R258). -/
theorem exec_chunk_pixel (hi : i.format = .chunk) (hrun : ∀ n, i ≠ .run n)
    (hroom : s.outLen.toNat + 4 ≤ s.cfg.outCap.toNat) :
    exec i s = .next (s.wrotePixel (chunkPixel s.work.qoi.prevpx s.work.qoi.cache i)) := by
  have hexec : exec i s = .next (settle s (writeOne (chunkPixel s.work.qoi.prevpx s.work.qoi.cache i) s)) := by
    cases i with
    | rgb r g b => exact execRgb_eq r g b s
    | rgba r g b a => exact execRgba_eq r g b a s
    | index idx => exact execIndex_eq idx s
    | diff dr dg db => exact execDiff_eq dr dg db s
    | luma dg drDg dbDg => exact execLuma_eq dg drDg dbDg s
    | run n => exact absurd rfl (hrun n)
    | nop | lzwCompress | qoiCompress | qoiDecompress | bmpEncode24 | bmpEncode32 | ack | abort | reservedCmd => cases hi
  rw [hexec, writeOne_fits hroom, settle_ok]

/-- Settles O25. -/
theorem rgbAndRgbaWriteTheirPixel : Obligations.RgbAndRgbaWriteTheirPixel :=
  fun _ _ _ _ _ hroom => ⟨exec_chunk_pixel rfl nofun hroom, exec_chunk_pixel rfl nofun hroom⟩

/-- Settles O26. -/
theorem indexWritesTheCachedPixel : Obligations.IndexWritesTheCachedPixel :=
  fun _ _ hroom => exec_chunk_pixel rfl nofun hroom

/-- Settles O27: each channel by `channelAdd_toNat`. -/
theorem diffMovesPixelModulo256 : Obligations.DiffMovesPixelModulo256 :=
  fun _ _ _ _ hroom =>
    ⟨_, exec_chunk_pixel rfl nofun hroom, channelAdd_toNat .., channelAdd_toNat .., channelAdd_toNat .., rfl⟩

/-- Settles O28: each channel by `channelAdd_toNat`. -/
theorem lumaMovesPixelModulo256 : Obligations.LumaMovesPixelModulo256 :=
  fun _ _ _ _ hroom =>
    ⟨_, exec_chunk_pixel rfl nofun hroom, channelAdd_toNat .., channelAdd_toNat .., channelAdd_toNat .., rfl⟩

/-- What every slot holds after a write to the slot of `p` (R39). -/
theorem cacheWrite_get (c : Vector Pixel 64) (p : Pixel) (i : Fin 64) :
    (cacheWrite c (qhash p) p).get i =
      if i.val = (p.r.toNat * 3 + p.g.toNat * 5 + p.b.toNat * 7 + p.a.toNat * 11) % 64 then p else c.get i := by
  rw [← qhash_toNat]
  simp only [cacheWrite, Vector.get_eq_getElem, Vector.getElem_set, eq_comm (a := i.val)]

/-- Settles O30: the writes to OUT are those of the four bytes, the write to the cache that of one slot. -/
theorem wrotePixelUpdatesOutputAndCache : Obligations.WrotePixelUpdatesOutputAndCache := by
  intro s p hroom t
  have hcap := s.cfg.outCap.isLt
  have hlen : t.outLen.toNat = s.outLen.toNat + 4 :=
    s.appended_outLen_toNat (pixelBytesOf p) (by rw [pixelBytesOf_length]; omega)
  obtain ⟨hr, hg, hb, ha⟩ : t.outMem.HoldsPixel s.outLen.toNat p :=
    s.appended_holdsPixel (k := 0) fun j _ => by rw [Nat.zero_add]
  exact ⟨writeOne_fits hroom, hlen, hr, hg, hb, ha, fun a h => Memory.read_writeAll_outside _ _ h, rfl, rfl, rfl,
    cacheWrite_get _ p, rfl⟩

/-! ### A run (R259) -/

theorem exec_run_fits (hn : s.work.qoi.pixn.toNat + n ≤ s.lat.n.toNat)
    (hroom : s.outLen.toNat + 4 * n ≤ s.cfg.outCap.toNat) : exec (.run n) s = .next (s.wroteRun n) := by
  rcases writeRun_cases (n := n) (Nat.le_of_add_right_le hroom) with ⟨-, -, e⟩ | ⟨-, hfull, -⟩ | ⟨hmore, -⟩
  · rw [execRun_eq, e, settle_ok]
  · omega
  · omega

theorem exec_run_overshoots (hn : s.lat.n.toNat < s.work.qoi.pixn.toNat + n) :
    exec (.run n) s = .next (raise ⟨.decodeError, s.inPos - 1#32⟩ s) := by
  rw [execRun_eq, writeRun, if_pos hn, settle_error]

theorem wroteRun_outLen (hroom : s.outLen.toNat + 4 * n ≤ s.cfg.outCap.toNat) :
    (s.wroteRun n).outLen.toNat = s.outLen.toNat + 4 * n := by
  have hcap := s.cfg.outCap.isLt
  have hlen := s.appended_outLen_toNat (repeatPixel n s.work.qoi.prevpx) (by rw [repeatPixel_length]; omega)
  rwa [repeatPixel_length] at hlen

theorem wroteRun_pixn (hn : s.work.qoi.pixn.toNat + n ≤ s.lat.n.toNat) :
    (s.wroteRun n).work.qoi.pixn.toNat = s.work.qoi.pixn.toNat + n := by
  have hlimit := s.lat.n.isLt
  simp only [State.wroteRun, State.setQoi_work, BitVec.toNat_add, BitVec.toNat_ofNat]
  omega

/-- Settles O29. -/
theorem runRepeatsPreviousPixel : Obligations.RunRepeatsPreviousPixel := by
  refine fun s n => ⟨fun hn hroom => ⟨exec_run_fits hn hroom, wroteRun_outLen hroom, wroteRun_pixn hn, rfl, rfl,
    fun k hk => ?_, fun a ha => ?_⟩, exec_run_overshoots⟩
  · exact s.appended_holdsPixel fun j hj => repeatPixel_getElem? hk hj
  · exact Memory.read_writeAll_outside _ _ (by rwa [repeatPixel_length])

end Chunks

end Sys2Proof.Machine
end

section
/-! ## The steps of QOI_DECOMPRESS (44_qoi_decompress.md R252, R253)

The fetch takes the tag byte and the payload the tag asks for. These are the bytes the decoder takes from the input not yet
read, so a step of the machine and the decoder read the same chunk, or both find it cut short. -/

namespace Sys2Proof.Machine

open Functions

section Steps

variable {s t : State} {i : Instr} {bs rest : List Byte} {k m : Nat}

/-- A `QOI_DECOMPRESS` in progress that the host leaves to itself. -/
structure DecompressRunning (s : State) : Prop where
  busy : s.busy = true
  alone : s.host = []
  unraced : s.inRaced = false
  opcode : s.lat.opl = 3#4

theorem DecompressRunning.step_eq (h : DecompressRunning s) : step s = qoiDecompressStep s := by
  simp [step_of_no_host h.alone, engineTurn, h.busy, h.unraced, opStep, h.opcode]

theorem DecompressRunning.step_chunk (h : DecompressRunning s) (hmore : s.work.qoi.pixn.toNat < s.lat.n.toNat) :
    step s = chunkStep s := by
  rw [h.step_eq, qoiDecompressStep, if_pos hmore]

theorem DecompressRunning.step_complete (h : DecompressRunning s) (hend : s.lat.n.toNat ≤ s.work.qoi.pixn.toNat) :
    step s = .next s.complete := by
  rw [h.step_eq, qoiDecompressStep, if_neg (not_lt.2 hend)]

/-! ### The fetch -/

/-- The length of the chunk at the cursor, by its tag byte (R94, R101). -/
def State.chunkLength (s : State) : Nat := 1 + payloadLength (inByte s s.inPos.toNat)

theorem fetchChunk_of_room (h : s.inPos.toNat + s.chunkLength ≤ s.lat.len.toNat) :
    fetchChunk s = .ok (s.ahead s.chunkLength, s.advanced s.chunkLength) := by
  have hmore : s.inPos.toNat < s.lat.len.toNat := by rw [State.chunkLength] at h; omega
  have hfetch : fetchChunk s = nextBytes s.chunkLength s := by
    rw [fetchChunk, State.chunkLength, Nat.add_comm, nextBytes_succ, next_ok hmore]
    rfl
  rw [hfetch, nextBytes_ok h]

theorem fetchChunk_truncated (hcursor : s.inPos.toNat ≤ s.lat.len.toNat)
    (h : s.lat.len.toNat < s.inPos.toNat + s.chunkLength) : fetchChunk s = .error ⟨.decodeError, s.lat.len⟩ := by
  rcases fetchChunk_cases hcursor with ⟨k, hk, hroom, -⟩ | e
  · rw [State.chunkLength] at h
    omega
  · exact e

theorem chunkStep_truncated (hcursor : s.inPos.toNat ≤ s.lat.len.toNat)
    (h : s.lat.len.toNat < s.inPos.toNat + s.chunkLength) :
    chunkStep s = .next (raise ⟨.decodeError, s.lat.len⟩ s) := by
  rw [chunkStep, fetchChunk_truncated hcursor h]

/-- Settles O32: at the end of the input, and with the payload cut short. -/
theorem truncatedChunkRaisesDecodeError : Obligations.TruncatedChunkRaisesDecodeError := by
  intro s hhost hb hr hopl hmore hmissing
  rw [DecompressRunning.step_chunk ⟨hb, hhost, hr, hopl⟩ hmore]
  rcases hmissing with hend | ⟨hcursor, hshort⟩
  · exact chunkStep_truncated (hend ▸ le_rfl) (by rw [hend, State.chunkLength]; omega)
  · exact chunkStep_truncated hcursor.le (by rw [State.chunkLength, ← Nat.add_assoc]; exact hshort)

/-! ### The decoder -/

/-- A chunk that is read is its tag byte and the payload the tag asks for (R94, R101). -/
theorem encode_chunk (hi : i.format = .chunk) (hwf : i.WellFormed) :
    ∃ tag payload, encode i = tag :: payload ∧ payload.length = payloadLength tag := by
  cases i with
  | rgb r g b => exact Laws.EncodedLength.rgb r g b hwf
  | rgba r g b a => exact Laws.EncodedLength.rgba r g b a hwf
  | index idx => exact Laws.EncodedLength.index idx hwf
  | diff dr dg db => exact Laws.EncodedLength.diff dr dg db hwf
  | luma dg drDg dbDg => exact Laws.EncodedLength.luma dg drDg dbDg hwf
  | run n => exact Laws.EncodedLength.run n hwf
  | nop | lzwCompress | qoiCompress | qoiDecompress | bmpEncode24 | bmpEncode32 | ack | abort | reservedCmd => cases hi

theorem State.ahead_length (s : State) (k : Nat) : (s.ahead k).length = k := by
  rw [State.ahead, List.length_map, List.length_range]

theorem State.ahead_add (s : State) (hk : s.inPos.toNat + k < 2 ^ 32) (m : Nat) :
    s.ahead (k + m) = s.ahead k ++ (s.advanced k).ahead m := by
  simp only [State.ahead, List.range_add, List.map_append, List.map_map, s.advanced_toNat k hk, inByte_advanced,
    Function.comp_def, Nat.add_assoc]

theorem State.head_of_ahead {tag : Byte} (h : s.ahead k = tag :: bs) : tag = inByte s s.inPos.toNat := by
  cases k with
  | zero => cases h
  | succ k =>
    rw [State.ahead, List.range_succ_eq_map, List.map_cons] at h
    exact (List.head_eq_of_cons_eq h).symm

/-- What the decoder takes of the bytes at the cursor is the chunk there. -/
theorem State.chunkLength_of_decode (h : decodeChunk (s.ahead m) = .ok (i, rest)) :
    (encode i).length = s.chunkLength ∧ m = s.chunkLength + rest.length := by
  obtain ⟨hwf, hi, hbytes⟩ := decode_eq_ok_iff (f := .chunk).1 h
  obtain ⟨tag, payload, henc, hpayload⟩ := encode_chunk hi hwf
  have hlen := congrArg List.length hbytes
  rw [henc, List.cons_append] at hbytes
  rw [State.head_of_ahead hbytes.symm] at hpayload
  rw [List.length_append, State.ahead_length] at hlen
  rw [← hlen, henc, List.length_cons, hpayload, State.chunkLength, Nat.add_comm 1]
  exact ⟨rfl, rfl⟩

theorem exec_chunk_next (hi : i.format = .chunk) (s : State) : ∃ t, exec i s = .next t := by
  rcases exec_chunk_writes hi s with ⟨n, rfl⟩ | ⟨-, p, hexec⟩
  · exact ⟨_, execRun_eq n s⟩
  · exact ⟨_, hexec⟩

/-- A step that fetches its chunk whole executes it with the cursor behind it (R253). -/
theorem chunkStep_fetched (hroom : s.inPos.toNat + s.chunkLength ≤ s.lat.len.toNat)
    (hdec : decode .chunk (s.ahead s.chunkLength) = .ok (i, [])) (hexec : exec i (s.advanced s.chunkLength) = .next t) :
    chunkStep s = .next (finishDecompress t) := by
  simp only [chunkStep, fetchChunk_of_room hroom, hdec, hexec]

/-- Settles O8: the `k` bytes decoded are those the tag asks for. -/
theorem stepRunsFetchedChunk : Obligations.StepRunsFetchedChunk := by
  intro s i k hhost hb hr hopl hmore hroom hdec
  obtain ⟨-, rfl⟩ := State.chunkLength_of_decode (m := k) hdec
  obtain ⟨t, hexec⟩ := exec_chunk_next (decodeChunk_format hdec) (s.advanced s.chunkLength)
  rw [DecompressRunning.step_chunk ⟨hb, hhost, hr, hopl⟩ hmore, chunkStep_fetched hroom hdec hexec]
  rw [State.advanced] at hexec
  simp only [List.length_nil, Nat.add_zero, hexec]
  rfl

/-- The input not yet read. -/
def State.inputLeft (s : State) : List Byte := s.ahead (s.lat.len.toNat - s.inPos.toNat)

theorem inputLeft_of_room (hk : s.inPos.toNat + k ≤ s.lat.len.toNat) :
    s.inputLeft = s.ahead k ++ (s.advanced k).inputLeft := by
  have hlen := s.lat.len.isLt
  have hleft : s.lat.len.toNat - s.inPos.toNat = k + (s.lat.len.toNat - (s.inPos.toNat + k)) := by omega
  rw [State.inputLeft, hleft, s.ahead_add (by omega), State.inputLeft, s.advanced_toNat k (by omega)]
  rfl

/-- The chunk `i` stands at the cursor: the decoder reads it from the input not yet read, and a step executes it (R253). -/
structure ChunkHere (s : State) (i : Instr) : Prop where
  room : s.inPos.toNat + (encode i).length ≤ s.lat.len.toNat
  decoded : decodeChunk s.inputLeft = .ok (i, (s.advanced (encode i).length).inputLeft)
  executed : ∀ t, exec i (s.advanced (encode i).length) = .next t → chunkStep s = .next (finishDecompress t)

/-- No whole chunk stands at the cursor, and decoder and machine say so (R253, R285 a). -/
structure ChunkCutShort (s : State) : Prop where
  refused : ∃ e, decodeChunk s.inputLeft = .error e
  faults : chunkStep s = .next (raise ⟨.decodeError, s.lat.len⟩ s)

theorem chunkHere_or_cutShort (hcursor : s.inPos.toNat ≤ s.lat.len.toNat) :
    (∃ i, ChunkHere s i) ∨ ChunkCutShort s := by
  by_cases hroom : s.inPos.toNat + s.chunkLength ≤ s.lat.len.toNat
  case pos =>
    obtain ⟨i, hdec, hi⟩ := fetchChunk_decodes hcursor (fetchChunk_of_room hroom)
    obtain ⟨hlen, -⟩ := State.chunkLength_of_decode hdec
    obtain ⟨hwf, -, hbytes⟩ := decode_eq_ok_iff.1 hdec
    rw [List.append_nil] at hbytes
    refine .inl ⟨i, by rwa [hlen], ?_, fun t hexec => chunkStep_fetched hroom hdec (hlen ▸ hexec)⟩
    rw [hlen, inputLeft_of_room hroom, ← hbytes]
    exact decodeChunk_encode hi hwf
  case neg =>
    refine .inr ⟨?_, chunkStep_truncated hcursor (not_le.1 hroom)⟩
    cases hdec : decodeChunk s.inputLeft with
    | error e => exact ⟨e, rfl⟩
    | ok read =>
      obtain ⟨-, hleft⟩ := State.chunkLength_of_decode hdec
      omega

end Steps

end Sys2Proof.Machine
end

section
/-! ## The whole of QOI_DECOMPRESS (44_qoi_decompress.md R251 to R265)

At every point of the operation the function of R264, run on the registers and the input not yet read, says what is still to
come. A step of the machine does what one round of the function's recursion does: it writes the pixels of a chunk, or raises
`DecodeError`. -/

namespace Sys2Proof.Machine

open Functions

section Run

variable {s t u : State} {i : Instr} {ps : List Pixel} {r : DecodeResult} {fuel k n : Nat}

/-- What decoding comes to from here on (R264). -/
def State.toDecode (fuel : Nat) (s : State) : DecodeResult :=
  qoiPixelsFrom fuel (s.lat.n.toNat - s.work.qoi.pixn.toNat) s.work.qoi.prevpx s.work.qoi.cache s.inPos.toNat s.inputLeft

theorem toDecode_done (hend : s.lat.n.toNat ≤ s.work.qoi.pixn.toNat) : s.toDecode fuel = .ok [] s.inPos.toNat := by
  rw [State.toDecode, Nat.sub_eq_zero_of_le hend, qoiPixelsFrom_done]

theorem toDecode_truncated (hmore : s.work.qoi.pixn.toNat < s.lat.n.toNat) (hcursor : s.inPos.toNat ≤ s.lat.len.toNat)
    {e : Reject} (hdec : decodeChunk s.inputLeft = .error e) : s.toDecode (fuel + 1) = .decodeError s.lat.len.toNat := by
  rw [State.toDecode, qoiPixelsFrom, if_neg (by omega), hdec, State.inputLeft, State.ahead_length,
    Nat.add_sub_of_le hcursor]

/-- How far the decoder comes with the chunk at the cursor. -/
theorem advanced_cursor (hk : s.inPos.toNat + k ≤ s.lat.len.toNat) :
    s.inPos.toNat + (s.inputLeft.length - (s.advanced k).inputLeft.length) = (s.advanced k).inPos.toNat := by
  have hlen := s.lat.len.isLt
  rw [inputLeft_of_room hk, List.length_append, State.ahead_length, Nat.add_sub_cancel, s.advanced_toNat k (by omega)]

/-! ### The middle of the operation -/

/-- What the operation keeps while it runs. -/
structure Decoding (s : State) : Prop where
  running : DecompressRunning s
  cursor : s.inPos.toNat ≤ s.lat.len.toNat
  registers : DecompressOk s

/-- Pixels written by the chunk at the cursor leave the operation going on. -/
theorem Decoding.of_chunkWrote (h : Decoding s) (hmore : s.work.qoi.pixn.toNat < s.lat.n.toNat)
    (hk : s.inPos.toNat + k ≤ s.lat.len.toNat) (hw : ChunkWrote (s.advanced k) t) : Decoding t := by
  have hlen := s.lat.len.isLt
  obtain ⟨hfits, hpixels, houtput, hcache⟩ := h.registers
  refine ⟨?_, ?_, DecompressOk.of_chunkWrote (s := s.advanced k) ⟨hfits, hpixels, houtput, hcache⟩ hmore hw⟩
  · obtain ⟨hb, hhost, hr, hopl⟩ := h.running
    rcases hw with ⟨p, -, rfl⟩ | ⟨n, -, -, rfl⟩ <;> exact ⟨hb, hhost, hr, hopl⟩
  · rw [hw.inPos_eq, hw.appends.lat_eq, s.advanced_toNat k (by omega)]
    exact hk

/-- There is room for every pixel of the picture (R250, R265). -/
theorem Decoding.room (h : Decoding s) (hn : s.work.qoi.pixn.toNat + n ≤ s.lat.n.toNat) :
    s.outLen.toNat + 4 * n ≤ s.cfg.outCap.toNat := by
  have hfits := h.registers.fits
  have houtput := h.registers.output
  omega

/-! ### One step -/

/-- A step from `s` that writes the pixels `ps`, and the state `t` before the loop looks for its end (R252): the function
gives these pixels too, and goes on as from `t`. -/
structure DecodesPixels (s : State) (ps : List Pixel) (t : State) : Prop where
  step : step s = .next (finishDecompress t)
  written : ∃ k work, t = (s.advanced k).wrote (ps.flatMap pixelBytesOf) s.allt work
  fits : s.outLen.toNat + (ps.flatMap pixelBytesOf).length ≤ s.cfg.outCap.toNat
  fewer : t.lat.n.toNat - t.work.qoi.pixn.toNat < s.lat.n.toNat - s.work.qoi.pixn.toNat
  decoding : Decoding t
  result : ∀ fuel, s.toDecode (fuel + 1) = (t.toDecode fuel).after ps

/-- A step from `s` that raises `DecodeError` where the function says so. -/
def DecodeFails (s : State) : Prop :=
  ∃ info : Word, step s = .next (raise ⟨.decodeError, info⟩ s) ∧
    ∀ fuel, s.toDecode (fuel + 1) = .decodeError info.toNat

/-- A chunk other than `RUN` (R254 to R258). -/
theorem Decoding.pixel_step (h : Decoding s) (hmore : s.work.qoi.pixn.toNat < s.lat.n.toNat) (hi : ChunkHere s i)
    (hrun : ∀ n, i ≠ .run n) :
    let p := chunkPixel s.work.qoi.prevpx s.work.qoi.cache i
    DecodesPixels s [p] ((s.advanced (encode i).length).wrotePixel p) := by
  intro p
  have hn := s.lat.n.isLt
  obtain ⟨hroom, hdec, hstep⟩ := hi
  have hout : s.outLen.toNat + 4 ≤ s.cfg.outCap.toNat := h.room (n := 1) hmore
  have hpixn : (s.work.qoi.pixn + 1#32).toNat = s.work.qoi.pixn.toNat + 1 :=
    BitVec.toNat_add_of_lt (by rw [BitVec.toNat_ofNat]; omega)
  constructor
  case step => exact (h.running.step_chunk hmore).trans (hstep _ (exec_chunk_pixel (decodeChunk_format hdec) hrun hout))
  case written => exact ⟨_, _, rfl⟩
  case fits => exact hout
  case fewer =>
    change s.lat.n.toNat - (s.work.qoi.pixn + 1#32).toNat < _
    omega
  case decoding => exact h.of_chunkWrote hmore hroom (.inl ⟨p, hout, rfl⟩)
  case result =>
    intro fuel
    rw [State.toDecode, qoiPixelsFrom_pixel (by omega) hdec hrun rfl, advanced_cursor hroom, Nat.sub_sub, ← hpixn]
    rfl

/-- A `RUN` (R259). -/
theorem Decoding.run_step (h : Decoding s) (hmore : s.work.qoi.pixn.toNat < s.lat.n.toNat) (hi : ChunkHere s (.run n))
    (hn : s.work.qoi.pixn.toNat + n ≤ s.lat.n.toNat) :
    DecodesPixels s (List.replicate n s.work.qoi.prevpx) ((s.advanced 1).wroteRun n) := by
  obtain ⟨hroom, hdec, hstep⟩ := hi
  obtain ⟨hwf, -⟩ := decodeChunk_reads hdec
  obtain ⟨hpos, -⟩ : 1 ≤ n ∧ n ≤ 62 := of_decide_eq_true hwf
  have hout := h.room hn
  have hpixn : ((s.advanced 1).wroteRun n).work.qoi.pixn.toNat = s.work.qoi.pixn.toNat + n :=
    wroteRun_pixn (s := s.advanced 1) hn
  have hbytes : (List.replicate n s.work.qoi.prevpx).flatMap pixelBytesOf = repeatPixel n s.work.qoi.prevpx :=
    List.flatMap_replicate
  constructor
  case step => exact (h.running.step_chunk hmore).trans (hstep _ (exec_run_fits hn hout))
  case written => exact ⟨1, _, by rw [hbytes]; rfl⟩
  case fits => rwa [hbytes, repeatPixel_length]
  case fewer =>
    rw [hpixn]
    change s.lat.n.toNat - _ < _
    omega
  case decoding => exact h.of_chunkWrote hmore hroom (.inr ⟨n, hn, hout, rfl⟩)
  case result =>
    intro fuel
    rw [State.toDecode, qoiPixelsFrom_run (by omega) hdec, if_neg (by omega), advanced_cursor hroom, Nat.sub_sub, ← hpixn]
    rfl

/-- A `RUN` of more pixels than remain faults at its tag (R259). -/
theorem Decoding.run_fails (h : Decoding s) (hmore : s.work.qoi.pixn.toNat < s.lat.n.toNat) (hi : ChunkHere s (.run n))
    (hn : s.lat.n.toNat < s.work.qoi.pixn.toNat + n) : DecodeFails s := by
  obtain ⟨-, hdec, hstep⟩ := hi
  have hraise :
      raise ⟨.decodeError, (s.advanced 1).inPos - 1#32⟩ (s.advanced 1) = raise ⟨.decodeError, s.inPos⟩ s := by
    rw [show (s.advanced 1).inPos - 1#32 = s.inPos from BitVec.add_sub_cancel _ _]
    rfl
  refine ⟨s.inPos, ?_, fun fuel => ?_⟩
  · rw [h.running.step_chunk hmore, hstep _ (exec_run_overshoots (s := s.advanced 1) hn), hraise]
    rfl
  · rw [State.toDecode, qoiPixelsFrom_run (by omega) hdec, if_pos (by omega)]

/-- One step of the machine and one round of the function's recursion, for whatever stands at the cursor. -/
theorem Decoding.chunk_step (h : Decoding s) (hmore : s.work.qoi.pixn.toNat < s.lat.n.toNat) :
    (∃ ps t, DecodesPixels s ps t) ∨ DecodeFails s := by
  rcases chunkHere_or_cutShort h.cursor with ⟨i, hi⟩ | ⟨⟨e, hdec⟩, hfault⟩
  case inl =>
    by_cases hrun : ∃ n, i = .run n
    case pos =>
      obtain ⟨n, rfl⟩ := hrun
      rcases Nat.lt_or_ge s.lat.n.toNat (s.work.qoi.pixn.toNat + n) with hover | hn
      · exact .inr (h.run_fails hmore hi hover)
      · exact .inl ⟨_, _, h.run_step hmore hi hn⟩
    case neg => exact .inl ⟨_, _, h.pixel_step hmore hi (not_exists.1 hrun)⟩
  case inr =>
    exact .inr ⟨s.lat.len, (h.running.step_chunk hmore).trans hfault, fun _ => toDecode_truncated hmore h.cursor hdec⟩

/-! ### The run to the end -/

/-- `u` ends an operation whose decoding comes to a result at `s`: with the pixels behind the output of `s` and the cursor
behind the last chunk, or in `DecodeError` (R263, R264). -/
def EndsDecoding (s : State) : DecodeResult → State → Prop
  | .ok ps consumed, u =>
    u.inPos.toNat = consumed ∧
      u = { s.wrote (ps.flatMap pixelBytesOf) u.allt u.work with inPos := u.inPos, busy := false, done := true }
  | .decodeError position, u => ∃ info q, info.toNat = position ∧ u = raise ⟨.decodeError, info⟩ q

/-- What the chunk wrote counts. -/
theorem DecodesPixels.endsDecoding (h : DecodesPixels s ps t) (hend : EndsDecoding t r u) :
    EndsDecoding s (r.after ps) u := by
  have hcap := s.cfg.outCap.isLt
  have hfits := h.fits
  obtain ⟨k, work, rfl⟩ := h.written
  cases r with
  | decodeError position => exact hend
  | ok qs consumed =>
    obtain ⟨hpos, hu⟩ := hend
    refine ⟨hpos, ?_⟩
    rw [List.flatMap_append, State.wrote, ← State.appended_append s _ _ (by omega)]
    exact hu

theorem EndsDecoding.idle (h : EndsDecoding s r u) : u.busy = false := by
  cases r with
  | ok ps consumed =>
    obtain ⟨-, hu⟩ := h
    rw [hu]
  | decodeError position =>
    obtain ⟨info, q, -, rfl⟩ := h
    rfl

theorem finishDecompress_of_more (hmore : s.work.qoi.pixn.toNat < s.lat.n.toNat) : finishDecompress s = s :=
  if_neg fun h => not_le.2 hmore h.2

theorem finishDecompress_of_end (hb : s.busy = true) (hend : s.lat.n.toNat ≤ s.work.qoi.pixn.toNat) :
    finishDecompress s = s.complete := if_pos ⟨hb, hend⟩

theorem Decoding.finished (h : Decoding s) (hend : s.lat.n.toNat ≤ s.work.qoi.pixn.toNat) (n : Nat) :
    ∃ u, Reaches n (finishDecompress s) u ∧ EndsDecoding s (s.toDecode n) u := by
  rw [finishDecompress_of_end h.running.busy hend, toDecode_done hend]
  refine ⟨s.complete, .refl n _, rfl, ?_⟩
  rw [List.flatMap_nil, State.wrote, State.appended_nil]
  rfl

/-- Every step takes a chunk off the input and off the function's recursion (R252). -/
theorem Decoding.finishes (h : Decoding s) (hn : s.lat.n.toNat - s.work.qoi.pixn.toNat ≤ n) :
    ∃ u, Reaches n (finishDecompress s) u ∧ EndsDecoding s (s.toDecode n) u := by
  induction n generalizing s with
  | zero => exact h.finished (by omega) 0
  | succ n ih =>
    rcases Nat.lt_or_ge s.work.qoi.pixn.toNat s.lat.n.toNat with hmore | hend
    · rw [finishDecompress_of_more hmore]
      rcases h.chunk_step hmore with ⟨ps, t, ht⟩ | ⟨info, hstep, hresult⟩
      · obtain ⟨u, hreach, hend⟩ := ih ht.decoding (Nat.le_of_lt_succ (ht.fewer.trans_le hn))
        exact ⟨u, .of_step ht.step hreach, ht.result n ▸ ht.endsDecoding hend⟩
      · exact ⟨_, .of_step hstep (.refl n _), hresult n ▸ ⟨info, s, rfl, rfl⟩⟩
    · exact h.finished hend (n + 1)

/-- The loop looks for its end before the first chunk too, in a step of its own (R252). -/
theorem Decoding.reaches_of_finish (h : Decoding s) (hreach : Reaches n (finishDecompress s) u) : Reaches (n + 1) s u := by
  rcases Nat.lt_or_ge s.work.qoi.pixn.toNat s.lat.n.toNat with hmore | hend
  · rw [finishDecompress_of_more hmore] at hreach
    obtain ⟨k, hk, hrun⟩ := hreach
    exact ⟨k, Nat.le_succ_of_le hk, hrun⟩
  · rw [finishDecompress_of_end h.running.busy hend] at hreach
    exact .of_step (h.running.step_complete hend) hreach

/-- A valid state of a decompressor left to itself is in the middle of the operation. -/
theorem State.Inv.decoding (h : s.Inv) (hrun : DecompressRunning s) : Decoding s :=
  ⟨hrun, (h.operation hrun.busy).cursor, (h.operation hrun.busy).decompress hrun.opcode⟩

/-- From the start state the function is that of R264 over the whole input (R251). -/
theorem toDecode_start (hpos : s.inPos = 0#32) {run : BitVec 6} (hstart : s.work.qoi = qoiStartRegs run) :
    s.toDecode s.lat.n.toNat = qoiDecompress s.lat.n.toNat (inBytes s s.lat.len.toNat) := by
  have hinput : s.inputLeft = inBytes s s.lat.len.toNat := by
    simp only [State.inputLeft, State.ahead, inBytes, hpos, BitVec.toNat_zero, Nat.sub_zero, Nat.zero_add]
  rw [State.toDecode, hinput, hstart, hpos]
  rfl

theorem flatMap_pixelBytesOf_length (ps : List Pixel) : (ps.flatMap pixelBytesOf).length = 4 * ps.length := by
  simp [List.length_flatMap, pixelBytesOf_length, Nat.mul_comm]

theorem EndsDecoding.result {consumed : Nat} (h : EndsDecoding s (.ok ps consumed) u) (hempty : s.outLen = 0#32)
    (hfree : s.outFree = false) (herr : s.err = 0#4) (hfits : (ps.flatMap pixelBytesOf).length < 2 ^ 32) :
    u.done = true ∧ u.err = 0#4 ∧ u.holdsOutput (ps.flatMap pixelBytesOf) ∧ u.inPos.toNat = consumed := by
  obtain ⟨hpos, hu⟩ := h
  have hout := holdsOutput_appended hempty hfree hfits
  rw [hu]
  exact ⟨rfl, herr, hout, hpos⟩

theorem EndsDecoding.fault {position : Nat} (h : EndsDecoding s (.decodeError position) u) :
    u.done = false ∧ u.err = 4#4 ∧ u.faultInfo.toNat = position ∧ u.outLen = 0#32 := by
  obtain ⟨info, q, hinfo, rfl⟩ := h
  exact ⟨rfl, rfl, hinfo, rfl⟩

/-- Settles O47: the started operation comes to what the function says, by `Decoding.finishes`. -/
theorem qoiDecompressComputesItsFunction : Obligations.QoiDecompressComputesItsFunction := by
  intro s t h hb hhost hlen hroom hexec n
  have hvalid : t.Inv := exec_cmd_keeps_inv rfl h hexec
  obtain ⟨-, hstart⟩ := qoiCommandsStart s hb hlen
  obtain rfl : _ = t := Host.Outcome.next.inj ((hstart hroom).symm.trans hexec)
  have hdecoding := hvalid.decoding ⟨rfl, hhost, rfl, rfl⟩
  obtain ⟨u, hreach, hend⟩ := hdecoding.finishes (Nat.sub_le _ _)
  rw [toDecode_start rfl rfl] at hend
  rw [(hvalid.operation rfl).count] at hreach hend
  refine ⟨u, hdecoding.reaches_of_finish hreach, hend.idle, fun ps consumed hok => ?_, fun position herror => ?_⟩
  · have hend' : EndsDecoding _ (.ok ps consumed) u := hok ▸ hend
    obtain ⟨hlength, -⟩ := qoiPixelsFrom_ok le_rfl hok
    refine hend'.result rfl rfl rfl ?_
    rw [flatMap_pixelBytesOf_length, hlength, ← Nat.mul_assoc]
    exact hroom.trans_lt s.cfg.outCap.isLt
  · have hend' : EndsDecoding _ (.decodeError position) u := herror ▸ hend
    exact hend'.fault

end Run

end Sys2Proof.Machine
end

section
/-! ## Faults and the interrupt line (60_exceptions.md R280, R283, R288, R291) -/

namespace Sys2Proof.Machine

section Exceptions

variable {s t : State}

/-! ### The interrupt line -/

theorem State.irq_iff (s : State) : s.irq = true ↔ s.ie = true ∧ (s.done = true ∨ s.err ≠ 0#4) := by simp [State.irq]

/-- With an outcome to report the line is the enable bit. -/
theorem State.irq_of_outcome (h : s.done = true ∨ s.err ≠ 0#4) : s.irq = s.ie :=
  Bool.eq_iff_iff.2 ((State.irq_iff s).trans (and_iff_left h))

theorem State.irq_of_no_outcome (hdone : s.done = false) (herr : s.err = 0#4) : s.irq = false := by
  simp [State.irq, hdone, herr]

theorem State.irq_of_disabled (hie : s.ie = false) : s.irq = false := by simp [State.irq, hie]

theorem State.Inv.irq_of_busy (h : s.Inv) (hb : s.busy = true) : s.irq = false :=
  State.irq_of_no_outcome (h.status.busyNotDone hb) (h.status.busyNoErr hb)

theorem State.complete_irq (s : State) : s.complete.irq = s.ie := State.irq_of_outcome (s := s.complete) (.inl rfl)

theorem abandon_irq (s : State) : (abandon s).irq = false := State.irq_of_no_outcome rfl rfl

theorem hardwareReset_irq (s : State) : (hardwareReset s).irq = false := State.irq_of_no_outcome rfl rfl

/-! ### Fault entry -/

/-- No code of a fault is 0, which is what lets `ERR` raise the line. -/
theorem raise_irq (f : Raised) (s : State) : (raise f s).irq = s.ie :=
  let ⟨_, houtcome⟩ := hasEnded_raise f s
  State.irq_of_outcome houtcome

theorem raise_err_of_kind {f : Raised} {k : FaultKind} (h : f.kind = k) (s : State) : (raise f s).err = k.code := by
  rw [raise_err, h]

/-- Settles O19: each field is what `raise` leaves there, and the engine has no turn in a block that is not busy. -/
theorem faultEntryStopsTheEngine : Obligations.FaultEntryStopsTheEngine := by
  intro f s
  refine ⟨raise_busy f s, raise_done f s, raise_faultInfo f s, raise_outLen f s, ?codes⟩
  refine ⟨(raise_err_of_kind · s), (raise_err_of_kind · s), (raise_err_of_kind · s), (raise_err_of_kind · s),
    (raise_err_of_kind · s), engineTurn_idle (raise_busy f s), raise_irq f s, ?kept⟩
  exact ⟨raise_op f s, raise_ie f s, raise_dim f s, raise_colorBits f s, raise_deltaEn f s, raise_inLen f s,
    raise_inMem f s, raise_lat f s⟩

/-! ### The first failing check of a start command -/

theorem firstFailing_cons_fails {holds : Bool} {code : Word} {rest : List (Bool × Word)} (h : holds = false) :
    firstFailing ((holds, code) :: rest) = some code := by simp [firstFailing, h]

theorem firstFailing_cons_holds {holds : Bool} {code : Word} {rest : List (Bool × Word)} (h : holds = true) :
    firstFailing ((holds, code) :: rest) = firstFailing rest := by simp [firstFailing, h]

theorem checksLzw_bad_colorBits (opc : BitVec 4) (hcb : ¬ (1 ≤ s.colorBits.toNat ∧ s.colorBits.toNat ≤ 8)) :
    firstFailing (checksLzw (latchStart opc s)) = some 1#32 :=
  firstFailing_cons_fails (decide_eq_false hcb)

theorem checksLzw_bad_length (opc : BitVec 4) (hlow : 1 ≤ s.colorBits.toNat) (hhigh : s.colorBits.toNat ≤ 8)
    (hlen : s.cfg.inSize < s.inLen.toNat) : firstFailing (checksLzw (latchStart opc s)) = some 3#32 :=
  (firstFailing_cons_holds (decide_eq_true ⟨hlow, hhigh⟩)).trans
    (firstFailing_cons_fails (decide_eq_false (not_le.2 hlen)))

theorem checksPixels_bad_dim (opc : BitVec 4) (hdim : dimBytes s ≠ s.inLen.toNat) :
    firstFailing (checksPixels (latchStart opc s)) = some 2#32 :=
  firstFailing_cons_fails (beq_eq_false_iff_ne.2 hdim)

theorem checksPixels_bad_length (opc : BitVec 4) (hdim : dimBytes s = s.inLen.toNat)
    (hlen : s.cfg.inSize < s.inLen.toNat) : firstFailing (checksPixels (latchStart opc s)) = some 3#32 :=
  (firstFailing_cons_holds (beq_iff_eq.2 hdim)).trans (firstFailing_cons_fails (decide_eq_false (not_le.2 hlen)))

theorem checksDecompress_bad_length (opc : BitVec 4) (hlen : s.cfg.inSize < s.inLen.toNat) :
    firstFailing (checksDecompress (latchStart opc s)) = some 3#32 :=
  firstFailing_cons_fails (decide_eq_false (not_le.2 hlen))

theorem checksDecompress_no_room (opc : BitVec 4) (hlen : s.inLen.toNat ≤ s.cfg.inSize)
    (hroom : s.cfg.outCap.toNat < dimBytes s) : firstFailing (checksDecompress (latchStart opc s)) = some 4#32 :=
  (firstFailing_cons_holds (decide_eq_true hlen)).trans (firstFailing_cons_fails (decide_eq_false (not_le.2 hroom)))

/-- A start command with a check that fails (R131). -/
theorem startCommand_refused {opc : BitVec 4} {checks : State → List (Bool × Word)} {init : State → State} {code : Word}
    (hb : s.busy = false) (hfail : firstFailing (checks (latchStart opc s)) = some code) :
    startCommand opc checks init s = raise ⟨.cfgError, code⟩ (latchStart opc s) := by
  simp [startCommand, hb, hfail]

/-- What a refused start command written in `s` comes to: `CfgError` with the sub-code, `OP` the opcode, no output, IN and
the configuration registers kept (R283, R288). -/
def TakesCfgError (s : State) (opc : BitVec 4) (code : Word) (o : Host.Outcome State Fault Refusal) : Prop :=
  ∃ t, o = .next t ∧ t.err = 2#4 ∧ t.faultInfo = code ∧ t.op = opc ∧ t.busy = false ∧ t.done = false ∧
    t.outLen = 0#32 ∧ t.outMem = [] ∧ t.inMem = s.inMem ∧ t.dim = s.dim ∧ t.colorBits = s.colorBits ∧
    t.deltaEn = s.deltaEn ∧ t.inLen = s.inLen ∧ t.ie = s.ie

theorem takesCfgError_of_firstFailing {opc : BitVec 4} {checks : State → List (Bool × Word)} {init : State → State}
    {code : Word} (hb : s.busy = false) (hfail : firstFailing (checks (latchStart opc s)) = some code) :
    TakesCfgError s opc code (.next (startCommand opc checks init s)) :=
  ⟨raise ⟨.cfgError, code⟩ (latchStart opc s), congrArg Host.Outcome.next (startCommand_refused hb hfail),
    rfl, rfl, rfl, rfl, rfl, rfl, rfl, rfl, rfl, rfl, rfl, rfl, rfl⟩

/-- Settles O17, check by check in the order of R283. -/
theorem firstFailingCheckRaisesCfgError : Obligations.FirstFailingCheckRaisesCfgError := by
  intro s hb
  have hpixels (code : Word) (hfail : ∀ opc, firstFailing (checksPixels (latchStart opc s)) = some code) :
      TakesCfgError s 2#4 code (exec .qoiCompress s) ∧ TakesCfgError s 4#4 code (exec .bmpEncode24 s) ∧
        TakesCfgError s 5#4 code (exec .bmpEncode32 s) :=
    ⟨takesCfgError_of_firstFailing hb (hfail _), takesCfgError_of_firstFailing hb (hfail _),
      takesCfgError_of_firstFailing hb (hfail _)⟩
  refine ⟨fun hcb => ?colorBits, fun hlow hhigh hlen => ?lzwLength, fun hdim => ?dim, fun hdim hlen => ?pixelsLength,
    fun hlen => ?decompressLength, fun hlen hroom => ?room⟩
  case colorBits => exact takesCfgError_of_firstFailing hb (checksLzw_bad_colorBits _ hcb)
  case lzwLength => exact takesCfgError_of_firstFailing hb (checksLzw_bad_length _ hlow hhigh hlen)
  case dim => exact hpixels 2#32 (checksPixels_bad_dim · hdim)
  case pixelsLength => exact hpixels 3#32 (checksPixels_bad_length · hdim hlen)
  case decompressLength => exact takesCfgError_of_firstFailing hb (checksDecompress_bad_length _ hlen)
  case room => exact takesCfgError_of_firstFailing hb (checksDecompress_no_room _ hlen hroom)

/-! ### What raises and lowers the line -/

/-- The five start commands are one operation, whose initialisation sets working registers only (R131, R312). -/
theorem exec_start_eq {i : Instr}
    (hi : i = .lzwCompress ∨ i = .qoiCompress ∨ i = .qoiDecompress ∨ i = .bmpEncode24 ∨ i = .bmpEncode32) :
    ∃ (opc : BitVec 4) (checks : State → List (Bool × Word)) (work : State → Work), ∀ s,
      exec i s = .next (startCommand opc checks (fun u => { u with work := work u }) s) := by
  rcases hi with rfl | rfl | rfl | rfl | rfl
  · exact ⟨1#4, checksLzw, fun u => (initLzw u).work, fun _ => rfl⟩
  · exact ⟨2#4, checksPixels, fun u => (u.setQoi (qoiStartRegs 0#6)).work, fun _ => rfl⟩
  · exact ⟨3#4, checksDecompress, fun u => (u.setQoi (qoiStartRegs u.work.qoi.run)).work, fun _ => rfl⟩
  · exact ⟨4#4, checksPixels, fun u => (initBmp .bmp24 u).work, fun _ => rfl⟩
  · exact ⟨5#4, checksPixels, fun u => (initBmp .bmp32 u).work, fun _ => rfl⟩

/-- A start command after which the block is busy was accepted, and has cleared `DONE` and `ERR` (R131). -/
theorem exec_start_irq {i : Instr}
    (hi : i = .lzwCompress ∨ i = .qoiCompress ∨ i = .qoiDecompress ∨ i = .bmpEncode24 ∨ i = .bmpEncode32)
    (hb : s.busy = false) (hexec : exec i s = .next t) (ht : t.busy = true) : t.irq = false := by
  obtain ⟨opc, checks, work, heq⟩ := exec_start_eq hi
  obtain rfl := Host.Outcome.next.inj ((heq s).symm.trans hexec)
  rcases startCommand_cases opc checks (fun u => { u with work := work u }) s with
    ⟨hbusy, -⟩ | ⟨-, code, -, hrefused⟩ | ⟨-, -, haccepted⟩
  · cases hb.symm.trans hbusy
  · rw [hrefused] at ht
    cases ht
  · rw [haccepted]
    exact State.irq_of_no_outcome rfl rfl

/-- Settles O20: each clause leaves an outcome, none, or the enable bit clear. -/
theorem irqFollowsOutcomeAndEnable : Obligations.IrqFollowsOutcomeAndEnable := by
  refine ⟨State.irq_iff, fun s h => h.irq_of_busy, fun s _ _ => s.complete_irq, raise_irq, fun s v houtcome => ?setIe,
    fun s v hv => ?clearIe, fun s => ⟨abandon s, rfl, abandon_irq s⟩, fun s hb houtcome => ?ack,
    fun i s t => exec_start_irq, hardwareReset_irq⟩
  case setIe => exact State.irq_of_outcome (s := s.storeReg offCtrl v) houtcome
  case clearIe => exact State.irq_of_disabled (s := s.storeReg offCtrl v) hv
  case ack =>
    have hack : exec .ack s = .next (clearOutcome s) := (exec_ack_idle hb).trans (if_pos (State.ended_iff.2 houtcome))
    exact ⟨clearOutcome s, hack, clearOutcome_irq s⟩

end Exceptions

end Sys2Proof.Machine
end

section
/-! ## Reset and hazards (70_reset_and_hazards.md R310, R316 a, R318) -/

namespace Sys2Proof.Machine

section ResetAndHazards

variable {s : State}

/-! ### A host write to IN during an operation -/

/-- The faults a racing operation may take: `DecodeError` in `QOI_DECOMPRESS`, `SymbolError` in `LZW_COMPRESS` where some
byte is no symbol, and `OutFull` at the capacity in all but `QOI_DECOMPRESS` (R265, R284, R285). -/
theorem raceFault_cases (s : State) (outFull : Bool) (info : Word) :
    ((raceFault s outFull info).kind = .decodeError ∧ s.lat.opl = 3#4) ∨
      ((raceFault s outFull info).kind = .symbolError ∧ s.lat.opl = 1#4 ∧ s.lat.cb.toNat < 8) ∨
      (raceFault s outFull info = ⟨.outFull, s.cfg.outCap⟩ ∧ s.lat.opl ≠ 3#4) := by
  rw [raceFault]
  split
  case isTrue hdecompress => exact .inl ⟨rfl, hdecompress⟩
  case isFalse hother =>
    split
    case isTrue hlzw =>
      obtain ⟨hopl, hcb, -⟩ := hlzw
      exact .inr (.inl ⟨rfl, hopl, hcb⟩)
    case isFalse => exact .inr (.inr ⟨rfl, hother⟩)

/-- All that a racing operation can come to: done with the cursor inside the input, or a fault of `raceFault` (log entry
12). -/
theorem raceStep_cases (s : State) :
    ((raceStep s).done = true ∧ (raceStep s).err = s.err ∧ (raceStep s).inPos.toNat ≤ s.lat.len.toNat) ∨
      ∃ outFull info, raceStep s = raise (raceFault s outFull info) s := by
  rw [raceStep]
  split
  case h_1 outLen inPos allt _ =>
    refine .inl ⟨rfl, rfl, ?_⟩
    simp only
    split
    case isTrue hinside =>
      obtain ⟨-, hle⟩ := hinside
      exact BitVec.le_def.1 hle
    case isFalse => exact le_rfl
  case h_2 outFull info _ => exact .inr ⟨outFull, info, rfl⟩

/-- Settles O56: the bounds and IN are those of every race step, the outcome is split by `raceStep_cases`. -/
theorem racingInputWriteIsContained : Obligations.RacingInputWriteIsContained := by
  intro s h hb hraced
  have hturn : engineTurn s = .next (raceStep s) := by rw [engineTurn, if_pos hb, if_pos hraced]
  have hframe := raceStep_frame s
  have hfits : (raceStep s).outLen.toNat ≤ s.cfg.outCap.toNat := by
    have hcfg : (raceStep s).cfg = s.cfg := by rw [hframe]
    rw [← hcfg]
    exact (raceStep_keeps_inv h hb).outFits
  have hin : (raceStep s).inMem = s.inMem := by rw [hframe]
  have hop : s.lat.opl = s.op := (h.operation hb).opcode.1
  refine ⟨raceStep s, hturn, (hasEnded_raceStep s).1, hin, hfits, ?outcome⟩
  rcases raceStep_cases s with ⟨hdone, herr, hcursor⟩ | ⟨outFull, info, hraise⟩
  · exact .inl ⟨hdone, herr.trans (h.status.busyNoErr hb), hcursor⟩
  · rw [hraise, ← hop]
    refine .inr ⟨raise_done _ s, ?fault⟩
    rcases raceFault_cases s outFull info with ⟨hkind, hopl⟩ | ⟨hkind, hopl, hcb⟩ | ⟨hfull, hopl⟩
    · exact .inr (.inl ⟨raise_err_of_kind hkind s, hopl⟩)
    · exact .inl ⟨raise_err_of_kind hkind s, hopl, hcb⟩
    · rw [hfull]
      exact .inr (.inr ⟨rfl, hopl, rfl⟩)

/-! ### A command takes effect at the write -/

/-- A start command written while not busy is refused with a fault or starts the operation; the previous output is lost
either way (R131, R315). -/
theorem startCommand_takes_effect {opc : BitVec 4} {checks : State → List (Bool × Word)} {work : State → Work} {t : State}
    (hb : s.busy = false) (ht : startCommand opc checks (fun u => { u with work := work u }) s = t) :
    (t.busy = true ∨ t.done = true ∨ t.err ≠ 0#4) ∧ t.done = false ∧ t.outLen = 0#32 := by
  rcases startCommand_cases opc checks (fun u => { u with work := work u }) s with
    ⟨hbusy, -⟩ | ⟨-, code, -, hrefused⟩ | ⟨-, -, haccepted⟩
  · cases hb.symm.trans hbusy
  · obtain rfl := hrefused.symm.trans ht
    exact ⟨.inr (hasEnded_raise _ _).2, raise_done _ _, raise_outLen _ _⟩
  · obtain rfl := haccepted.symm.trans ht
    exact ⟨.inl rfl, rfl, rfl⟩

/-- Settles O18: each of the five is a `startCommand`. -/
theorem startTakesEffectAtTheWrite : Obligations.StartTakesEffectAtTheWrite := by
  intro i s hi hb
  obtain ⟨opc, checks, work, hexec⟩ := exec_start_eq hi
  exact ⟨_, hexec s, startCommand_takes_effect hb rfl⟩

/-! ### The reset line -/

theorem step_hwReset {rest : List HostAct} (h : s.host = .hwReset :: rest) :
    step s = .next (hardwareReset { s with host := rest }) := by
  have hturn : step s = hostTurn .hwReset { s with host := rest } := by rw [step, takeTurn, h]
  exact hturn

/-- What the reset line leaves free no register shows: each reads as right after power-on (R310). -/
theorem hardwareReset_regValue (s : State) (off : Nat) :
    (hardwareReset s).regValue off = (State.resetWith s.cfg).regValue off := rfl

/-- The reset values of R22 but for `QOICFG`, register by register. -/
theorem resetWith_regValue (c : Config) {off : Nat} (hqoi : off ≠ offQoiCfg) :
    (State.resetWith c).regValue off = 0#32 := by
  have hstatus : (State.resetWith c).statusWord = 0#32 :=
    calc (State.resetWith c).statusWord = 0#20 ++ 0#4 ++ 0#8 := statusWord_of_idle rfl rfl rfl rfl
      _ = 0#32 := by decide
  rw [State.regValue, hstatus, if_neg hqoi]
  simp [State.resetWith]

/-- Settles O22: the registers are those of power-on, and the block is idle. -/
theorem hardwareResetClearsRegisters : Obligations.HardwareResetClearsRegisters := by
  intro s rest hhost
  exact ⟨_, step_hwReset hhost, rfl, fun off hqoi => (hardwareReset_regValue _ off).trans (resetWith_regValue _ hqoi),
    regValue_qoiCfg _, hardwareReset_irq _, rfl, rfl, engineTurn_idle rfl⟩

end ResetAndHazards

end Sys2Proof.Machine
end
